-- ==== Sys2Proof/Word.lean ====
section
/-!
DEFINITION. The two word types of the block (00_scope.md R16): a byte is 8 bits, an address is 16 bits,
both unsigned. Nothing in the block is signed.
-/

namespace Sys2Proof

/-- A byte, 8 bits, unsigned (R16). -/
abbrev Byte := BitVec 8

/-- An address, 16 bits, unsigned (R16, R60). -/
abbrev Addr := BitVec 16

end Sys2Proof
end

