-- ==== Sys2Proof/Config.lean ====
section
/-!
DEFINITION. The parameter record of 00_scope.md R8, the memory regions of R61, and the one free value
of the model: a constant without a body, of which nothing can be proved.
-/

namespace Sys2Proof

/-- The three regions of the 16-bit space, in address order (20_memory.md R61). -/
inductive Region where
  | ram
  | configNonvolatile
  | mainNonvolatile
  deriving DecidableEq, Repr

/-- `IMAGE_ENTRY` of R8, a function of load address and size, as plain data: the load address (the default), a fixed
address (R254), or a table, a row for each load address and size with the address entered. Every function is
some table (`imageTarget_every_function`; log 15). -/
inductive ImageEntry where
  | loadAddress
  | fixedAt (a : Addr)
  | table (rows : List (Addr × Byte × Addr))
  deriving DecidableEq, Repr

/-- The parameter record of R8, one field a row of its table. -/
structure Params where
  /-- `CMD_HEADER`, default 0x5A. -/
  cmdHeader : Byte
  /-- `RESP_HEADER`, default 0xA5. -/
  respHeader : Byte
  /-- `OPC_READ`, default 0xF1. -/
  opcRead : Byte
  /-- `OPC_WRITE`, default 0xF2. -/
  opcWrite : Byte
  /-- `OPC_GO`, default 0xF3. -/
  opcGo : Byte
  /-- `OPC_EXEC`, default 0xF4. -/
  opcExec : Byte
  /-- `ST_SUCCESS`, default 0x00. -/
  stSuccess : Byte
  /-- `ST_CHECKSUM_ERROR`, default 0xE1. -/
  stChecksumError : Byte
  /-- `ST_INVALID_COMMAND`, default 0xE2. -/
  stInvalidCommand : Byte
  /-- `ST_PROGRAMMING_PROTECTED`, default 0xE3. -/
  stProgrammingProtected : Byte
  /-- `MAX_PAYLOAD`, 0 to 255, default 64. -/
  maxPayload : Nat
  /-- `CONFIG_BASE`, no default: the first address of CONFIG_NONVOLATILE. -/
  configBase : Addr
  /-- `MAIN_BASE`, no default: the first address of MAIN_NONVOLATILE. -/
  mainBase : Addr
  /-- `KEY1[CONFIG]`, no default. -/
  key1Config : Byte
  /-- `KEY2[CONFIG]`, no default. -/
  key2Config : Byte
  /-- `KEY1[MAIN]`, no default. -/
  key1Main : Byte
  /-- `KEY2[MAIN]`, no default. -/
  key2Main : Byte
  /-- `CONFIG_NEEDS_PROG_MODE`, default true. -/
  configNeedsProgMode : Bool
  /-- `BURST_SIZE`, default 1, fixed to 1 by R216. -/
  burstSize : Nat
  /-- `BUF_BASE`, no default: the address of `buf[0]`. -/
  bufBase : Addr
  /-- `RET_SEQ`, no default; its length is `RET_LEN`. -/
  retSeq : List Byte
  /-- `SYNC0`, no default. -/
  sync0 : Byte
  /-- `SYNC1`, no default. -/
  sync1 : Byte
  /-- `ACK`, no default. -/
  ack : Byte
  /-- `T_HS`, no default: the handshake timeout in ticks. -/
  tHs : Nat
  /-- `W_T`: the width of the handshake timer. -/
  wT : Nat
  /-- `RAM_TOP`, no default: the exclusive end of the boot image. -/
  ramTop : Addr
  /-- `APP_ENTRY`, no default. -/
  appEntry : Addr
  /-- `SEED_WINDOW.lo`, no default. -/
  seedLo : Addr
  /-- `SEED_WINDOW.hi`, no default, exclusive. -/
  seedHi : Addr
  /-- `BAUD_SEED`, no default; used by no rule of behaviour. -/
  baudSeed : Nat
  /-- `BAUD_FULL`, no default; used by no rule of behaviour. -/
  baudFull : Nat
  /-- `IMAGE_ENTRY`, default the load address. -/
  imageEntry : ImageEntry
  deriving DecidableEq, Repr

/-- The record `State.reset` carries: the defaults of R8; for the parameters without a default the illustration
record T of 95_test_vectors.md section 0 (DESIGN CHOICE, unsafe, log 1), the keys of 93 G2 and two baud
rates (PRESUMED, unsafe, log 2). Every statement is made for every legal record, never for this one. -/
def Params.illustration : Params where
  cmdHeader := 0x5A
  respHeader := 0xA5
  opcRead := 0xF1
  opcWrite := 0xF2
  opcGo := 0xF3
  opcExec := 0xF4
  stSuccess := 0x00
  stChecksumError := 0xE1
  stInvalidCommand := 0xE2
  stProgrammingProtected := 0xE3
  maxPayload := 64
  configBase := 0x4000
  mainBase := 0x8000
  key1Config := 0xAE
  key2Config := 0x56
  key1Main := 0x56
  key2Main := 0xAE
  configNeedsProgMode := true
  burstSize := 1
  bufBase := 0x0300
  retSeq := [0x81]
  sync0 := 0x11
  sync1 := 0x22
  ack := 0x33
  tHs := 3
  wT := 2
  ramTop := 0x0400
  appEntry := 0x8004
  seedLo := 0x0000
  seedHi := 0x0040
  baudSeed := 9600
  baudFull := 115200
  imageEntry := .loadAddress

/-- The `n`-th free byte: what a non-volatile byte holds once the controller has refused or spoiled its store
(R207: "the block cannot tell which"), or while its program cycle was never confirmed. DESIGN CHOICE,
safe, log 7. -/
opaque Config.spoiledByte : Nat → Byte

end Sys2Proof
end

