-- ==== Sys2Proof/Syntax.lean ====
section
/-!
DEFINITION. The instructions of the block: the rows of spec/opcode_table.json, one constructor a row. They are
command frames (host to device), response frames (device to host) and the four tokens of the
handshake stream (30_encoding.md R90).
-/

namespace Sys2Proof

/-- One constructor per row of the opcode table. A command carries every operand its frame has on the wire,
those the command ignores included (R110), so that an encoding drops nothing. -/
inductive Instr where
  /-- READ, R169: start address and count; no payload on the wire (R96). -/
  | read (addr : Addr) (len : Byte)
  /-- WRITE.RAM, R170: the row for a start address in RAM. -/
  | writeRam (addr : Addr) (payload : List Byte)
  /-- WRITE.NVM, R171: the row for a start address in a non-volatile region. -/
  | writeNvm (addr : Addr) (payload : List Byte)
  /-- GO, R172: the payload is acquired and ignored. -/
  | go (addr : Addr) (payload : List Byte)
  /-- EXEC, R173: the payload is the code; the address is ignored. -/
  | execPayload (addr : Addr) (payload : List Byte)
  /-- INVALID, R168, R104: an unassigned command byte with a right checksum. -/
  | invalid (cmd : Byte) (addr : Addr) (payload : List Byte)
  /-- CHECKSUM_ERROR, R167: a completed frame whose last byte `cks` is wrong. -/
  | checksumError (cmd : Byte) (addr : Addr) (len : Byte) (payload : List Byte) (cks : Byte)
  /-- STATUS.SUCCESS, R155, R100. -/
  | statusSuccess
  /-- STATUS.CHECKSUM_ERROR, R155, R100. -/
  | statusChecksumError
  /-- STATUS.INVALID_COMMAND, R155, R100. -/
  | statusInvalidCommand
  /-- STATUS.PROGRAMMING_PROTECTED, R155, R100. -/
  | statusProgrammingProtected
  /-- DATA, R150, R101: the response frame that carries `payload`. -/
  | data (payload : List Byte)
  /-- SYNC0, R245: the first byte of the synchronisation pattern. -/
  | sync0
  /-- SYNC1, R246: the second byte of the synchronisation pattern. -/
  | sync1
  /-- ACK, R249: the acknowledgement. -/
  | ack
  /-- IMG_LEN, R251: the image length byte. -/
  | imgLen (n : Byte)
  deriving DecidableEq, Repr

/-- A command frame as the decoder hands it over (R129: the tuple of `cmd`, `addr`, `len` and the payload). -/
structure CommandFrame where
  cmd : Byte
  addr : Addr
  len : Byte
  payload : List Byte
  deriving DecidableEq, Repr

/-- Which stream, and which place in it, a byte sequence is read at (R90, R108): the same bytes mean different
things at different places (R101: a data response of one byte has the shape of a status response). -/
inductive Stream where
  | command
  | statusReply
  | dataReply
  | sync0
  | sync1
  | ack
  | imgLen
  deriving DecidableEq, Repr

end Sys2Proof
end

