-- ==== Sys2Proof/Machine/Operands.lean ====
section
/-!
DEFINITION. Operand forms: how fields of a frame are assembled (30_encoding.md R94 to R97), the classifier
(43_region_write_engine.md R200, R202), the place of `buf` in the address space (20_memory.md R69), the
placement of the boot image (R251, R254), and the constraints on a parameter record (00_scope.md R9).
-/

namespace Sys2Proof

/-- `RET_LEN`, the number of bytes of `RET_SEQ` (R8). -/
def Params.retLen (p : Params) : Nat := p.retSeq.length

/-- The size of `buf` (10_state.md R33). -/
def Params.bufSize (p : Params) : Nat := p.maxPayload + p.retLen

/-- The constraints (a) to (h) of R9 in its order, then the ranges of R8's own table: `RET_LEN >= 1`,
`T_HS >= 1`, `2^W_T > T_HS`, and `BURST_SIZE = 1` (R216). -/
abbrev Params.Legal (p : Params) : Prop :=
  p.cmdHeader ≠ p.respHeader ∧
  (p.opcRead ≠ p.opcWrite ∧ p.opcRead ≠ p.opcGo ∧ p.opcRead ≠ p.opcExec ∧
    p.opcWrite ≠ p.opcGo ∧ p.opcWrite ≠ p.opcExec ∧ p.opcGo ≠ p.opcExec) ∧
  (0 < p.configBase.toNat ∧ p.configBase.toNat < p.mainBase.toNat) ∧
  p.maxPayload ≤ 255 ∧
  p.bufBase.toNat + p.maxPayload + p.retSeq.length ≤ p.configBase.toNat ∧
  p.ramTop.toNat ≤ p.configBase.toNat ∧
  (p.stSuccess ≠ p.stChecksumError ∧ p.stSuccess ≠ p.stInvalidCommand ∧
    p.stSuccess ≠ p.stProgrammingProtected ∧ p.stChecksumError ≠ p.stInvalidCommand ∧
    p.stChecksumError ≠ p.stProgrammingProtected ∧ p.stInvalidCommand ≠ p.stProgrammingProtected) ∧
  p.seedHi.toNat + 255 ≤ p.ramTop.toNat ∧
  1 ≤ p.retSeq.length ∧
  1 ≤ p.tHs ∧
  p.tHs < 2 ^ p.wT ∧
  p.burstSize = 1

/-- `classify` (R200): a pure function of the address; both comparisons are unsigned. -/
def classify (p : Params) (a : Addr) : Region :=
  if a < p.configBase then .ram
  else if a < p.mainBase then .configNonvolatile
  else .mainNonvolatile

/-- The key pair of a region (R46), the table of R202: none for RAM. -/
def keyPair (p : Params) : Region → Option (Byte × Byte)
  | .ram => none
  | .configNonvolatile => some (p.key1Config, p.key2Config)
  | .mainNonvolatile => some (p.key1Main, p.key2Main)

/-- Whether a session in region `r` arms the extra programming-mode bit (R202, R204). -/
def needsArm (p : Params) (r : Region) : Bool :=
  r == .configNonvolatile && p.configNeedsProgMode

/-- `XOR(bytes)` (R17, R97): the exclusive or of a sequence, 0 for the empty one. -/
def xorBytes : List Byte → Byte
  | [] => 0
  | b :: bs => b ^^^ xorBytes bs

/-- `wire_n(cmd, len)` (R96): payload bytes that follow the length byte. -/
def wireN (p : Params) (cmd len : Byte) : Nat :=
  if cmd = p.opcRead then 0 else len.toNat

/-- Whether a command byte is one of the four assigned opcodes (R103). -/
def assigned (p : Params) (cmd : Byte) : Bool :=
  cmd == p.opcRead || cmd == p.opcWrite || cmd == p.opcGo || cmd == p.opcExec

/-- Big-endian assembly of the address field (R94): `hi ++ lo`. -/
def addrOf (hi lo : Byte) : Addr := hi ++ lo

/-- `addr[15:8]` (R28). -/
def addrHi (a : Addr) : Byte := a.extractLsb' 8 8

/-- `addr[7:0]` (R28). -/
def addrLo (a : Addr) : Byte := a.extractLsb' 0 8

/-- `a +_16 k` (R16, R68): the address of byte `k` of a transfer, modulo 2^16. -/
def addrPlus (a : Addr) (k : Nat) : Addr := a + BitVec.ofNat 16 k

/-- The address lies in `buf`'s range `[BUF_BASE, BUF_BASE + MAX_PAYLOAD + RET_LEN)` (R69). -/
def inBuf (p : Params) (a : Addr) : Bool :=
  decide (p.bufBase.toNat ≤ a.toNat) && decide (a.toNat < p.bufBase.toNat + p.bufSize)

/-- The index in `buf` of an address of its range (R69). -/
def bufIndex (p : Params) (a : Addr) : Nat := a.toNat - p.bufBase.toNat

/-- `RAM_TOP - n` (R251): the load address of an image of `n` bytes. -/
def loadAddrOf (p : Params) (n : Byte) : Addr := p.ramTop - n.setWidth 16

/-- The address a table gives for a load address and size: its first such row (log 15). -/
def entryRow : List (Addr × Byte × Addr) → Addr → Byte → Option Addr
  | [], _, _ => none
  | (l, m, target) :: rows, load, n => if l = load ∧ m = n then some target else entryRow rows load n

/-- `IMAGE_ENTRY(load_addr, img_len)` (R254); the default of R8 where a table has no row. -/
def imageTarget (p : Params) (load : Addr) (n : Byte) : Addr :=
  match p.imageEntry with
  | .loadAddress => load
  | .fixedAt a => a
  | .table rows => (entryRow rows load n).getD load

/-- The five bytes of a command frame before its payload (R91). -/
def framePrefix (p : Params) (cmd : Byte) (a : Addr) (len : Byte) : List Byte :=
  [p.cmdHeader, cmd, addrHi a, addrLo a, len]

/-- The checksum of a command frame (R97): header included. -/
def frameChecksum (p : Params) (cmd : Byte) (a : Addr) (len : Byte) (payload : List Byte) : Byte :=
  xorBytes (framePrefix p cmd a len ++ payload)

/-- The number of bytes of a payload as the length byte states it (R95). -/
def lenByte (payload : List Byte) : Byte := BitVec.ofNat 8 payload.length

end Sys2Proof
end

