-- ==== Sys2Proof/Machine/State.lean ====
section
/-!
DEFINITION. The state of the block and of its surroundings as plain data (10_state.md; 20_memory.md R79), the input
events and output actions (00_scope.md R10, R11), the reasons a step can stop, and the state after reset
(10_state.md R53).
-/

namespace Sys2Proof.Machine

/-- `owner` (R21): who owns the single thread of execution. -/
inductive Owner where
  | hs
  | cu
  | ext
  deriving DecidableEq, Repr

/-- `hs_state` (R22). -/
inductive HsState where
  | coldStart
  | relocateSelf
  | sendSync0
  | sendSync1
  | waitAck
  | imgLen
  | imgData
  | enteredImage
  | fellThrough
  deriving DecidableEq, Repr

/-- `cu_phase` (R25). -/
inductive CuPhase where
  | disabled
  | receive
  | execute
  | respond
  | execWait
  | released
  deriving DecidableEq, Repr

/-- `rx_state` (R26): the byte the decoder expects next. -/
inductive RxState where
  | hunt
  | cmd
  | addrHi
  | addrLo
  | len
  | payload
  | cksum
  deriving DecidableEq, Repr

/-- `we_state` (R35). -/
inductive WeState where
  | idle
  | unlock
  | store
  | poll
  | lock
  deriving DecidableEq, Repr

/-- `tx_state` (R39): the byte to send next. -/
inductive TxState where
  | hdr
  | len
  | payload
  | cks
  deriving DecidableEq, Repr

/-- The wait points of R14. -/
inductive WaitPoint where
  | wRx
  | wTx
  | wNvm
  | wAck
  | wExec
  | wMem
  deriving DecidableEq, Repr

/-- One answer of the non-volatile controller's status register (R10, R49, R50): the two bits the block looks
at, and the others, which it ignores (R206 (d)). -/
structure NvmAnswer where
  err : Bool
  eop : Bool
  others : List Bool
  deriving DecidableEq, Repr

/-- The registers of the non-volatile controller for one region: the unlock register's last byte (R45) and the
region enable state (R48). -/
structure NvmSide where
  unlock : Byte
  enabled : Bool
  deriving DecidableEq, Repr

/-- What the surroundings have become when the block gets execution back: the bytes the code outside stored, in
order, and the unlock registers, lock state, programming mode and serial rate it left (R52, U9, U10, U24, U26: "any
value"; log 8). -/
structure World where
  stores : List (Addr × Byte)
  config : NvmSide
  main : NvmSide
  progMode : Bool
  serialRate : Nat
  deriving DecidableEq, Repr

/-- The input events (R10). `Reset` and `ExecReturn` carry what happened outside meanwhile (log 8). -/
inductive Event where
  | reset (w : World)
  | rxByte (b : Byte)
  | txReady
  | nvmStatus (s : NvmAnswer)
  | tick
  | execReturn (w : World)
  | memData (v : Byte)
  deriving DecidableEq, Repr

/-- The kinds of `Relinquish` (R11). -/
inductive RelinquishKind where
  | app
  | image
  | go
  deriving DecidableEq, Repr

/-- The output actions (R11). Every memory access is one byte wide (R66), so the size argument 1 is left out. -/
inductive Action where
  | txByte (b : Byte)
  | memRead (a : Addr)
  | memWrite (a : Addr) (v : Byte)
  | nvmKey (r : Region) (v : Byte)
  | nvmArm
  | nvmDisarm
  | nvmLock (r : Region)
  | nvmPoll (r : Region)
  | serialConfig (rate : Nat)
  | relinquish (kind : RelinquishKind) (target : Addr)
  | execCall (target : Addr)
  deriving DecidableEq, Repr

/-- The non-volatile controller as far as the block drives it (R44 to R48), and the program cycle in progress
(R74). -/
structure NvmController where
  config : NvmSide
  main : NvmSide
  progMode : Bool
  cycle : Option (Addr × Byte)
  deriving DecidableEq, Repr

/-- The memory outside `buf` (R60, R79): address and byte, addresses rising, none that holds what an unlisted
address reads as (log 4). -/
abbrev Memory := List Host.Cell

/-- Everything the spec gives the block and its surroundings. -/
structure State where
  /-- The parameter record (R8); no step changes it (log 1). -/
  cfg : Params
  /-- R21. -/
  owner : Owner
  /-- R22. -/
  hsState : HsState
  /-- R23, `W_T` bits, a count of ticks (log 14). -/
  hsTimer : Nat
  /-- R24. -/
  imgLen : Byte
  /-- R24, a count of at most 255 (log 14). -/
  imgRem : Nat
  /-- R24. -/
  imgPtr : Addr
  /-- R24. -/
  loadAddr : Addr
  /-- R25. -/
  cuPhase : CuPhase
  /-- R26. -/
  rxState : RxState
  /-- R35. -/
  weState : WeState
  /-- R39. -/
  txState : TxState
  /-- R27. -/
  cmd : Byte
  /-- R28. -/
  addr : Addr
  /-- R29. -/
  len : Byte
  /-- R30, a count (log 14). -/
  idx : Nat
  /-- R31. -/
  cks : Byte
  /-- R32. -/
  cksOk : Bool
  /-- R33, `MAX_PAYLOAD + RET_LEN` bytes. -/
  buf : List Byte
  /-- R34. -/
  region : Region
  /-- R36. -/
  dst : Addr
  /-- R36, an index into `buf` (log 14). -/
  src : Nat
  /-- R36, a count (log 14). -/
  rem : Nat
  /-- R37. -/
  sessionOpen : Bool
  /-- R38. -/
  status : Byte
  /-- R39. -/
  txLen : Byte
  /-- R39, a count (log 14). -/
  txIdx : Nat
  /-- R39. -/
  txCks : Byte
  /-- R44 to R48, R74. -/
  nvm : NvmController
  /-- The rate last given by `SerialConfig` (R11, R244). -/
  serialRate : Nat
  /-- R79. -/
  mem : Memory
  /-- The events the surroundings will deliver, the next one first (R10, R18). -/
  inputs : List Event
  /-- The actions emitted so far, the oldest first (R18). -/
  trace : List Action
  /-- Numbers the free values used so far: the model's own field (log 7). -/
  freeCount : Nat
  deriving DecidableEq, Repr

/-- Why a step stops the machine for good: never. "The block has no halted state, no error latch and no fault
register" (R287); its five conditions take their abort paths (R290) and go on. -/
inductive Fault where
  deriving DecidableEq, Repr

/-- Why the model gives a step no meaning. -/
inductive Refusal where
  /-- An arm of `exec` without a meaning: raised by none. Safe. -/
  | notModelled (mnemonic : String)
  /-- The parameter record breaks a constraint of R9: "a model refuses a parameter record that breaks one".
  Raised by `step`. Safe. -/
  | illegalParameters
  /-- An image length byte 0 is reserved: "A model refuses this input" (R252). Raised by IMG_LEN's place in the
  stream. Safe. -/
  | imageLengthZero
  /-- A serial byte while the block is at no receive wait point: the session is unsaid (R343, U23). Raised by
  `takeEvent`. Safe. -/
  | unheardByte
  /-- Any other event that is not awaited: "the block has no step for it" (R14). Raised by `takeEvent`. Safe. -/
  | notAwaited
  deriving DecidableEq, Repr

/-- The state after reset under a parameter record: the table of R53; registers it leaves unspecified are zero
(DESIGN CHOICE, unsafe, log 3); the surroundings as R335 assumes them, with what it leaves out named in
log 4 and log 9; no event pending, nothing emitted (log 12). -/
def State.resetWith (p : Params) : State where
  cfg := p
  owner := .hs
  hsState := .coldStart
  hsTimer := 0
  imgLen := 0
  imgRem := 0
  imgPtr := 0
  loadAddr := 0
  cuPhase := .disabled
  rxState := .hunt
  weState := .idle
  txState := .hdr
  cmd := 0
  addr := 0
  len := 0
  idx := 0
  cks := 0
  cksOk := false
  buf := List.replicate (p.maxPayload + p.retSeq.length) 0
  region := .ram
  dst := 0
  src := 0
  rem := 0
  sessionOpen := false
  status := 0
  txLen := 0
  txIdx := 0
  txCks := 0
  nvm := { config := ⟨0, false⟩, main := ⟨0, false⟩, progMode := false, cycle := none }
  serialRate := 0
  mem := []
  inputs := []
  trace := []
  freeCount := 0

/-- The machine right after reset, at the record of `Params.illustration` (log 1). -/
def State.reset : State := State.resetWith Params.illustration

end Sys2Proof.Machine
end

