-- ==== Sys2Proof/Machine/Flags.lean ====
section
/-!
DEFINITION. The one-bit conditions that act as flags (10_state.md R41): the validator's verdict, the two sampled
status bits, the timer's expiry and the session bit.
-/

namespace Sys2Proof.Machine

/-- The validator (R128, R32): 1 if the received byte equals the running exclusive or. -/
def checksumVerdict (b cks : Byte) : Bool := b == cks

/-- What one status answer means to the write engine (R206). -/
inductive PollVerdict where
  | abort
  | proceed
  | again
  deriving DecidableEq, Repr

/-- `ERR` wins over `EOP`; neither: poll again (R206, R289 (c)). -/
def pollVerdict (a : NvmAnswer) : PollVerdict :=
  if a.err then .abort else if a.eop then .proceed else .again

/-- The condition `hs_timer = 0` reached in WAIT_ACK (R41, R247). -/
def timerExpired (t : Nat) : Bool := t == 0

/-- `session_open <- 1` (R37, R204). -/
def openSession (s : State) : State := { s with sessionOpen := true }

/-- `session_open <- 0` (R37, R211). -/
def closeSession (s : State) : State := { s with sessionOpen := false }

end Sys2Proof.Machine
end

