-- ==== Sys2Proof/Machine/Ops.lean ====
section
/-!
DEFINITION. The named operations the meanings are made of: emitting an action, memory with `buf` in it, the
non-volatile controller, starting a response, the five conditions of 60_exceptions.md and the way back.
-/

namespace Sys2Proof.Machine

/-! ## The trace -/

/-- `emit A` (R17): the order of actions is the order of emits. -/
def emit (a : Action) (s : State) : State := { s with trace := s.trace ++ [a] }

/-- `SerialConfig(rate)` (R11, R244): 8 data bits, no parity, 1 stop bit at that rate. -/
def serialConfig (rate : Nat) (s : State) : State :=
  emit (.serialConfig rate) { s with serialRate := rate }

/-! ## Memory outside `buf` -/

/-- What an address that nothing has written reads as, when the surroundings give no answer of their own
(DESIGN CHOICE, unsafe, log 4). -/
def Memory.unlisted : Byte := 0

/-- The byte at an address. -/
def Memory.read : Memory → Nat → Byte
  | [], _ => Memory.unlisted
  | (b, w) :: t, a => if a = b then w else Memory.read t a

/-- A store, keeping the canonical form. -/
def Memory.write : Memory → Nat → Byte → Memory
  | [], a, v => if v = Memory.unlisted then [] else [(a, v)]
  | (b, w) :: t, a, v =>
    if a < b then
      if v = Memory.unlisted then (b, w) :: t else (a, v) :: (b, w) :: t
    else if a = b then
      if v = Memory.unlisted then t else (a, v) :: t
    else (b, w) :: Memory.write t a v

/-- Addresses rise from `lo` on and no cell holds the unlisted byte. -/
def Memory.wfFrom : Nat → Memory → Bool
  | _, [] => true
  | lo, (a, v) :: t => decide (lo ≤ a) && v != Memory.unlisted && Memory.wfFrom (a + 1) t

/-- The canonical form, inside the 16-bit space (R60). -/
def Memory.wf (m : Memory) : Bool := Memory.wfFrom 0 m && m.all (fun c => decide (c.1 < 65536))

/-! ## The non-volatile controller -/

/-- The region enable state (R48). RAM has none (R202). -/
def NvmController.enabled (c : NvmController) : Region → Bool
  | .ram => false
  | .configNonvolatile => c.config.enabled
  | .mainNonvolatile => c.main.enabled

/-- Whether the controller takes a store to region `r` (R71): the region is unlocked and, for the config region,
the programming-mode bit is set where it is needed (R47). -/
def takesStore (s : State) (r : Region) : Bool :=
  s.nvm.enabled r && (!needsArm s.cfg r || s.nvm.progMode)

/-- A byte reaches one region's unlock register (R45); its key sequence unlocks the region (R48). -/
def NvmSide.key (x : NvmSide) (keys : Option (Byte × Byte)) (v : Byte) : NvmSide :=
  { unlock := v, enabled := x.enabled || keys == some (x.unlock, v) }

/-- `NvmKey(r, v)` (R11). -/
def nvmKey (r : Region) (v : Byte) (s : State) : State :=
  emit (.nvmKey r v)
    (match r with
    | .ram => s
    | .configNonvolatile =>
      { s with nvm := { s.nvm with config := s.nvm.config.key (keyPair s.cfg r) v } }
    | .mainNonvolatile =>
      { s with nvm := { s.nvm with main := s.nvm.main.key (keyPair s.cfg r) v } })

/-- `NvmArm` (R11, R47). -/
def nvmArm (s : State) : State := emit .nvmArm { s with nvm := { s.nvm with progMode := true } }

/-- `NvmDisarm` (R11, R47). -/
def nvmDisarm (s : State) : State := emit .nvmDisarm { s with nvm := { s.nvm with progMode := false } }

/-- `NvmLock(r)` (R11, R48). For RAM there is nothing to lock (R202). -/
def nvmLock (r : Region) (s : State) : State :=
  match r with
  | .ram => s
  | .configNonvolatile =>
    emit (.nvmLock r) { s with nvm := { s.nvm with config := { s.nvm.config with enabled := false } } }
  | .mainNonvolatile =>
    emit (.nvmLock r) { s with nvm := { s.nvm with main := { s.nvm.main with enabled := false } } }

/-- A program cycle that no poll confirmed ends with an unknown byte (R207; a free value, log 7). -/
def abandonCycle (s : State) : State :=
  match s.nvm.cycle with
  | none => s
  | some (a, _) =>
    { s with
      mem := Memory.write s.mem a.toNat (Config.spoiledByte s.freeCount)
      freeCount := s.freeCount + 1
      nvm := { s.nvm with cycle := none } }

/-- A poll that shows EOP without ERR completes the cycle: the byte is programmed (R74, R80). -/
def commitCycle (s : State) : State :=
  match s.nvm.cycle with
  | none => s
  | some (a, v) =>
    { s with
      mem := Memory.write s.mem a.toNat v
      nvm := { s.nvm with cycle := none } }

/-! ## The 16-bit space -/

/-- `buf[i] <- v` (R17). -/
def setBuf (i : Nat) (v : Byte) (s : State) : State := { s with buf := s.buf.set i v }

/-- What a read of one address gives when the surroundings deliver no answer of their own: `buf` in its range
(R69), the memory that closes the loop elsewhere (R79). -/
def peek (s : State) (a : Addr) : Byte :=
  if inBuf s.cfg a then s.buf.getD (bufIndex s.cfg a) 0 else Memory.read s.mem a.toNat

/-- `MemRead(a, 1)` (R11, R15). In `buf`'s range it reads `buf` (R69). Elsewhere it is answered by the
surroundings: by a `MemData` event if that is the next one (any value, U12), else by the memory (log 5). -/
def memRead (a : Addr) (s : State) : Byte × State :=
  let s := emit (.memRead a) (abandonCycle s)
  if inBuf s.cfg a then (peek s a, s)
  else
    match s.inputs with
    | .memData v :: rest => (v, { s with inputs := rest })
    | _ => (peek s a, s)

/-- A store that code outside the block made (log 8). -/
def rawStore (s : State) (c : Addr × Byte) : State :=
  if inBuf s.cfg c.1 then setBuf (bufIndex s.cfg c.1) c.2 s
  else { s with mem := Memory.write s.mem c.1.toNat c.2 }

/-- `MemWrite(a, 1, v)` (R11): into `buf` in its range (R69), into RAM at once, into a non-volatile region by
starting a program cycle if the region is unlocked (R74), and not at all if it is locked (R71, log 6). -/
def memWrite (a : Addr) (v : Byte) (s : State) : State :=
  let s := emit (.memWrite a v) (abandonCycle s)
  if inBuf s.cfg a then setBuf (bufIndex s.cfg a) v s
  else
    match classify s.cfg a with
    | .ram => { s with mem := Memory.write s.mem a.toNat v }
    | r => if takesStore s r then { s with nvm := { s.nvm with cycle := some (a, v) } } else s

/-- The payload bytes at the front of `buf` (R127): what the decoder has already done for a fetched frame, so
that in a step it changes nothing (log 17). -/
def loadPayload (payload : List Byte) (s : State) : State :=
  { s with buf := (payload ++ s.buf.drop payload.length).take s.buf.length }

/-- The surroundings as the event says code outside left them (log 8). -/
def applyWorld (w : World) (s : State) : State :=
  let s := w.stores.foldl rawStore (abandonCycle s)
  { s with
    nvm := { s.nvm with config := w.config, main := w.main, progMode := w.progMode }
    serialRate := w.serialRate }

/-! ## Starting a response -/

/-- `send_response(n)` (R150). -/
def sendResponse (n : Byte) (s : State) : State :=
  { s with txLen := n, txIdx := 0, txState := .hdr, cuPhase := .respond }

/-- `send_status(s)` (R155). -/
def sendStatus (st : Byte) (s : State) : State :=
  sendResponse 1 (setBuf 0 st { s with status := st })

/-- `lock()` (R211): disarm, lock, close the session, then the status response. -/
def lock (s : State) : State :=
  let s := { s with weState := .lock }
  let s := if needsArm s.cfg s.region then nvmDisarm s else s
  let s := closeSession (nvmLock s.region s)
  let s := { s with weState := .idle }
  sendStatus s.status s

/-! ## The error conditions and the way back -/

/-- The complete list of error conditions (R280). -/
inductive Condition where
  | checksumError
  | oversizeLength
  | invalidCommand
  | programmingProtected
  | handshakeTimeout
  deriving DecidableEq, Repr

/-- `raise X` (R17, R290): no state is saved and no vector taken; each condition's fixed path. -/
def raise (c : Condition) (s : State) : State :=
  match c with
  | .checksumError => sendStatus s.cfg.stChecksumError s
  | .oversizeLength => { s with rxState := .hunt }
  | .invalidCommand => sendStatus s.cfg.stInvalidCommand s
  | .programmingProtected => lock { s with status := s.cfg.stProgrammingProtected }
  | .handshakeTimeout =>
    emit (.relinquish .app s.cfg.appEntry) { s with hsState := .fellThrough, owner := .ext }

/-- The way back from any condition that answers, and from any command (R292, R154, R157): there is nothing to
restore; the command unit receives again and hunts for a header. -/
def backToHunt (s : State) : State := { s with rxState := .hunt, cuPhase := .receive }

/-! ## Wait points -/

/-- The wait point the block is at (R14), read off the registers that stand in for a program counter (R40).
`none`: only `Reset` is taken, or (COLD_START, RELOCATE_SELF) internal work is due. W_MEM is passed inside
a READ (R15). -/
def waitPoint (s : State) : Option WaitPoint :=
  match s.owner with
  | .hs =>
    match s.hsState with
    | .sendSync0 | .sendSync1 => some .wTx
    | .waitAck => some .wAck
    | .imgLen | .imgData => some .wRx
    | .coldStart | .relocateSelf | .enteredImage | .fellThrough => none
  | .cu =>
    match s.cuPhase with
    | .receive => some .wRx
    | .respond => some .wTx
    | .execute => if s.weState = .poll then some .wNvm else none
    | .disabled | .execWait | .released => none
  | .ext => if s.cuPhase = .execWait then some .wExec else none

end Sys2Proof.Machine
end

