-- ==== Sys2Proof/Machine/WriteEngine.lean ====
section
/-!
DEFINITION. The write engine `WE` (43_region_write_engine.md R203 to R211): unlock, program, poll. `lock` is in
Ops.lean, beside the condition that runs it.
-/

namespace Sys2Proof.Machine

/-- The two-value key sequence to the region's unlock register (R204, R202). -/
def sendKeys (r : Region) (s : State) : State :=
  match keyPair s.cfg r with
  | none => s
  | some (k1, k2) => nvmKey r k2 (nvmKey r k1 s)

/-- `unlock()` (R204) for the region in `region`; `a` and `n` are the frame's address and length. -/
def unlock (a : Addr) (n : Nat) (s : State) : State :=
  let s := { s with weState := .unlock }
  let s := sendKeys s.region s
  let s := if needsArm s.cfg s.region then nvmArm s else s
  let s := openSession s
  { s with dst := a, src := 0, rem := n, status := s.cfg.stSuccess }

/-- `program_next()` (R205): one store and one poll, or lock when nothing remains. -/
def programNext (s : State) : State :=
  if s.rem = 0 then lock s
  else
    let s := memWrite s.dst (s.buf.getD s.src 0) { s with weState := .store }
    emit (.nvmPoll s.region) { s with weState := .poll }

/-- `write_engine()` (R203). -/
def writeEngine (a : Addr) (n : Nat) (s : State) : State := programNext (unlock a n s)

/-- The poll, R206: one answer is used once. -/
def pollAnswer (ans : NvmAnswer) (s : State) : State :=
  match pollVerdict ans with
  | .abort => raise .programmingProtected (abandonCycle s)
  | .proceed =>
    let s := commitCycle s
    programNext { s with dst := addrPlus s.dst 1, src := s.src + 1, rem := s.rem - 1 }
  | .again => emit (.nvmPoll s.region) s

end Sys2Proof.Machine
end

