-- ==== Sys2Proof/Machine/Commands.lean ====
section
/-!
DEFINITION. The execute stage `EXE`: the meanings of READ, WRITE.RAM, WRITE.NVM, GO and EXEC
(42_command_dispatch.md R169 to R173).
-/

namespace Sys2Proof.Machine

/-- The outcome of a meaning. -/
abbrev Result := Host.Outcome State Fault Refusal

/-- READ's loop (R169): `todo` more bytes, the next one into `buf[k]` from `a +_16 k`, ascending. -/
def copyIn (a : Addr) : (todo k : Nat) → State → State
  | 0, _, s => s
  | todo + 1, k, s =>
    let r := memRead (addrPlus a k) s
    copyIn a todo (k + 1) (setBuf k r.1 r.2)

/-- READ, R169. -/
def execRead (a : Addr) (n : Byte) (s : State) : Result :=
  .next (sendResponse n (copyIn a n.toNat 0 s))

/-- The plain copy of a RAM WRITE (R170): each byte taken from `buf` when it is stored, ascending, so that a copy
that overlaps `buf` sees its own stores (R344 (c)). -/
def copyOut (a : Addr) : (todo k : Nat) → State → State
  | 0, _, s => s
  | todo + 1, k, s => copyOut a todo (k + 1) (memWrite (addrPlus a k) (s.buf.getD k 0) s)

/-- WRITE, the RAM row, R170. -/
def execWriteRam (a : Addr) (payload : List Byte) (s : State) : Result :=
  let s := loadPayload payload { s with region := classify s.cfg a }
  let s := copyOut a payload.length 0 s
  .next (sendStatus s.cfg.stSuccess s)

/-- WRITE, the non-volatile row, R171. -/
def execWriteNvm (a : Addr) (payload : List Byte) (s : State) : Result :=
  let s := loadPayload payload { s with region := classify s.cfg a }
  .next (writeEngine a payload.length s)

/-- GO, R172: no response and no wait point. The payload is ignored. -/
def execGo (a : Addr) (s : State) : Result :=
  .next (emit (.relinquish .go a) { s with cuPhase := .released, owner := .ext })

/-- `buf[i + j] <- RET_SEQ[j]` (R173). -/
def appendSeq : (bytes : List Byte) → (i : Nat) → State → State
  | [], _, s => s
  | b :: bs, i, s => appendSeq bs (i + 1) (setBuf i b s)

/-- EXEC, the call, R173. The address is ignored. -/
def execExecPayload (payload : List Byte) (s : State) : Result :=
  let s := loadPayload payload s
  let s := appendSeq s.cfg.retSeq payload.length s
  .next (emit (.execCall s.cfg.bufBase) { s with cuPhase := .execWait, owner := .ext })

end Sys2Proof.Machine
end

