-- ==== Sys2Proof/Machine/Answers.lean ====
section
/-!
DEFINITION. The meanings of the two error answers (42_command_dispatch.md R167, R168) and of the response frames
(41_response_encoder.md R150, R155): each starts the encoder on its frame.
-/

namespace Sys2Proof.Machine

/-- CHECKSUM_ERROR, R167, R281: nothing but the answer. -/
def execChecksumError (s : State) : Result := .next (raise .checksumError s)

/-- INVALID, R168, R282: nothing but the answer. -/
def execInvalid (s : State) : Result := .next (raise .invalidCommand s)

/-- STATUS.SUCCESS, R155. -/
def execStatusSuccess (s : State) : Result := .next (sendStatus s.cfg.stSuccess s)

/-- STATUS.CHECKSUM_ERROR, R155. -/
def execStatusChecksumError (s : State) : Result := .next (sendStatus s.cfg.stChecksumError s)

/-- STATUS.INVALID_COMMAND, R155. -/
def execStatusInvalidCommand (s : State) : Result := .next (sendStatus s.cfg.stInvalidCommand s)

/-- STATUS.PROGRAMMING_PROTECTED, R155. -/
def execStatusProgrammingProtected (s : State) : Result :=
  .next (sendStatus s.cfg.stProgrammingProtected s)

/-- DATA, R150, R101: `send_response(n)` with the payload at the front of `buf`. -/
def execData (payload : List Byte) (s : State) : Result :=
  .next (sendResponse (lenByte payload) (loadPayload payload s))

end Sys2Proof.Machine
end

