-- ==== Sys2Proof/WellFormed.lean ====
section
/-!
DEFINITION. Which instructions have an encoding: the ranges of the operands (30_encoding.md R95, R99, R109), the
conditions of the opcode table's rows (WRITE.RAM, WRITE.NVM, INVALID, CHECKSUM_ERROR).
-/

namespace Sys2Proof

/-- A payload's length fits the length field: 0 to `MAX_PAYLOAD` (R95). -/
def lengthFits (p : Params) (payload : List Byte) : Bool := decide (payload.length ≤ p.maxPayload)

/-- Each row's condition on its operands. -/
def wellFormed (p : Params) : Instr → Bool
  | .read _ n => decide (n.toNat ≤ p.maxPayload)
  | .writeRam a payload => lengthFits p payload && classify p a == .ram
  | .writeNvm a payload => lengthFits p payload && classify p a != .ram
  | .go _ payload => lengthFits p payload
  | .execPayload _ payload => lengthFits p payload
  | .invalid cmd _ payload => lengthFits p payload && !assigned p cmd
  | .checksumError cmd a n payload cks =>
      decide (n.toNat ≤ p.maxPayload) && payload.length == wireN p cmd n &&
        cks != frameChecksum p cmd a n payload
  | .statusSuccess => true
  | .statusChecksumError => true
  | .statusInvalidCommand => true
  | .statusProgrammingProtected => true
  | .data payload => lengthFits p payload
  | .sync0 => true
  | .sync1 => true
  | .ack => true
  | .imgLen n => n != 0

end Sys2Proof
end

