-- ==== Sys2Proof/Decode.lean ====
section
/-!
DEFINITION. The decoder: from the bytes of a frame or token to an instruction, total on any bytes, rejecting by
name (30_encoding.md R90 to R111). Then the encoder, from the same tables. `frameInstr` is the execute
stage's sorting of a completed frame (42_command_dispatch.md R166); the byte-serial decoder of
40_frame_decoder.md ends in it too.
-/

namespace Sys2Proof

/-- Why a byte sequence is no instruction at its place. -/
inductive DecodeError where
  /-- The sequence ends inside the frame: a decoder waits for more (R131). -/
  | incomplete
  /-- The first byte is not `CMD_HEADER`: discarded in HUNT (R106, R122). -/
  | notCommandHeader
  /-- The length byte exceeds `MAX_PAYLOAD` (R105). -/
  | oversizedLength
  /-- The first byte is not `RESP_HEADER` (R99). -/
  | notResponseHeader
  /-- A response whose checksum is wrong (R99, R159). -/
  | wrongResponseChecksum
  /-- A status response's length is not 1 (R100). -/
  | notStatusLength
  /-- A status byte that is none of the four (R102). -/
  | unknownStatus
  /-- The byte is not the token of this place (R108; for ACK the block discards it, R250). -/
  | notTheToken
  /-- Image length 0 is reserved (R109, R252). -/
  | reservedImageLength
  deriving DecidableEq, Repr

/-- The execute stage's order of tests (R166): the checksum first, the opcode second; WRITE's two rows by the
class of its address (R170). `cks` is the received checksum byte, `ok` the validator's verdict. -/
def frameInstr (p : Params) (f : CommandFrame) (cks : Byte) (ok : Bool) : Instr :=
  if ok = false then .checksumError f.cmd f.addr f.len f.payload cks
  else if f.cmd = p.opcRead then .read f.addr f.len
  else if f.cmd = p.opcWrite then
    if classify p f.addr = .ram then .writeRam f.addr f.payload else .writeNvm f.addr f.payload
  else if f.cmd = p.opcGo then .go f.addr f.payload
  else if f.cmd = p.opcExec then .execPayload f.addr f.payload
  else .invalid f.cmd f.addr f.payload

/-- The part of a command frame after its length byte: `k` payload bytes, then the checksum (R91, R96). -/
def decodeTail (p : Params) (cmd : Byte) (a : Addr) (n : Byte) (rest : List Byte) :
    Except DecodeError (Instr × List Byte) :=
  let k := wireN p cmd n
  match rest.drop k with
  | [] => .error .incomplete
  | c :: rest' =>
    let payload := rest.take k
    .ok (frameInstr p ⟨cmd, a, n, payload⟩ c (c == frameChecksum p cmd a n payload), rest')

/-- A command frame (R91 to R98). -/
def decodeCommand (p : Params) : List Byte → Except DecodeError (Instr × List Byte)
  | h :: c :: ah :: al :: n :: rest =>
    if h ≠ p.cmdHeader then .error .notCommandHeader
    else if p.maxPayload < n.toNat then .error .oversizedLength
    else decodeTail p c (addrOf ah al) n rest
  | h :: _ => if h ≠ p.cmdHeader then .error .notCommandHeader else .error .incomplete
  | [] => .error .incomplete

/-- A response frame (R99): its payload and what follows it.
DESIGN CHOICE (log 21): with `MAX_PAYLOAD = 0`, legal by R8, the bound of R150 admits length 0 alone, yet a status
response has length 1 (R100). The model reads a length of 1 whatever `MAX_PAYLOAD` is, in a response of either kind,
since the frame alone does not show its kind (R101); any other length above `MAX_PAYLOAD` is oversized. -/
def decodeResponse (p : Params) : List Byte → Except DecodeError (List Byte × List Byte)
  | h :: n :: rest =>
    if h ≠ p.respHeader then .error .notResponseHeader
    else if p.maxPayload < n.toNat ∧ n ≠ 1 then .error .oversizedLength
    else
      match rest.drop n.toNat with
      | [] => .error .incomplete
      | c :: rest' =>
        let payload := rest.take n.toNat
        if c = xorBytes (h :: n :: payload) then .ok (payload, rest') else .error .wrongResponseChecksum
  | [h] => if h ≠ p.respHeader then .error .notResponseHeader else .error .incomplete
  | [] => .error .incomplete

/-- The status response that carries a status byte (R100, R102). -/
def statusInstr (p : Params) (st : Byte) : Except DecodeError Instr :=
  if st = p.stSuccess then .ok .statusSuccess
  else if st = p.stChecksumError then .ok .statusChecksumError
  else if st = p.stInvalidCommand then .ok .statusInvalidCommand
  else if st = p.stProgrammingProtected then .ok .statusProgrammingProtected
  else .error .unknownStatus

/-- A response read as a status response (R100). -/
def decodeStatus (p : Params) (bytes : List Byte) : Except DecodeError (Instr × List Byte) :=
  match decodeResponse p bytes with
  | .error e => .error e
  | .ok ([st], rest) =>
    match statusInstr p st with
    | .ok i => .ok (i, rest)
    | .error e => .error e
  | .ok (_, _) => .error .notStatusLength

/-- A response read as the answer to a READ (R101).
DESIGN CHOICE (log 21): with `MAX_PAYLOAD = 0` a length of 1 is read here too, though no READ asks for it. -/
def decodeData (p : Params) (bytes : List Byte) : Except DecodeError (Instr × List Byte) :=
  match decodeResponse p bytes with
  | .error e => .error e
  | .ok (payload, rest) => .ok (.data payload, rest)

/-- A one-byte token whose value is fixed by a parameter (R108). -/
def decodeToken (value : Byte) (i : Instr) : List Byte → Except DecodeError (Instr × List Byte)
  | [] => .error .incomplete
  | b :: rest => if b = value then .ok (i, rest) else .error .notTheToken

/-- The image length byte (R109). -/
def decodeImgLen : List Byte → Except DecodeError (Instr × List Byte)
  | [] => .error .incomplete
  | n :: rest => if n = 0 then .error .reservedImageLength else .ok (.imgLen n, rest)

/-- The decoder: an instruction and the bytes after it, or the reason there is none. -/
def decode (p : Params) (at_ : Stream) (bytes : List Byte) : Except DecodeError (Instr × List Byte) :=
  match at_ with
  | .command => decodeCommand p bytes
  | .statusReply => decodeStatus p bytes
  | .dataReply => decodeData p bytes
  | .sync0 => decodeToken p.sync0 .sync0 bytes
  | .sync1 => decodeToken p.sync1 .sync1 bytes
  | .ack => decodeToken p.ack .ack bytes
  | .imgLen => decodeImgLen bytes

/-! ## The encoder -/

/-- The stream an instruction is written in (R90). -/
def streamOf : Instr → Stream
  | .read _ _ => .command
  | .writeRam _ _ => .command
  | .writeNvm _ _ => .command
  | .go _ _ => .command
  | .execPayload _ _ => .command
  | .invalid _ _ _ => .command
  | .checksumError _ _ _ _ _ => .command
  | .statusSuccess => .statusReply
  | .statusChecksumError => .statusReply
  | .statusInvalidCommand => .statusReply
  | .statusProgrammingProtected => .statusReply
  | .data _ => .dataReply
  | .sync0 => .sync0
  | .sync1 => .sync1
  | .ack => .ack
  | .imgLen _ => .imgLen

/-- A command frame with a right checksum (R91, R97). -/
def encodeFrame (p : Params) (cmd : Byte) (a : Addr) (n : Byte) (payload : List Byte) : List Byte :=
  framePrefix p cmd a n ++ payload ++ [frameChecksum p cmd a n payload]

/-- A response frame (R99). -/
def encodeResponse (p : Params) (payload : List Byte) : List Byte :=
  let body := p.respHeader :: lenByte payload :: payload
  body ++ [xorBytes body]

/-- The bytes of an instruction, first byte first (R90 to R101, R108). -/
def encode (p : Params) : Instr → List Byte
  | .read a n => encodeFrame p p.opcRead a n []
  | .writeRam a payload => encodeFrame p p.opcWrite a (lenByte payload) payload
  | .writeNvm a payload => encodeFrame p p.opcWrite a (lenByte payload) payload
  | .go a payload => encodeFrame p p.opcGo a (lenByte payload) payload
  | .execPayload a payload => encodeFrame p p.opcExec a (lenByte payload) payload
  | .invalid cmd a payload => encodeFrame p cmd a (lenByte payload) payload
  | .checksumError cmd a n payload cks => framePrefix p cmd a n ++ payload ++ [cks]
  | .statusSuccess => encodeResponse p [p.stSuccess]
  | .statusChecksumError => encodeResponse p [p.stChecksumError]
  | .statusInvalidCommand => encodeResponse p [p.stInvalidCommand]
  | .statusProgrammingProtected => encodeResponse p [p.stProgrammingProtected]
  | .data payload => encodeResponse p payload
  | .sync0 => [p.sync0]
  | .sync1 => [p.sync1]
  | .ack => [p.ack]
  | .imgLen n => [n]

/-! ## The opcode table's words -/

/-- The low `k` bytes of a number, most significant first: the table puts byte 0 of a frame in the most
significant 8 bits (30_encoding.md, before R90). -/
def bytesOfWord (w : Nat) : Nat → List Byte
  | 0 => []
  | k + 1 => BitVec.ofNat 8 (w / 256 ^ k) :: bytesOfWord w k

/-- A table row's word is the fixed-width prefix of a command frame; the row's tail column adds `wire_n` payload
bytes (zeros, the operands the word has no bits for) and the checksum (log 13). -/
def completeCommand (p : Params) : List Byte → List Byte
  | h :: c :: ah :: al :: n :: rest =>
    let k := wireN p c n
    let payload := (rest ++ List.replicate k 0).take k
    if rest.length ≤ k then
      h :: c :: ah :: al :: n :: payload ++ [xorBytes (h :: c :: ah :: al :: n :: payload)]
    else h :: c :: ah :: al :: n :: rest
  | short => short

/-- The same for a response frame's word (rows STATUS and DATA). -/
def completeResponse : List Byte → List Byte
  | h :: n :: rest =>
    let payload := (rest ++ List.replicate n.toNat 0).take n.toNat
    if rest.length ≤ n.toNat then h :: n :: payload ++ [xorBytes (h :: n :: payload)] else h :: n :: rest
  | short => short

/-- The first of the readings that succeeds. -/
def firstOk : List (Except DecodeError (Instr × List Byte)) → Option Instr
  | [] => none
  | .ok (i, _) :: _ => some i
  | .error _ :: rest => firstOk rest

/-- A table word read under a parameter record: one byte is a handshake token, taken by its value; a word that
begins with `CMD_HEADER` is a command frame; otherwise a whole status frame, or the prefix of a data frame. -/
def tableInstr (p : Params) (nbits w : Nat) : Option Instr :=
  let bytes := bytesOfWord w (nbits / 8)
  if nbits = 8 then
    firstOk [decode p .sync0 bytes, decode p .sync1 bytes, decode p .ack bytes, decode p .imgLen bytes]
  else if bytes.head? = some p.cmdHeader then firstOk [decode p .command (completeCommand p bytes)]
  else if nbits = 32 then
    firstOk [decode p .statusReply bytes, decode p .dataReply (completeResponse bytes)]
  else firstOk [decode p .dataReply (completeResponse bytes)]

/-- What the decoder reads from a word of the opcode table, at the record of `State.reset` (log 13). -/
def decodeTableWord (nbits w : Nat) : Option Instr := tableInstr Params.illustration nbits w

end Sys2Proof
end

