-- ==== Sys2Proof/Machine/Handshake.lean ====
section
/-!
DEFINITION. The handshake unit `HS` (44_handshake_timer.md): the meanings of SYNC0, SYNC1, ACK and IMG_LEN, and the
state rules that are no instruction (cold start, tick, image byte, entry). Reset (70_reset_and_hazards.md R320).
-/

namespace Sys2Proof.Machine

/-- RELOCATE_SELF, R243: writes nothing and emits nothing. -/
def relocateSelf (s : State) : State := { s with hsState := .relocateSelf }

/-- COLD_START, R241, after the registers have their reset values: on to SEND_SYNC0. -/
def coldStart (s : State) : State :=
  let s := { s with owner := .hs, hsState := .coldStart }
  let s := serialConfig s.cfg.baudSeed (relocateSelf s)
  { s with hsState := .sendSync0 }

/-- Every register of the block at its reset value (R320, R53); the surroundings are not touched (R322, R323: no
lock action). -/
def resetRegisters (s : State) : State :=
  { State.resetWith s.cfg with
    nvm := s.nvm
    serialRate := s.serialRate
    mem := s.mem
    inputs := s.inputs
    trace := s.trace
    freeCount := s.freeCount }

/-- `Reset`, R241, R320: taken in every state. The surroundings are what the event says (U24, U26, log 8). -/
def resetEvent (w : World) (s : State) : State :=
  coldStart (applyWorld w (resetRegisters s))

/-- SYNC0, R245. -/
def execSync0 (s : State) : Result :=
  .next { emit (.txByte s.cfg.sync0) s with hsState := .sendSync1 }

/-- SYNC1, R246: the bounded interval starts here. -/
def execSync1 (s : State) : Result :=
  .next { emit (.txByte s.cfg.sync1) s with hsTimer := s.cfg.tHs, hsState := .waitAck }

/-- `Tick` in WAIT_ACK, R247. -/
def tick (s : State) : State :=
  let s := { s with hsTimer := s.hsTimer - 1 }
  if timerExpired s.hsTimer then raise .handshakeTimeout s else s

/-- ACK, R249: the timer is left as it is. -/
def execAck (s : State) : Result := .next { s with hsState := .imgLen }

/-- IMG_LEN, R251; 0 is refused (R252). -/
def execImgLen (n : Byte) (s : State) : Result :=
  if n = 0 then .refused .imageLengthZero
  else
    .next
      { s with
        imgLen := n
        imgRem := n.toNat
        loadAddr := loadAddrOf s.cfg n
        imgPtr := loadAddrOf s.cfg n
        hsState := .imgData }

/-- `enable_command_unit`, R255. -/
def enableCommandUnit (s : State) : State :=
  backToHunt (serialConfig s.cfg.baudFull { s with owner := .cu })

/-- `enter_image`, R254. -/
def enterImage (s : State) : State :=
  let s := { s with hsState := .enteredImage }
  enableCommandUnit (emit (.relinquish .image (imageTarget s.cfg s.loadAddr s.imgLen)) s)

/-- An image byte in IMG_DATA, R253. -/
def imgByte (b : Byte) (s : State) : State :=
  let s := memWrite s.imgPtr b s
  let s := { s with imgPtr := addrPlus s.imgPtr 1, imgRem := s.imgRem - 1 }
  if s.imgRem = 0 then enterImage s else s

end Sys2Proof.Machine
end

