-- ==== Sys2Proof/Machine/Dispatch.lean ====
section
/-! DEFINITION. The dispatch: one arm per instruction, one direct call of its meaning. -/

namespace Sys2Proof.Machine

def exec (i : Instr) (s : State) : Host.Outcome State Fault Refusal :=
  match i with
  | .read a n => Sys2Proof.Machine.execRead a n s
  | .writeRam a payload => Sys2Proof.Machine.execWriteRam a payload s
  | .writeNvm a payload => Sys2Proof.Machine.execWriteNvm a payload s
  | .go a _ => Sys2Proof.Machine.execGo a s
  | .execPayload _ payload => Sys2Proof.Machine.execExecPayload payload s
  | .invalid _ _ _ => Sys2Proof.Machine.execInvalid s
  | .checksumError _ _ _ _ _ => Sys2Proof.Machine.execChecksumError s
  | .statusSuccess => Sys2Proof.Machine.execStatusSuccess s
  | .statusChecksumError => Sys2Proof.Machine.execStatusChecksumError s
  | .statusInvalidCommand => Sys2Proof.Machine.execStatusInvalidCommand s
  | .statusProgrammingProtected => Sys2Proof.Machine.execStatusProgrammingProtected s
  | .data payload => Sys2Proof.Machine.execData payload s
  | .sync0 => Sys2Proof.Machine.execSync0 s
  | .sync1 => Sys2Proof.Machine.execSync1 s
  | .ack => Sys2Proof.Machine.execAck s
  | .imgLen n => Sys2Proof.Machine.execImgLen n s

end Sys2Proof.Machine
end

