-- ==== Sys2Proof/Machine/FrameDecoder.lean ====
section
/-!
DEFINITION. The receive decoder and checksum validator `RXD`: one state rule of 40_frame_decoder.md each.
-/

namespace Sys2Proof.Machine

/-- What `decode_next_byte` returns (R129); `complete` carries the frame and the verdict. -/
inductive DecodeOutcome where
  | incomplete
  | complete (f : CommandFrame) (ok : Bool)
  | resynchronizing
  deriving DecidableEq, Repr

/-- HUNT, R122. -/
def rxHunt (b : Byte) (s : State) : State × DecodeOutcome :=
  if b = s.cfg.cmdHeader then ({ s with cks := b, rxState := .cmd }, .incomplete)
  else (s, .resynchronizing)

/-- CMD, R123. -/
def rxCmd (b : Byte) (s : State) : State × DecodeOutcome :=
  ({ s with cmd := b, cks := s.cks ^^^ b, rxState := .addrHi }, .incomplete)

/-- ADDR_HI, R124. -/
def rxAddrHi (b : Byte) (s : State) : State × DecodeOutcome :=
  ({ s with addr := addrOf b (addrLo s.addr), cks := s.cks ^^^ b, rxState := .addrLo }, .incomplete)

/-- ADDR_LO, R125. -/
def rxAddrLo (b : Byte) (s : State) : State × DecodeOutcome :=
  ({ s with addr := addrOf (addrHi s.addr) b, cks := s.cks ^^^ b, rxState := .len }, .incomplete)

/-- LEN, R126. -/
def rxLen (b : Byte) (s : State) : State × DecodeOutcome :=
  if s.cfg.maxPayload < b.toNat then (raise .oversizeLength s, .resynchronizing)
  else
    ({ s with
        len := b
        cks := s.cks ^^^ b
        idx := 0
        rxState := if wireN s.cfg s.cmd b = 0 then .cksum else .payload },
      .incomplete)

/-- PAYLOAD, R127. -/
def rxPayload (b : Byte) (s : State) : State × DecodeOutcome :=
  let s := setBuf s.idx b s
  ({ s with
      cks := s.cks ^^^ b
      idx := s.idx + 1
      rxState := if s.idx + 1 = s.len.toNat then .cksum else .payload },
    .incomplete)

/-- The frame the registers hold (R129). -/
def heldFrame (s : State) : CommandFrame :=
  ⟨s.cmd, s.addr, s.len, s.buf.take (wireN s.cfg s.cmd s.len)⟩

/-- CKSUM, the validator, R128. -/
def rxCksum (b : Byte) (s : State) : State × DecodeOutcome :=
  let ok := checksumVerdict b s.cks
  ({ s with cksOk := ok, cuPhase := .execute }, .complete (heldFrame s) ok)

/-- `decode_next_byte` (R120): one byte a step, total (R135). -/
def decodeNextByte (b : Byte) (s : State) : State × DecodeOutcome :=
  match s.rxState with
  | .hunt => rxHunt b s
  | .cmd => rxCmd b s
  | .addrHi => rxAddrHi b s
  | .addrLo => rxAddrLo b s
  | .len => rxLen b s
  | .payload => rxPayload b s
  | .cksum => rxCksum b s

end Sys2Proof.Machine
end

