-- ==== Sys2Proof/Machine/ResponseEncoder.lean ====
section
/-!
DEFINITION. The response encoder `TXE`: one state rule of 41_response_encoder.md each.
-/

namespace Sys2Proof.Machine

/-- TX_HDR, R151. -/
def txHdr (s : State) : State :=
  emit (.txByte s.cfg.respHeader) { s with txCks := s.cfg.respHeader, txState := .len }

/-- TX_LEN, R152. -/
def txLenByte (s : State) : State :=
  emit (.txByte s.txLen)
    { s with txCks := s.txCks ^^^ s.txLen, txState := if s.txLen = 0 then .cks else .payload }

/-- TX_PAYLOAD, R153. -/
def txPayloadByte (s : State) : State :=
  let b := s.buf.getD s.txIdx 0
  emit (.txByte b)
    { s with
      txCks := s.txCks ^^^ b
      txIdx := s.txIdx + 1
      txState := if s.txIdx + 1 = s.txLen.toNat then .cks else .payload }

/-- TX_CKS, R154: the checksum as it is, then the way back (R157). -/
def txCksByte (s : State) : State := backToHunt (emit (.txByte s.txCks) s)

/-- One `TxReady` while a response is sent (R150). -/
def encodeNextByte (s : State) : State :=
  match s.txState with
  | .hdr => txHdr s
  | .len => txLenByte s
  | .payload => txPayloadByte s
  | .cks => txCksByte s

end Sys2Proof.Machine
end

