-- ==== Sys2Proof/Machine/Events.lean ====
section
/-!
DEFINITION. What one event does at each wait point (00_scope.md R7, R14), what the block does with none, and how a
word of the opcode table is placed before the machine.
-/

namespace Sys2Proof.Machine

/-- A serial byte while the command unit receives (R120): the decoder takes it; a completed frame is executed in
the same step (R128, R165). -/
def receiveByte (b : Byte) (s : State) : Result :=
  match decodeNextByte b s with
  | (s', .complete f ok) => exec (frameInstr s.cfg f b ok) s'
  | (s', .incomplete) => .next s'
  | (s', .resynchronizing) => .next s'

/-- An instruction read from the one byte the handshake unit took; `other` is what happens when it is none. -/
def takeToken (at_ : Stream) (b : Byte) (other : Result) (s : State) : Result :=
  match decode s.cfg at_ [b] with
  | .ok (i, _) => exec i s
  | .error _ => other

/-- A serial byte taken by the handshake unit: ACK or a discarded byte in WAIT_ACK (R249, R250), the length in
IMG_LEN (R251, R252), an image byte in IMG_DATA (R253). -/
def hsByte (b : Byte) (s : State) : Result :=
  match s.hsState with
  | .waitAck => takeToken .ack b (.next s) s
  | .imgLen => takeToken .imgLen b (.refused .imageLengthZero) s
  | .imgData => .next (imgByte b s)
  | .coldStart | .relocateSelf | .sendSync0 | .sendSync1 | .enteredImage | .fellThrough =>
    .refused .unheardByte

/-- `TxReady` taken by the handshake unit (R245, R246). -/
def hsTxReady (s : State) : Result :=
  match s.hsState with
  | .sendSync0 => exec .sync0 s
  | .sendSync1 => exec .sync1 s
  | .coldStart | .relocateSelf | .waitAck | .imgLen | .imgData | .enteredImage | .fellThrough =>
    .refused .notAwaited

/-- `ExecReturn`, R174: execution comes back, the surroundings as the event says (U10, log 8), and the answer is
the SUCCESS status. -/
def execReturn (w : World) (s : State) : Result :=
  exec .statusSuccess (applyWorld w { s with owner := .cu })

/-- The wait points' table (R14). An event that is not awaited is refused (log 10). -/
def takeEvent (e : Event) (s : State) : Result :=
  match e with
  | .reset w => .next (resetEvent w s)
  | .rxByte b =>
    match waitPoint s with
    | some .wAck => hsByte b s
    | some .wRx => if s.owner = .hs then hsByte b s else receiveByte b s
    | _ => .refused .unheardByte
  | .txReady =>
    if waitPoint s = some .wTx then
      if s.owner = .hs then hsTxReady s else .next (encodeNextByte s)
    else .refused .notAwaited
  | .nvmStatus ans => if waitPoint s = some .wNvm then .next (pollAnswer ans s) else .refused .notAwaited
  | .tick => if waitPoint s = some .wAck then .next (tick s) else .refused .notAwaited
  | .execReturn w => if waitPoint s = some .wExec then execReturn w s else .refused .notAwaited
  | .memData _ => .refused .notAwaited

/-- Internal work is due: the rest of R241, before any event is awaited. -/
def atColdStart (s : State) : Bool :=
  s.owner == .hs && (s.hsState == .coldStart || s.hsState == .relocateSelf)

/-- One step under a legal record: a pending `Reset` first (R320); else internal work that is due; else the next
event; else the wait goes on and nothing changes ("Every wait is a busy poll", R304; R341; log 11). -/
def advance (s : State) : Result :=
  match s.inputs with
  | .reset w :: rest => takeEvent (.reset w) { s with inputs := rest }
  | inputs =>
    if atColdStart s then .next (coldStart s)
    else
      match inputs with
      | [] => .next s
      | e :: rest => takeEvent e { s with inputs := rest }

/-! ## Placing an instruction -/

/-- The surroundings left as they are. -/
def World.unchanged (s : State) : World :=
  ⟨[], s.nvm.config, s.nvm.main, s.nvm.progMode, s.serialRate⟩

/-- All of a command frame but its last byte acquired, the last byte next on the link (R128). -/
def withFrame (cmd : Byte) (a : Addr) (n : Byte) (payload : List Byte) (cks : Byte) (s : State) : State :=
  loadPayload payload
    { s with
      owner := .cu
      cuPhase := .receive
      rxState := .cksum
      cmd := cmd
      addr := a
      len := n
      idx := payload.length
      cks := frameChecksum s.cfg cmd a n payload
      inputs := .rxByte cks :: s.inputs }

/-- The same with the right last byte. -/
def withGoodFrame (cmd : Byte) (a : Addr) (n : Byte) (payload : List Byte) (s : State) : State :=
  withFrame cmd a n payload (frameChecksum s.cfg cmd a n payload) s

/-- A command byte that is none of the four opcodes. -/
def someUnassigned (p : Params) : Byte :=
  (([0, 1, 2, 3, 4] : List Byte).find? (fun c => !assigned p c)).getD 0

/-- The state whose next step runs `i`: a command frame complete but for its checksum byte; a handshake token at
its place; a response frame at the event that makes the execute stage start it (log 13). -/
def ready (i : Instr) (s : State) : State :=
  match i with
  | .read a n => withGoodFrame s.cfg.opcRead a n [] s
  | .writeRam a payload => withGoodFrame s.cfg.opcWrite a (lenByte payload) payload s
  | .writeNvm a payload => withGoodFrame s.cfg.opcWrite a (lenByte payload) payload s
  | .go a payload => withGoodFrame s.cfg.opcGo a (lenByte payload) payload s
  | .execPayload a payload => withGoodFrame s.cfg.opcExec a (lenByte payload) payload s
  | .invalid cmd a payload => withGoodFrame cmd a (lenByte payload) payload s
  | .checksumError cmd a n payload cks => withFrame cmd a n payload cks s
  | .statusSuccess =>
    { s with
      owner := .ext
      cuPhase := .execWait
      inputs := .execReturn (World.unchanged s) :: s.inputs }
  | .statusChecksumError =>
    withFrame s.cfg.opcRead 0 0 [] (frameChecksum s.cfg s.cfg.opcRead 0 0 [] ^^^ 1) s
  | .statusInvalidCommand => withGoodFrame (someUnassigned s.cfg) 0 0 [] s
  | .statusProgrammingProtected =>
    { s with
      owner := .cu
      cuPhase := .execute
      weState := .poll
      cmd := s.cfg.opcWrite
      region := .mainNonvolatile
      sessionOpen := true
      inputs := .nvmStatus ⟨true, false, []⟩ :: s.inputs }
  | .data payload =>
    withGoodFrame s.cfg.opcRead (s.cfg.bufBase + BitVec.ofNat 16 s.cfg.bufSize) (lenByte payload) []
      { s with inputs := payload.map .memData ++ s.inputs }
  | .sync0 => { s with owner := .hs, hsState := .sendSync0, inputs := .txReady :: s.inputs }
  | .sync1 => { s with owner := .hs, hsState := .sendSync1, inputs := .txReady :: s.inputs }
  | .ack =>
    { s with owner := .hs, hsState := .waitAck, hsTimer := s.cfg.tHs, inputs := .rxByte s.cfg.ack :: s.inputs }
  | .imgLen n => { s with owner := .hs, hsState := .imgLen, inputs := .rxByte n :: s.inputs }

/-- A word of the opcode table placed so that the next step runs its instruction; a word that is none is put on
the link byte by byte for the hunting decoder to discard (log 13). -/
def placeWord (nbits w : Nat) (s : State) : State :=
  match tableInstr s.cfg nbits w with
  | some i => ready i s
  | none =>
    { s with
      owner := .cu
      cuPhase := .receive
      rxState := .hunt
      inputs := (bytesOfWord w (nbits / 8)).map .rxByte ++ s.inputs }

end Sys2Proof.Machine
end

