-- ==== Sys2Proof/Machine/Step.lean ====
section
/-! DEFINITION. One step of the machine, and the placing of a table word before it. -/

namespace Sys2Proof.Machine

/-- One step: a record that breaks R9 is refused (U30); else `advance`. -/
def step (s : State) : Host.Outcome State Fault Refusal :=
  if s.cfg.Legal then advance s else .refused .illegalParameters

/-- `s` with a word of the opcode table placed so that the next step runs it (log 13). -/
def State.withFetchWord (s : State) (nbits w : Nat) : State := placeWord nbits w s

end Sys2Proof.Machine
end

