-- ==== Sys2Proof/Safety.lean ====
section
/-!
DEFINITION. What the claims speak of: the invariant of the block (10_state.md R21 to R40, 40_frame_decoder.md R130,
41_response_encoder.md R159), the lock state outside a session (60_exceptions.md R296), and the lists of
actions the rules prescribe.
-/

namespace Sys2Proof.Machine

/-! ## The invariant -/

/-- Who owns execution fits the two state machines (R21, R25, R295). -/
def OwnershipFits (s : State) : Prop :=
  match s.owner with
  | .hs => s.cuPhase = .disabled ∧ s.hsState ≠ .enteredImage ∧ s.hsState ≠ .fellThrough
  | .cu => s.hsState = .enteredImage ∧ (s.cuPhase = .receive ∨ s.cuPhase = .execute ∨ s.cuPhase = .respond)
  | .ext =>
    (s.hsState = .fellThrough ∧ s.cuPhase = .disabled) ∨
      (s.hsState = .enteredImage ∧ (s.cuPhase = .execWait ∨ s.cuPhase = .released))

/-- A programming session is open exactly while a non-volatile WRITE waits for a poll, and its registers hold the
session (R36, R37, R203 to R206). -/
def SessionFits (s : State) : Prop :=
  (s.sessionOpen = true ↔ s.cuPhase = .execute) ∧
  (s.cuPhase ≠ .execute → s.weState = .idle) ∧
  (s.cuPhase = .execute →
    s.weState = .poll ∧ s.cmd = s.cfg.opcWrite ∧ s.region = classify s.cfg s.addr ∧ s.region ≠ .ram ∧
    takesStore s s.region = true ∧ s.status = s.cfg.stSuccess ∧
    1 ≤ s.rem ∧ s.src + s.rem = s.len.toNat ∧ s.len.toNat ≤ s.cfg.maxPayload ∧ s.dst = addrPlus s.addr s.src)

/-- The frame bytes taken so far, read back from the registers, for each decoder state but HUNT (R130). -/
def frameSoFar (s : State) : List Byte :=
  match s.rxState with
  | .hunt => []
  | .cmd => [s.cfg.cmdHeader]
  | .addrHi => [s.cfg.cmdHeader, s.cmd]
  | .addrLo => [s.cfg.cmdHeader, s.cmd, addrHi s.addr]
  | .len => [s.cfg.cmdHeader, s.cmd, addrHi s.addr, addrLo s.addr]
  | .payload => framePrefix s.cfg s.cmd s.addr s.len ++ s.buf.take s.idx
  | .cksum => framePrefix s.cfg s.cmd s.addr s.len ++ s.buf.take s.idx

/-- The decoder's place in the frame (R130, R127, R30). -/
def DecoderFits (s : State) : Prop :=
  s.cuPhase = .receive →
    (s.rxState ≠ .hunt → s.cks = xorBytes (frameSoFar s)) ∧
    (s.rxState = .payload →
      s.idx < s.len.toNat ∧ s.len.toNat ≤ s.cfg.maxPayload ∧ wireN s.cfg s.cmd s.len = s.len.toNat) ∧
    (s.rxState = .cksum → s.idx = wireN s.cfg s.cmd s.len ∧ s.len.toNat ≤ s.cfg.maxPayload)

/-- The response bytes sent so far, for each encoder state (R151 to R154). -/
def responseSoFar (s : State) : List Byte :=
  match s.txState with
  | .hdr => []
  | .len => [s.cfg.respHeader]
  | .payload => s.cfg.respHeader :: s.txLen :: s.buf.take s.txIdx
  | .cks => s.cfg.respHeader :: s.txLen :: s.buf.take s.txIdx

/-- The encoder's place in the response (R150 to R154). -/
def EncoderFits (s : State) : Prop :=
  s.cuPhase = .respond →
    s.txLen.toNat ≤ s.cfg.bufSize ∧
    (s.txState ≠ .hdr → s.txCks = xorBytes (responseSoFar s)) ∧
    ((s.txState = .hdr ∨ s.txState = .len) → s.txIdx = 0) ∧
    (s.txState = .payload → s.txIdx < s.txLen.toNat) ∧
    (s.txState = .cks → s.txIdx = s.txLen.toNat)

/-- The handshake's registers (R23, R247, R251, R253, R259). -/
def HandshakeFits (s : State) : Prop :=
  s.hsTimer ≤ s.cfg.tHs ∧
  (s.hsState = .waitAck → 1 ≤ s.hsTimer) ∧
  (s.hsState = .imgData →
    1 ≤ s.imgRem ∧ s.imgRem ≤ s.imgLen.toNat ∧ s.loadAddr.toNat + s.imgLen.toNat = s.cfg.ramTop.toNat ∧
    s.imgPtr.toNat + s.imgRem = s.cfg.ramTop.toNat)

/-- The counts fit their registers (R23, R24, R30, R36, R39; log 14). -/
def CountsFit (s : State) : Prop :=
  s.idx ≤ s.cfg.maxPayload ∧ s.src ≤ s.cfg.maxPayload ∧ s.rem ≤ s.cfg.maxPayload ∧
  s.txIdx ≤ s.cfg.bufSize ∧ s.imgRem ≤ 255

/-- The invariant of the block. -/
structure Inv (s : State) : Prop where
  legal : s.cfg.Legal
  memory : Memory.wf s.mem = true
  bufLength : s.buf.length = s.cfg.bufSize
  ownership : OwnershipFits s
  session : SessionFits s
  decoder : DecoderFits s
  encoder : EncoderFits s
  handshake : HandshakeFits s
  counts : CountsFit s

/-- Non-volatile memory is unlocked only inside a session, and then only its own region, and the programming mode is
on only where that region needs it (R215, R296); outside a session no program cycle is in progress (R74). -/
def LockedOutsideSession (s : State) : Prop :=
  (s.sessionOpen = false →
    s.nvm.config.enabled = false ∧ s.nvm.main.enabled = false ∧ s.nvm.progMode = false ∧ s.nvm.cycle = none) ∧
  (s.sessionOpen = true →
    (s.region ≠ .configNonvolatile → s.nvm.config.enabled = false) ∧
    (s.region ≠ .mainNonvolatile → s.nvm.main.enabled = false) ∧
    (needsArm s.cfg s.region = false → s.nvm.progMode = false))

/-! ## Premises of claims about memory -/

/-- The surroundings have no `MemData` answer pending: the memory that closes the loop answers (R79). -/
def noAnswerPending : List Event → Bool
  | .memData _ :: _ => false
  | _ => true

/-- No byte of the transfer lies in `buf`'s range (R80: "does not overlap `buf`"). -/
def ClearOfBuf (p : Params) (a : Addr) (n : Nat) : Prop := ∀ k, k < n → inBuf p (addrPlus a k) = false

/-- Every byte of the transfer lies in region `r`. -/
def AllIn (p : Params) (r : Region) (a : Addr) (n : Nat) : Prop := ∀ k, k < n → classify p (addrPlus a k) = r

/-- The address is none of the `n` from `a` on. -/
def OutsideOf (a : Addr) (n : Nat) (x : Addr) : Prop := ∀ k, k < n → x ≠ addrPlus a k

/-- How many of the first `k` bytes of a transfer lie outside `buf`'s range: the reads the surroundings answer (R69,
R15). -/
def outsideBefore (p : Params) (a : Addr) : Nat → Nat
  | 0 => 0
  | k + 1 => outsideBefore p a k + if inBuf p (addrPlus a k) = true then 0 else 1

/-- The byte a list of stores leaves at an address: that of the last store to it, if there is one. -/
def lastStore : List (Addr × Byte) → Addr → Option Byte
  | [], _ => none
  | (a, v) :: rest, x =>
    match lastStore rest x with
    | some u => some u
    | none => if x = a then some v else none

/-- What an address holds once the program cycle in progress, if there is one, has been cut off: the byte being
programmed is a free value (R207, log 7), every other byte is as before. -/
def heldAfterCycle (s : State) (x : Addr) : Byte :=
  match s.nvm.cycle with
  | none => peek s x
  | some (a, _) => if x = a ∧ inBuf s.cfg x = false then Config.spoiledByte s.freeCount else peek s x

/-! ## Dead registers -/

/-- The decoder holds a command byte (it is past CMD). -/
def pastCmd : RxState → Bool
  | .hunt | .cmd => false
  | .addrHi | .addrLo | .len | .payload | .cksum => true

/-- The part of `addr` the decoder has taken so far. -/
def addrTaken (a : Addr) : RxState → Addr
  | .hunt | .cmd | .addrHi => 0
  | .addrLo => addrOf (addrHi a) 0
  | .len | .payload | .cksum => a

/-- The state with every register blanked that the rules write before they read it again (R53: "no rule reads the
register before writing it"; R54: "rewritten before they are read in the next frame"). `buf` stays, since it
is memory too (R43 (b)). -/
def scrub (s : State) : State :=
  { s with
    hsTimer := if s.owner = .hs ∧ s.hsState = .waitAck then s.hsTimer else 0
    imgLen := if s.owner = .hs ∧ s.hsState = .imgData then s.imgLen else 0
    imgRem := if s.owner = .hs ∧ s.hsState = .imgData then s.imgRem else 0
    imgPtr := if s.owner = .hs ∧ s.hsState = .imgData then s.imgPtr else 0
    loadAddr := if s.owner = .hs ∧ s.hsState = .imgData then s.loadAddr else 0
    rxState := if s.cuPhase = .receive then s.rxState else .hunt
    cmd := if s.cuPhase = .receive ∧ pastCmd s.rxState = true then s.cmd else 0
    addr := if s.cuPhase = .receive then addrTaken s.addr s.rxState else 0
    len := if s.cuPhase = .receive ∧ (s.rxState = .payload ∨ s.rxState = .cksum) then s.len else 0
    idx := if s.cuPhase = .receive ∧ s.rxState = .payload then s.idx else 0
    cks := if s.cuPhase = .receive ∧ s.rxState ≠ .hunt then s.cks else 0
    cksOk := false
    region := if s.cuPhase = .execute then s.region else .ram
    dst := if s.cuPhase = .execute then s.dst else 0
    src := if s.cuPhase = .execute then s.src else 0
    rem := if s.cuPhase = .execute then s.rem else 0
    status := if s.cuPhase = .execute then s.status else 0
    txState := if s.cuPhase = .respond then s.txState else .hdr
    txLen := if s.cuPhase = .respond then s.txLen else 0
    txIdx := if s.cuPhase = .respond then s.txIdx else 0
    txCks := if s.cuPhase = .respond ∧ s.txState ≠ .hdr then s.txCks else 0 }

/-- Two results that differ in dead registers at most. -/
def sameButDead : Result → Result → Prop
  | .next s, .next t => scrub s = scrub t
  | .refused x, .refused y => x = y
  | _, _ => False

/-! ## Completed frames -/

/-- The frame of a command instruction and its last byte on the wire (R91, R96, R97); none for the others. -/
def commandParts (p : Params) : Instr → Option (CommandFrame × Byte)
  | .read a n => some (⟨p.opcRead, a, n, []⟩, frameChecksum p p.opcRead a n [])
  | .writeRam a l => some (⟨p.opcWrite, a, lenByte l, l⟩, frameChecksum p p.opcWrite a (lenByte l) l)
  | .writeNvm a l => some (⟨p.opcWrite, a, lenByte l, l⟩, frameChecksum p p.opcWrite a (lenByte l) l)
  | .go a l => some (⟨p.opcGo, a, lenByte l, l⟩, frameChecksum p p.opcGo a (lenByte l) l)
  | .execPayload a l => some (⟨p.opcExec, a, lenByte l, l⟩, frameChecksum p p.opcExec a (lenByte l) l)
  | .invalid c a l => some (⟨c, a, lenByte l, l⟩, frameChecksum p c a (lenByte l) l)
  | .checksumError c a n l k => some (⟨c, a, n, l⟩, k)
  | .statusSuccess => none
  | .statusChecksumError => none
  | .statusInvalidCommand => none
  | .statusProgrammingProtected => none
  | .data _ => none
  | .sync0 => none
  | .sync1 => none
  | .ack => none
  | .imgLen _ => none

/-- The registers after the decoder has taken a whole frame that began in HUNT (R122 to R128). -/
def acquired (f : CommandFrame) (cks : Byte) (s : State) : State :=
  { s with
    cmd := f.cmd
    addr := f.addr
    len := f.len
    idx := f.payload.length
    cks := frameChecksum s.cfg f.cmd f.addr f.len f.payload
    cksOk := cks == frameChecksum s.cfg f.cmd f.addr f.len f.payload
    buf := f.payload ++ s.buf.drop f.payload.length
    rxState := .cksum
    cuPhase := .execute }

/-! ## Lists of actions -/

/-- Ascending reads (R67, R169). -/
def readActions (a : Addr) (n : Nat) : List Action :=
  (List.range n).map fun k => .memRead (addrPlus a k)

/-- Ascending stores from byte number `k` on (R66, R170). -/
def storeActions (a : Addr) : (k : Nat) → List Byte → List Action
  | _, [] => []
  | k, b :: bs => .memWrite (addrPlus a k) b :: storeActions a (k + 1) bs

/-- One store and one poll a byte, from byte number `k` on (R220). -/
def programActions (r : Region) (a : Addr) : (k : Nat) → List Byte → List Action
  | _, [] => []
  | k, b :: bs => .memWrite (addrPlus a k) b :: .nvmPoll r :: programActions r a (k + 1) bs

/-- The unlock actions of a region (R204). -/
def unlockActions (p : Params) (r : Region) : List Action :=
  (match keyPair p r with
    | none => []
    | some (k1, k2) => [.nvmKey r k1, .nvmKey r k2]) ++
  (if needsArm p r then [.nvmArm] else [])

/-- The lock actions of a region (R211). -/
def lockActions (p : Params) (r : Region) : List Action :=
  (if needsArm p r then [.nvmDisarm] else []) ++ [.nvmLock r]

/-- The bytes of a response on the link (R99). -/
def responseActions (p : Params) (payload : List Byte) : List Action :=
  (encodeResponse p payload).map .txByte

/-- Whether an action is one of the five that reach the non-volatile controller (R214). -/
def isNvmAction : Action → Bool
  | .nvmKey _ _ => true
  | .nvmArm => true
  | .nvmDisarm => true
  | .nvmLock _ => true
  | .nvmPoll _ => true
  | _ => false

/-- Whether an action is a lock. -/
def isLock : Action → Bool
  | .nvmLock _ => true
  | _ => false

/-- A poll answer that shows a finished cycle: EOP without ERR. -/
def isEop (ans : NvmAnswer) : Bool := !ans.err && ans.eop

/-- The next state of a result, where there is one: for tests and claims to name it. -/
def nextOf : Result → Option State
  | .next s => some s
  | .fault _ => none
  | .refused _ => none

/-- The reason of a refusal, where a result is one. -/
def refusalOf : Result → Option Refusal
  | .next _ => none
  | .fault _ => none
  | .refused r => some r

/-- `k` steps. -/
def run (k : Nat) (s : State) : Result := Host.Core.run Sys2Proof.core k s

end Sys2Proof.Machine
end

