-- ==== Sys2Proof/Certificates/Slice0/Obligations.lean ====
section
/-!
DEFINITION. The statements for the provers. Each holds for every legal parameter record; none rests on the record
of `State.reset` (log 1), on a register's unspecified reset value (log 3), on what unlisted memory reads as
(log 4) or on a free value (log 7).
-/

open Sys2Proof Sys2Proof.Machine

/-! ## Reset, invariant, waiting -/

/-- R320, R321, R241: `Reset` is taken in every state of the block, mid-session included (R323: no lock action),
and leads to SEND_SYNC0 with one `SerialConfig(BAUD_SEED)` as the only action; the first byte on the link is
then `SYNC0`. -/
def Obligations.ResetTakenInEveryState : Prop :=
  ∀ (s : State) (w : World) (rest : List Event), s.cfg.Legal → s.inputs = .reset w :: rest →
    ∃ t, step s = .next t ∧
      t.owner = .hs ∧ t.hsState = .sendSync0 ∧ t.cuPhase = .disabled ∧ t.rxState = .hunt ∧
      t.weState = .idle ∧ t.sessionOpen = false ∧
      t.trace = s.trace ++ [.serialConfig s.cfg.baudSeed] ∧ t.inputs = rest ∧ t.cfg = s.cfg ∧
      waitPoint t = some .wTx ∧
      ∀ more, rest = .txReady :: more → ∃ u, step t = .next u ∧ u.trace = t.trace ++ [.txByte s.cfg.sync0]

/-- R52, R323, R322, U24, U26: what a reset leaves outside the block is what the event says (log 8): the controller's
registers, and at each address the last store the event lists for it; an address it lists no store for keeps its
byte outside `buf`, but for the byte of a program cycle that the reset cut off (a free value, log 7). -/
def Obligations.ResetLeavesSurroundingsToTheEvent : Prop :=
  ∀ (s : State) (w : World) (rest : List Event), s.cfg.Legal → Memory.wf s.mem = true →
    s.inputs = .reset w :: rest →
    ∃ t, step s = .next t ∧ t.nvm = ⟨w.config, w.main, w.progMode, none⟩ ∧
      (∀ x, inBuf s.cfg x = false → peek t x = (lastStore w.stores x).getD (heldAfterCycle s x)) ∧
      (∀ x v, inBuf s.cfg x = true → lastStore w.stores x = some v → peek t x = v) ∧
      (w.stores = [] → s.nvm.cycle = none → t.mem = s.mem)

/-- R53, R241: the machine right after reset waits for nothing; its first step is the rest of COLD_START. -/
def Obligations.ColdStartRunsFirst : Prop :=
  ∀ (p : Params) (es : List Event), p.Legal → (∀ w rest, es ≠ .reset w :: rest) →
    step { State.resetWith p with inputs := es } =
      .next { State.resetWith p with
        inputs := es
        hsState := .sendSync0
        serialRate := p.baudSeed
        trace := [.serialConfig p.baudSeed] }

/-- The invariant holds right after reset, for every legal record. -/
def Obligations.ResetMeetsInvariant : Prop :=
  ∀ p : Params, p.Legal → Inv (State.resetWith p) ∧ LockedOutsideSession (State.resetWith p)

/-- Every step keeps the invariant: ownership (R21, R25), session (R37), decoder (R130), encoder (R159), handshake
(R23, R259), counts, canonical memory. -/
def Obligations.StepKeepsInvariant : Prop :=
  ∀ s t : State, Inv s → step s = .next t → Inv t

/-- R215, R296: no step of the block unlocks a region outside a session, nor two regions at once; the exceptions
are what `Reset` and `ExecReturn` say the surroundings did. -/
def Obligations.StepKeepsRegionsLocked : Prop :=
  ∀ s t : State, Inv s → LockedOutsideSession s →
    (∀ w rest, s.inputs ≠ .reset w :: rest) → (∀ w rest, s.inputs ≠ .execReturn w :: rest) →
    step s = .next t → LockedOutsideSession t

/-- The parameter record is fixed (R8), and a record that breaks R9 is refused. -/
def Obligations.ParametersAreFixed : Prop :=
  (∀ s t : State, step s = .next t → t.cfg = s.cfg) ∧
  (∀ s : State, ¬ s.cfg.Legal → step s = .refused .illegalParameters)

/-- R341: without an event a wait goes on and nothing changes; there is no timeout. -/
def Obligations.WaitGoesOnWithoutEvent : Prop :=
  ∀ (s : State) (k : Nat), s.cfg.Legal → s.inputs = [] → atColdStart s = false → run k s = .next s

/-- R14, R343: an event that is not awaited at the wait point has no step. -/
def Obligations.UnawaitedEventHasNoStep : Prop :=
  ∀ (s : State) (e : Event) (rest : List Event), s.cfg.Legal → atColdStart s = false → s.inputs = e :: rest →
    (∀ b, e = .rxByte b → waitPoint s ≠ some .wRx → waitPoint s ≠ some .wAck → step s = .refused .unheardByte) ∧
    (e = .txReady → waitPoint s ≠ some .wTx → step s = .refused .notAwaited) ∧
    (∀ a, e = .nvmStatus a → waitPoint s ≠ some .wNvm → step s = .refused .notAwaited) ∧
    (e = .tick → waitPoint s ≠ some .wAck → step s = .refused .notAwaited) ∧
    (∀ w, e = .execReturn w → waitPoint s ≠ some .wExec → step s = .refused .notAwaited) ∧
    (∀ v, e = .memData v → step s = .refused .notAwaited)

/-- R172, R248, R348: after GO and after the fall-through only `Reset` is taken. -/
def Obligations.DeafAfterRelease : Prop :=
  ∀ (s : State) (e : Event) (rest : List Event), Inv s → s.owner = .ext → s.cuPhase ≠ .execWait →
    s.inputs = e :: rest → (∀ w, e ≠ .reset w) →
    step s = .refused .unheardByte ∨ step s = .refused .notAwaited

/-- R21: while EXT owns execution, only `Reset` and, during an EXEC call, `ExecReturn` give it back. -/
def Obligations.OnlyResetAndReturnTakeExecutionBack : Prop :=
  ∀ s t : State, Inv s → s.owner = .ext → step s = .next t → t.owner ≠ .ext →
    (∃ w rest, s.inputs = .reset w :: rest ∧ t.owner = .hs) ∨
    (∃ w rest, s.inputs = .execReturn w :: rest ∧ s.cuPhase = .execWait ∧ t.owner = .cu)

/-- R53, R54: registers that are unspecified, or left over from an earlier frame or stage, are never read before
they are written: two runs that start from states differing in such registers only emit the same actions and
stay equal but for such registers. -/
def Obligations.DeadRegistersAreNeverRead : Prop :=
  ∀ (k : Nat) (s t : State), scrub s = scrub t → sameButDead (run k s) (run k t)

/-- R69, R71, R80: one address space with `buf` in it: a store to RAM is what the next load of that address gives
and touches no other address; a store to a locked non-volatile region touches none. -/
def Obligations.StoreThenLoad : Prop :=
  ∀ (s : State) (a x : Addr) (v : Byte), s.cfg.Legal → s.buf.length = s.cfg.bufSize → s.nvm.cycle = none →
    Memory.wf s.mem = true →
    (classify s.cfg a = .ram → peek (memWrite a v s) x = if x = a then v else peek s x) ∧
    (classify s.cfg a ≠ .ram → s.nvm.enabled (classify s.cfg a) = false → peek (memWrite a v s) x = peek s x)

/-! ## Encodings -/

/-- R111: decoding the encoding of a well-formed instruction gives it back, in its own stream, with every operand,
and leaves the bytes after it. -/
def Obligations.DecodeOfEncodeIsIdentity : Prop :=
  ∀ (p : Params) (i : Instr) (rest : List Byte), p.Legal → wellFormed p i = true →
    decode p (streamOf i) (encode p i ++ rest) = .ok (i, rest)

/-- The other direction for command frames: what the decoder reads is well formed, and its encoding is the bytes it
was read from. -/
def Obligations.DecodedCommandIsWellFormed : Prop :=
  ∀ (p : Params) (bytes : List Byte) (i : Instr) (rest : List Byte), p.Legal →
    decode p .command bytes = .ok (i, rest) →
    wellFormed p i = true ∧ streamOf i = .command ∧ encode p i ++ rest = bytes

/-- Words written out from the opcode table's encodings decode to their rows. How a 40-bit command prefix becomes a
whole frame is the model's choice (DESIGN CHOICE, log 13: zero payload bytes, the right checksum byte); the
CHECKSUM_ERROR row is given as a 48-bit word, log 13's own form, since the row's 40 bits do not hold the checksum
byte that makes it one. -/
def Obligations.TableWordsDecode : Prop :=
  decodeTableWord 40 0x5AF1800004 = some (.read 0x8000 4) ∧
  decodeTableWord 40 0x5AF2010000 = some (.writeRam 0x0100 []) ∧
  decodeTableWord 40 0x5AF2400000 = some (.writeNvm 0x4000 []) ∧
  decodeTableWord 40 0x5AF3800000 = some (.go 0x8000 []) ∧
  decodeTableWord 40 0x5AF4000000 = some (.execPayload 0 []) ∧
  decodeTableWord 40 0x5AF5123400 = some (.invalid 0xF5 0x1234 []) ∧
  decodeTableWord 48 0x5AF18000042E = some (.checksumError 0xF1 0x8000 4 [] 0x2E) ∧
  decodeTableWord 32 0xA50100A4 = some .statusSuccess ∧
  decodeTableWord 32 0xA501E145 = some .statusChecksumError ∧
  decodeTableWord 32 0xA501E246 = some .statusInvalidCommand ∧
  decodeTableWord 32 0xA501E347 = some .statusProgrammingProtected ∧
  decodeTableWord 16 0xA500 = some (.data [])

/-- R97, R159: the exclusive or of all bytes of a valid command frame, and of every response, is 0. -/
def Obligations.ValidFramesXorToZero : Prop :=
  ∀ (p : Params) (i : Instr), streamOf i = .command ∨ streamOf i = .statusReply ∨ streamOf i = .dataReply →
    (∀ c a n l k, i ≠ .checksumError c a n l k) → xorBytes (encode p i) = 0

/-- R98: the number of bytes of a command frame is `6 + wire_n(cmd, len)`. -/
def Obligations.CommandFrameLength : Prop :=
  ∀ (p : Params) (i : Instr) (f : CommandFrame) (k : Byte), p.Legal → wellFormed p i = true →
    commandParts p i = some (f, k) →
    (encode p i).length = 6 + wireN p f.cmd f.len ∧ 6 ≤ (encode p i).length ∧
      (encode p i).length ≤ 6 + p.maxPayload

/-- R134: a change of one byte of a valid frame is answered CHECKSUM_ERROR if the byte is an address byte, a payload
byte or the checksum, or the command byte where the change keeps `wire_n`. -/
def Obligations.OneChangedByteIsDetected : Prop :=
  ∀ (p : Params) (i : Instr) (f : CommandFrame) (k : Byte) (j : Nat) (b : Byte), p.Legal → wellFormed p i = true →
    commandParts p i = some (f, k) → (∀ c a n l x, i ≠ .checksumError c a n l x) →
    j < (encode p i).length → (encode p i)[j]? ≠ some b →
    ((j = 2 ∨ j = 3 ∨ 5 ≤ j) ∨ (j = 1 ∧ wireN p b f.len = wireN p f.cmd f.len)) →
    ∃ c a n l x, decode p .command ((encode p i).set j b) = .ok (.checksumError c a n l x, [])

/-- R201: `classify` partitions the space into three intervals in address order, none of them empty. -/
def Obligations.ClassifierPartitionsTheSpace : Prop :=
  ∀ p : Params, p.Legal →
    (∀ a : Addr, classify p a = .ram ↔ a.toNat < p.configBase.toNat) ∧
    (∀ a : Addr, classify p a = .configNonvolatile ↔
      p.configBase.toNat ≤ a.toNat ∧ a.toNat < p.mainBase.toNat) ∧
    (∀ a : Addr, classify p a = .mainNonvolatile ↔ p.mainBase.toNat ≤ a.toNat) ∧
    (∀ r : Region, ∃ a : Addr, classify p a = r)

/-! ## The decoder and the step -/

/-- R133: noise without `CMD_HEADER` in HUNT does no harm. -/
def Obligations.NoiseIsDiscarded : Prop :=
  ∀ (s : State) (noise : List Byte) (rest : List Event), s.cfg.Legal → s.owner = .cu → s.cuPhase = .receive →
    s.rxState = .hunt → (∀ b, b ∈ noise → b ≠ s.cfg.cmdHeader) →
    s.inputs = noise.map .rxByte ++ rest →
    run noise.length s = .next { s with inputs := rest }

/-- R129: which step of the decoder returns which outcome, what a complete frame holds, and that only it makes the
command unit leave RECEIVE; the decoder emits nothing (R120). -/
def Obligations.DecoderOutcomes : Prop :=
  ∀ (s : State) (b : Byte),
    (∀ f ok, (decodeNextByte b s).2 = .complete f ok ↔
      s.rxState = .cksum ∧ ok = (b == s.cks) ∧
        f = ⟨s.cmd, s.addr, s.len, s.buf.take (wireN s.cfg s.cmd s.len)⟩) ∧
    ((decodeNextByte b s).2 = .incomplete ↔
      s.rxState ≠ .cksum ∧ ¬ (s.rxState = .hunt ∧ b ≠ s.cfg.cmdHeader) ∧
        ¬ (s.rxState = .len ∧ s.cfg.maxPayload < b.toNat)) ∧
    ((decodeNextByte b s).2 = .resynchronizing ↔
      (s.rxState = .hunt ∧ b ≠ s.cfg.cmdHeader) ∨ (s.rxState = .len ∧ s.cfg.maxPayload < b.toNat)) ∧
    ((decodeNextByte b s).1.cuPhase = if s.rxState = .cksum then .execute else s.cuPhase) ∧
    (decodeNextByte b s).1.trace = s.trace

/-- R126, R105, R284: an oversized length restarts the acquisition: no frame, no response. -/
def Obligations.OversizedLengthRestarts : Prop :=
  ∀ (s : State) (b : Byte) (rest : List Event), s.cfg.Legal → s.owner = .cu → s.cuPhase = .receive →
    s.rxState = .len → s.inputs = .rxByte b :: rest → s.cfg.maxPayload < b.toNat →
    step s = .next { s with rxState := .hunt, inputs := rest }

/-- R122 to R128, R165, R111: a whole frame fed to the decoder from HUNT, one byte a step, is acquired into the
registers and executed in the step of its last byte; a wrong checksum included (R167). -/
def Obligations.FrameIsAcquiredAndExecuted : Prop :=
  ∀ (s : State) (i : Instr) (f : CommandFrame) (k : Byte) (rest : List Event), s.cfg.Legal →
    s.buf.length = s.cfg.bufSize → s.owner = .cu → s.cuPhase = .receive → s.rxState = .hunt →
    wellFormed s.cfg i = true → commandParts s.cfg i = some (f, k) →
    s.inputs = (encode s.cfg i).map .rxByte ++ rest →
    run (encode s.cfg i).length s = exec i (acquired f k { s with inputs := rest })

/-- A step runs the decoded instruction: when the bytes of the frame, the one that now arrives included, decode to
`i`, the step is `exec i` at the state the validator leaves (R128). -/
def Obligations.StepRunsDecodedFrame : Prop :=
  ∀ (s : State) (b : Byte) (rest : List Event) (i : Instr), Inv s → s.owner = .cu → s.cuPhase = .receive →
    s.rxState = .cksum → s.inputs = .rxByte b :: rest →
    decode s.cfg .command (frameSoFar s ++ [b]) = .ok (i, []) →
    step s = exec i { s with inputs := rest, cksOk := b == s.cks, cuPhase := .execute }

/-- A step runs the decoded handshake token (R245, R246, R249, R251); a byte that is not the acknowledgement is
discarded (R250) and an image length 0 is refused (R252). -/
def Obligations.StepRunsHandshakeTokens : Prop :=
  ∀ (s : State) (rest : List Event), s.cfg.Legal → s.owner = .hs →
    (s.hsState = .sendSync0 → s.inputs = .txReady :: rest →
      step s = exec .sync0 { s with inputs := rest }) ∧
    (s.hsState = .sendSync1 → s.inputs = .txReady :: rest →
      step s = exec .sync1 { s with inputs := rest }) ∧
    (∀ b i, s.hsState = .waitAck → s.inputs = .rxByte b :: rest → decode s.cfg .ack [b] = .ok (i, []) →
      step s = exec i { s with inputs := rest }) ∧
    (∀ b, s.hsState = .waitAck → s.inputs = .rxByte b :: rest → b ≠ s.cfg.ack →
      step s = .next { s with inputs := rest }) ∧
    (∀ b i, s.hsState = .imgLen → s.inputs = .rxByte b :: rest → decode s.cfg .imgLen [b] = .ok (i, []) →
      step s = exec i { s with inputs := rest }) ∧
    (s.hsState = .imgLen → s.inputs = .rxByte 0 :: rest → step s = .refused .imageLengthZero)

/-- R166, R167, R168, R174: the steps that answer with a status run that status response: a wrong checksum whatever
the command byte, an unassigned opcode with a right checksum, and the return from EXEC. -/
def Obligations.StepRunsStatusReplies : Prop :=
  ∀ (s : State) (rest : List Event), s.cfg.Legal →
    (∀ b, s.owner = .cu → s.cuPhase = .receive → s.rxState = .cksum → s.inputs = .rxByte b :: rest → b ≠ s.cks →
      step s = exec .statusChecksumError { s with inputs := rest, cksOk := false, cuPhase := .execute }) ∧
    (∀ b, s.owner = .cu → s.cuPhase = .receive → s.rxState = .cksum → s.inputs = .rxByte b :: rest → b = s.cks →
      assigned s.cfg s.cmd = false →
      step s = exec .statusInvalidCommand { s with inputs := rest, cksOk := true, cuPhase := .execute }) ∧
    (∀ w, s.owner = .ext → s.cuPhase = .execWait → s.inputs = .execReturn w :: rest →
      step s = exec .statusSuccess (applyWorld w { s with inputs := rest, owner := .cu }))

/-! ## Responses -/

/-- R155: `send_status`: the status register, `buf[0]` and the encoder's registers, and nothing else. -/
def Obligations.StatusRepliesStartTheEncoder : Prop :=
  ∀ s : State, ∀ ist ∈ [(Instr.statusSuccess, s.cfg.stSuccess), (.statusChecksumError, s.cfg.stChecksumError),
      (.statusInvalidCommand, s.cfg.stInvalidCommand),
      (.statusProgrammingProtected, s.cfg.stProgrammingProtected)],
    exec ist.1 s =
      .next { s with
        status := ist.2
        buf := s.buf.set 0 ist.2
        txLen := 1
        txIdx := 0
        txState := .hdr
        cuPhase := .respond }

/-- R150, R101: a data response: the encoder starts on its payload, lying at the front of `buf`. -/
def Obligations.DataReplyStartsTheEncoder : Prop :=
  ∀ (s : State) (payload : List Byte), s.cfg.Legal → s.buf.length = s.cfg.bufSize →
    wellFormed s.cfg (.data payload) = true →
    ∃ t, exec (.data payload) s = .next t ∧ t.txLen.toNat = payload.length ∧ t.buf.take payload.length = payload ∧
      t = { s with
        buf := payload ++ s.buf.drop payload.length
        txLen := t.txLen
        txIdx := 0
        txState := .hdr
        cuPhase := .respond }

/-- R150 to R154, R157: a response is sent byte by byte, one `TxReady` each: header, length, payload, and the
exclusive or of all of them; then the command unit receives and hunts again. -/
def Obligations.ResponseFrameIsSent : Prop :=
  ∀ (s : State) (rest : List Event), s.cfg.Legal → s.owner = .cu → s.cuPhase = .respond → s.txState = .hdr →
    s.txIdx = 0 → s.txLen.toNat ≤ s.buf.length →
    s.inputs = List.replicate (3 + s.txLen.toNat) .txReady ++ rest →
    run (3 + s.txLen.toNat) s =
      .next { s with
        inputs := rest
        txState := .cks
        txIdx := s.txLen.toNat
        txCks := xorBytes (s.cfg.respHeader :: s.txLen :: s.buf.take s.txLen.toNat)
        rxState := .hunt
        cuPhase := .receive
        trace := s.trace ++ responseActions s.cfg (s.buf.take s.txLen.toNat) }

/-- R100, R155: each status response puts its own encoding on the link, four bytes for four `TxReady`. -/
def Obligations.StatusBytesOnTheLink : Prop :=
  ∀ (s : State) (i : Instr) (rest : List Event), s.cfg.Legal → s.buf.length = s.cfg.bufSize → s.owner = .cu →
    streamOf i = .statusReply → s.inputs = List.replicate 4 .txReady ++ rest →
    ∃ t u, exec i s = .next t ∧ run 4 t = .next u ∧
      u.trace = s.trace ++ (encode s.cfg i).map .txByte ∧ u.cuPhase = .receive ∧ u.rxState = .hunt ∧
      u.inputs = rest

/-! ## Commands -/

/-- R167, R168, R281, R282: a wrong checksum and an unassigned opcode have no effect but their answers. -/
def Obligations.ErrorAnswersChangeNothingElse : Prop :=
  ∀ s : State,
    (∀ c a n l k, exec (.checksumError c a n l k) s =
      .next { s with
        status := s.cfg.stChecksumError
        buf := s.buf.set 0 s.cfg.stChecksumError
        txLen := 1
        txIdx := 0
        txState := .hdr
        cuPhase := .respond }) ∧
    (∀ c a l, exec (.invalid c a l) s =
      .next { s with
        status := s.cfg.stInvalidCommand
        buf := s.buf.set 0 s.cfg.stInvalidCommand
        txLen := 1
        txIdx := 0
        txState := .hdr
        cuPhase := .respond })

/-- R169, R67, R344 (b): READ, every form: `len` reads, each address once, ascending, all before the response; byte
`k` is what address `addr +_16 k` holds when it is read, so inside `buf`'s range a place already copied
into gives the copied byte. Nothing but `buf[0 .. len)`, the encoder's registers, `cu_phase` and the trace
changes. -/
def Obligations.ReadCopiesAndAnswers : Prop :=
  ∀ (s : State) (a : Addr) (n : Byte), s.cfg.Legal → s.buf.length = s.cfg.bufSize → n.toNat ≤ s.cfg.maxPayload →
    s.nvm.cycle = none → noAnswerPending s.inputs = true →
    ∃ t, exec (.read a n) s = .next t ∧
      t = { s with
        buf := t.buf
        txLen := n
        txIdx := 0
        txState := .hdr
        cuPhase := .respond
        trace := s.trace ++ readActions a n.toNat } ∧
      t.buf.length = s.buf.length ∧
      (∀ k, k < n.toNat → inBuf s.cfg (addrPlus a k) = false →
        t.buf.getD k 0 = Memory.read s.mem (addrPlus a k).toNat) ∧
      (∀ k, k < n.toNat → inBuf s.cfg (addrPlus a k) = true → bufIndex s.cfg (addrPlus a k) < k →
        t.buf.getD k 0 = t.buf.getD (bufIndex s.cfg (addrPlus a k)) 0) ∧
      (∀ k, k < n.toNat → inBuf s.cfg (addrPlus a k) = true → k ≤ bufIndex s.cfg (addrPlus a k) →
        t.buf.getD k 0 = s.buf.getD (bufIndex s.cfg (addrPlus a k)) 0) ∧
      (∀ k, n.toNat ≤ k → t.buf[k]? = s.buf[k]?)

/-- R15, U12: where the surroundings answer (a device, an address without memory), READ takes their bytes, whatever
they are, each `MemData` before any other event. -/
def Obligations.ReadTakesTheSurroundingsAnswers : Prop :=
  ∀ (s : State) (a : Addr) (n : Byte) (vs : List Byte) (rest : List Event), s.cfg.Legal →
    s.buf.length = s.cfg.bufSize → n.toNat ≤ s.cfg.maxPayload → s.nvm.cycle = none →
    ClearOfBuf s.cfg a n.toNat → vs.length = n.toNat → s.inputs = vs.map .memData ++ rest →
    exec (.read a n) s =
      .next { s with
        buf := vs ++ s.buf.drop vs.length
        inputs := rest
        txLen := n
        txIdx := 0
        txState := .hdr
        cuPhase := .respond
        trace := s.trace ++ readActions a n.toNat }

/-- R170, R214: WRITE to RAM clear of `buf`: the stores, ascending, and the SUCCESS answer; no action reaches the
non-volatile controller, and every other byte of memory reads as before. -/
def Obligations.WriteToRamStoresThePayload : Prop :=
  ∀ (s : State) (a : Addr) (l : List Byte), s.cfg.Legal → s.buf.length = s.cfg.bufSize →
    l.length ≤ s.cfg.maxPayload → s.nvm.cycle = none → Memory.wf s.mem = true →
    classify s.cfg a = .ram → AllIn s.cfg .ram a l.length → ClearOfBuf s.cfg a l.length →
    ∃ t, exec (.writeRam a l) s = .next t ∧
      t = { s with
        region := .ram
        mem := t.mem
        status := s.cfg.stSuccess
        buf := (l ++ s.buf.drop l.length).set 0 s.cfg.stSuccess
        txLen := 1
        txIdx := 0
        txState := .hdr
        cuPhase := .respond
        trace := s.trace ++ storeActions a 0 l } ∧
      (∀ k, k < l.length → peek t (addrPlus a k) = l.getD k 0) ∧
      (∀ x, OutsideOf a l.length x → inBuf s.cfg x = false → peek t x = peek s x)

/-- R170 (c), (d), R219, R344 (c): WRITE on the RAM path, every form, with both non-volatile regions locked: stores
in ascending order, each byte taken from `buf` when it is stored, so that a copy over `buf` sees its own
stores; bytes past the end of RAM are not taken by a locked region; SUCCESS all the same. `v` is what is
stored. -/
def Obligations.WriteOnTheRamPathEveryForm : Prop :=
  ∀ (s : State) (a : Addr) (l : List Byte), s.cfg.Legal → s.buf.length = s.cfg.bufSize →
    l.length ≤ s.cfg.maxPayload → s.nvm.cycle = none → Memory.wf s.mem = true →
    s.nvm.config.enabled = false → s.nvm.main.enabled = false →
    ∃ (t : State) (v : List Byte), exec (.writeRam a l) s = .next t ∧
      t = { s with
        region := classify s.cfg a
        mem := t.mem
        status := s.cfg.stSuccess
        buf := t.buf
        txLen := 1
        txIdx := 0
        txState := .hdr
        cuPhase := .respond
        trace := s.trace ++ storeActions a 0 v } ∧
      v.length = l.length ∧ t.buf.length = s.buf.length ∧
      (∀ k j, k < l.length → j < k → addrPlus a j = addrPlus s.cfg.bufBase k → v.getD k 0 = v.getD j 0) ∧
      (∀ k, k < l.length → OutsideOf a k (addrPlus s.cfg.bufBase k) → v.getD k 0 = l.getD k 0) ∧
      (∀ k, k < l.length → inBuf s.cfg (addrPlus a k) = false → classify s.cfg (addrPlus a k) = .ram →
        peek t (addrPlus a k) = v.getD k 0) ∧
      (∀ k, k < l.length → inBuf s.cfg (addrPlus a k) = true → bufIndex s.cfg (addrPlus a k) ≠ 0 →
        peek t (addrPlus a k) = v.getD k 0) ∧
      (∀ x, inBuf s.cfg x = false → OutsideOf a l.length x ∨ classify s.cfg x ≠ .ram → peek t x = peek s x) ∧
      (∀ x, inBuf s.cfg x = true → bufIndex s.cfg x ≠ 0 → OutsideOf a l.length x →
        peek t x = (l ++ s.buf.drop l.length).getD (bufIndex s.cfg x) 0) ∧
      t.buf.getD 0 0 = s.cfg.stSuccess

/-- R204, R205: WRITE of at least one byte to a non-volatile region: keys, arming for the config region, the first
store and its poll; the session registers hold the transfer; of the controller only this region's registers, the
programming mode where it is armed, and the program cycle change (log 6). -/
def Obligations.WriteToNvmOpensTheSession : Prop :=
  ∀ (s : State) (a : Addr) (b : Byte) (l : List Byte), s.cfg.Legal → s.buf.length = s.cfg.bufSize →
    (b :: l).length ≤ s.cfg.maxPayload → s.nvm.cycle = none → classify s.cfg a ≠ .ram →
    ∃ t, exec (.writeNvm a (b :: l)) s = .next t ∧
      t = { s with
        region := classify s.cfg a
        buf := b :: l ++ s.buf.drop (b :: l).length
        weState := .poll
        sessionOpen := true
        dst := a
        src := 0
        rem := (b :: l).length
        status := s.cfg.stSuccess
        nvm := t.nvm
        trace := s.trace ++ unlockActions s.cfg (classify s.cfg a) ++
          [.memWrite a b, .nvmPoll (classify s.cfg a)] } ∧
      t.nvm.cycle = some (a, b) ∧ t.nvm.enabled (classify s.cfg a) = true ∧
      t.nvm.progMode = (s.nvm.progMode || needsArm s.cfg (classify s.cfg a)) ∧
      (classify s.cfg a = .configNonvolatile →
        t.nvm.config.unlock = s.cfg.key2Config ∧ t.nvm.main = s.nvm.main) ∧
      (classify s.cfg a = .mainNonvolatile →
        t.nvm.main.unlock = s.cfg.key2Main ∧ t.nvm.config = s.nvm.config)

/-- R218, R176: WRITE of no byte to a non-volatile region unlocks and locks, stores nothing, polls nothing, and
answers SUCCESS; memory, the other region's registers, and the programming mode where the region does not use it, are
untouched. -/
def Obligations.EmptyWriteToNvmUnlocksAndLocks : Prop :=
  ∀ (s : State) (a : Addr), s.cfg.Legal → s.buf.length = s.cfg.bufSize → classify s.cfg a ≠ .ram →
    ∃ t, exec (.writeNvm a []) s = .next t ∧
      t = { s with
        region := classify s.cfg a
        weState := .idle
        sessionOpen := false
        dst := a
        src := 0
        rem := 0
        status := s.cfg.stSuccess
        buf := s.buf.set 0 s.cfg.stSuccess
        txLen := 1
        txIdx := 0
        txState := .hdr
        cuPhase := .respond
        nvm := t.nvm
        trace := s.trace ++ unlockActions s.cfg (classify s.cfg a) ++ lockActions s.cfg (classify s.cfg a) } ∧
      t.nvm.enabled (classify s.cfg a) = false ∧ t.nvm.cycle = s.nvm.cycle ∧
      (needsArm s.cfg (classify s.cfg a) = true → t.nvm.progMode = false) ∧
      (needsArm s.cfg (classify s.cfg a) = false → t.nvm.progMode = s.nvm.progMode) ∧
      (classify s.cfg a = .configNonvolatile →
        t.nvm.config.unlock = s.cfg.key2Config ∧ t.nvm.main = s.nvm.main) ∧
      (classify s.cfg a = .mainNonvolatile →
        t.nvm.main.unlock = s.cfg.key2Main ∧ t.nvm.config = s.nvm.config)

/-- R206, R211, R290: one poll answer. Neither bit: poll again. `ERR`, with or without `EOP`: status
PROGRAMMING_PROTECTED, lock, answer, no further store. `EOP` alone on the last byte: lock, answer SUCCESS.
`EOP` alone before it: the next store and its poll. -/
def Obligations.PollAnswerDecides : Prop :=
  ∀ (s : State) (ans : NvmAnswer) (rest : List Event), Inv s → s.cuPhase = .execute →
    s.inputs = .nvmStatus ans :: rest →
    (ans.err = false → ans.eop = false →
      step s = .next { s with inputs := rest, trace := s.trace ++ [.nvmPoll s.region] }) ∧
    (ans.err = true → ∃ t, step s = .next t ∧ t.status = s.cfg.stProgrammingProtected ∧
      t.trace = s.trace ++ lockActions s.cfg s.region ∧ t.sessionOpen = false ∧ t.weState = .idle ∧
      t.nvm.enabled s.region = false ∧ t.cuPhase = .respond ∧ t.txState = .hdr ∧ t.txLen = 1 ∧
      t.buf = s.buf.set 0 s.cfg.stProgrammingProtected ∧ t.inputs = rest ∧
      t.dst = s.dst ∧ t.src = s.src ∧ t.rem = s.rem) ∧
    (isEop ans = true → s.rem = 1 → ∃ t, step s = .next t ∧ t.status = s.cfg.stSuccess ∧
      t.trace = s.trace ++ lockActions s.cfg s.region ∧ t.sessionOpen = false ∧ t.weState = .idle ∧
      t.nvm.enabled s.region = false ∧ t.cuPhase = .respond ∧ t.txState = .hdr ∧ t.txLen = 1 ∧
      t.buf = s.buf.set 0 s.cfg.stSuccess ∧ t.inputs = rest ∧
      t.dst = addrPlus s.dst 1 ∧ t.src = s.src + 1 ∧ t.rem = 0) ∧
    (isEop ans = true → 1 < s.rem → ∃ t, step s = .next t ∧ t.status = s.status ∧
      t.trace = s.trace ++
        [.memWrite (addrPlus s.dst 1) (s.buf.getD (s.src + 1) 0), .nvmPoll s.region] ∧
      t.dst = addrPlus s.dst 1 ∧ t.src = s.src + 1 ∧ t.rem = s.rem - 1 ∧ t.sessionOpen = true ∧
      t.weState = .poll ∧ t.cuPhase = .execute ∧ t.region = s.region ∧ t.inputs = rest)

/-- R220, R210: the full trace of a successful non-volatile WRITE, every poll answered at once with `EOP`, from the
state in which the execute stage starts it: keys, arming, a store and a poll a byte, disarming, lock, and only
then the four bytes of the SUCCESS response. No byte of it lands in `buf` (one could only by wrapping past 0xFFFF,
R219): its bytes are the frame's. -/
def Obligations.NvmWriteFullTrace : Prop :=
  ∀ (s : State) (a : Addr) (l : List Byte) (answers : List NvmAnswer) (rest : List Event), s.cfg.Legal →
    s.buf.length = s.cfg.bufSize → l.length ≤ s.cfg.maxPayload → s.owner = .cu → s.cuPhase = .execute →
    classify s.cfg a ≠ .ram → ClearOfBuf s.cfg a l.length → answers.length = l.length →
    (∀ x, x ∈ answers → isEop x = true) →
    s.inputs = answers.map .nvmStatus ++ (List.replicate 4 .txReady ++ rest) →
    ∃ t u, exec (.writeNvm a l) s = .next t ∧ run (l.length + 4) t = .next u ∧
      u.trace = s.trace ++ unlockActions s.cfg (classify s.cfg a) ++
        programActions (classify s.cfg a) a 0 l ++ lockActions s.cfg (classify s.cfg a) ++
        responseActions s.cfg [s.cfg.stSuccess] ∧
      u.status = s.cfg.stSuccess ∧ u.sessionOpen = false ∧ u.weState = .idle ∧ u.cuPhase = .receive ∧
      u.rxState = .hunt ∧ u.inputs = rest

/-- R80, R74, with the controller of log 6 (the model's): a non-volatile WRITE whose bytes lie in one region and
whose polls are answered with `EOP` programs every byte and leaves every other byte of memory as it was; the
region is locked. -/
def Obligations.NvmWriteProgramsEveryByte : Prop :=
  ∀ (s : State) (a : Addr) (l : List Byte) (answers : List NvmAnswer) (rest : List Event), s.cfg.Legal →
    s.buf.length = s.cfg.bufSize → l.length ≤ s.cfg.maxPayload → s.nvm.cycle = none → Memory.wf s.mem = true →
    s.owner = .cu → s.cuPhase = .execute → classify s.cfg a ≠ .ram → AllIn s.cfg (classify s.cfg a) a l.length →
    answers.length = l.length → (∀ x, x ∈ answers → isEop x = true) →
    s.inputs = answers.map .nvmStatus ++ rest →
    ∃ t u, exec (.writeNvm a l) s = .next t ∧ run l.length t = .next u ∧
      u.status = s.cfg.stSuccess ∧ u.sessionOpen = false ∧ u.cuPhase = .respond ∧ u.inputs = rest ∧
      u.nvm.enabled (classify s.cfg a) = false ∧ u.nvm.cycle = none ∧
      (∀ k, k < l.length → peek u (addrPlus a k) = l.getD k 0) ∧
      (∀ x, OutsideOf a l.length x → inBuf s.cfg x = false → peek u x = peek s x)

/-- R207, R283, R291: an error after the store of byte `l.length` (of the whole payload `l ++ b :: m`): the bytes
before it are programmed, those after it are never stored and read as before; the region is locked before the answer
PROGRAMMING_PROTECTED. What memory reads as afterwards rests on the model's controller and memory (DESIGN CHOICE,
logs 6 and 4); nothing is said of the refused or spoiled byte, a free value (log 7). -/
def Obligations.NvmWriteAbortsOnError : Prop :=
  ∀ (s : State) (a : Addr) (l m : List Byte) (b : Byte) (answers : List NvmAnswer) (bad : NvmAnswer)
    (rest : List Event), s.cfg.Legal →
    s.buf.length = s.cfg.bufSize → (l ++ b :: m).length ≤ s.cfg.maxPayload → s.nvm.cycle = none →
    Memory.wf s.mem = true → s.owner = .cu → s.cuPhase = .execute → classify s.cfg a ≠ .ram →
    AllIn s.cfg (classify s.cfg a) a (l ++ b :: m).length →
    answers.length = l.length → (∀ x, x ∈ answers → isEop x = true) → bad.err = true →
    s.inputs = answers.map .nvmStatus ++ .nvmStatus bad :: rest →
    ∃ t u, exec (.writeNvm a (l ++ b :: m)) s = .next t ∧ run (l.length + 1) t = .next u ∧
      u.trace = s.trace ++ unlockActions s.cfg (classify s.cfg a) ++
        programActions (classify s.cfg a) a 0 (l ++ [b]) ++ lockActions s.cfg (classify s.cfg a) ∧
      u.status = s.cfg.stProgrammingProtected ∧ u.sessionOpen = false ∧ u.cuPhase = .respond ∧ u.inputs = rest ∧
      u.nvm.enabled (classify s.cfg a) = false ∧
      (∀ k, k < l.length → peek u (addrPlus a k) = l.getD k 0) ∧
      (∀ x, OutsideOf a (l.length + 1) x → inBuf s.cfg x = false → peek u x = peek s x)

/-- R212, R213: from any point of an open session, whatever the answers and however many: while the session is open
no lock has been emitted; once it is closed there has been exactly one, no store comes after it, and the
status is PROGRAMMING_PROTECTED if and only if some answer taken showed `ERR`. -/
def Obligations.LockExactlyOnce : Prop :=
  ∀ (s t : State) (answers : List NvmAnswer), Inv s → s.cuPhase = .execute →
    s.inputs = answers.map .nvmStatus → run answers.length s = .next t →
    (t.cuPhase = .execute ∧ t.sessionOpen = true ∧
      (∃ before, t.trace = s.trace ++ before ∧ ∀ x, x ∈ before → isLock x = false) ∧
      (∀ x, x ∈ answers → x.err = false)) ∨
    (t.cuPhase = .respond ∧ t.sessionOpen = false ∧ t.inputs = [] ∧
      (∃ before, t.trace = s.trace ++ before ++ lockActions s.cfg s.region ∧
        ∀ x, x ∈ before → isLock x = false) ∧
      (t.status = s.cfg.stProgrammingProtected ↔ ∃ x, x ∈ answers ∧ x.err = true) ∧
      (t.status = s.cfg.stSuccess ↔ ∀ x, x ∈ answers → x.err = false))

/-- R172: GO: execution is given away; no response, no memory access, no lock action. -/
def Obligations.GoRelinquishes : Prop :=
  ∀ (s : State) (a : Addr) (l : List Byte),
    exec (.go a l) s =
      .next { s with cuPhase := .released, owner := .ext, trace := s.trace ++ [.relinquish .go a] }

/-- R173: EXEC, the call, every length: the return sequence right after the payload in `buf`, and the call of the
first payload byte; the address is ignored. -/
def Obligations.ExecCallsThePayload : Prop :=
  ∀ (s : State) (a : Addr) (l : List Byte), s.cfg.Legal → s.buf.length = s.cfg.bufSize →
    l.length ≤ s.cfg.maxPayload →
    exec (.execPayload a l) s =
      .next { s with
        buf := l ++ s.cfg.retSeq ++ s.buf.drop (l.length + s.cfg.retLen)
        cuPhase := .execWait
        owner := .ext
        trace := s.trace ++ [.execCall s.cfg.bufBase] }

/-- R174, R52, U10: the return from EXEC: CU owns execution again and answers SUCCESS, whatever the code did outside.
What it did is what the event says (log 8): the stores it lists, the last one to an address winning, over what
memory held (the byte of a program cycle that was cut off is a free value, log 7), then the status byte at
`BUF_BASE`; the controller's registers and the serial rate. The block's other registers are as before. -/
def Obligations.ExecReturnAnswersSuccess : Prop :=
  ∀ (s : State) (w : World) (rest : List Event), s.cfg.Legal → s.owner = .ext → s.cuPhase = .execWait →
    s.inputs = .execReturn w :: rest →
    ∃ t, step s = .next t ∧
      t = { s with
        owner := .cu
        status := s.cfg.stSuccess
        txLen := 1
        txIdx := 0
        txState := .hdr
        cuPhase := .respond
        inputs := rest
        buf := (applyWorld w { s with inputs := rest, owner := .cu }).buf.set 0 s.cfg.stSuccess
        mem := (applyWorld w { s with inputs := rest, owner := .cu }).mem
        nvm := ⟨w.config, w.main, w.progMode, none⟩
        serialRate := w.serialRate
        freeCount := (abandonCycle s).freeCount } ∧
      (s.buf ≠ [] → t.buf.head? = some s.cfg.stSuccess) ∧ t.buf.length = s.buf.length ∧
      (s.buf.length = s.cfg.bufSize → Memory.wf s.mem = true →
        peek t s.cfg.bufBase = s.cfg.stSuccess ∧
        ∀ x, x ≠ s.cfg.bufBase → peek t x = (lastStore w.stores x).getD (heldAfterCycle s x))

/-- R180, R80: READ, WRITE of the same bytes, READ: in RAM clear of `buf` the second READ answers what the first did. -/
def Obligations.ReadWriteReadGivesTheSame : Prop :=
  ∀ (s t1 t2 t3 : State) (a : Addr) (n : Byte), Inv s → n.toNat ≤ s.cfg.maxPayload → s.nvm.cycle = none →
    noAnswerPending s.inputs = true → classify s.cfg a = .ram → AllIn s.cfg .ram a n.toNat →
    ClearOfBuf s.cfg a n.toNat →
    exec (.read a n) s = .next t1 → exec (.writeRam a (t1.buf.take n.toNat)) t1 = .next t2 →
    exec (.read a n) t2 = .next t3 →
    t3.buf.take n.toNat = t1.buf.take n.toNat ∧ t3.txLen = t1.txLen ∧ t2.status = s.cfg.stSuccess ∧ t3.mem = s.mem

/-! ## Handshake -/

/-- R245, R246: the sync bytes, one `TxReady` each; the bounded interval starts when the second is handed over. -/
def Obligations.SyncPatternIsSent : Prop :=
  ∀ s : State,
    exec .sync0 s = .next { s with hsState := .sendSync1, trace := s.trace ++ [.txByte s.cfg.sync0] } ∧
    exec .sync1 s =
      .next { s with hsState := .waitAck, hsTimer := s.cfg.tHs, trace := s.trace ++ [.txByte s.cfg.sync1] } ∧
    ∀ rest, s.cfg.Legal → s.owner = .hs → s.inputs = .txReady :: rest →
      (s.hsState = .sendSync0 →
        step s = .next { s with
          inputs := rest, hsState := .sendSync1, trace := s.trace ++ [.txByte s.cfg.sync0] }) ∧
      (s.hsState = .sendSync1 →
        step s = .next { s with
          inputs := rest
          hsState := .waitAck
          hsTimer := s.cfg.tHs
          trace := s.trace ++ [.txByte s.cfg.sync1] })

/-- R249, R251, R259: the acknowledgement, which leaves the timer as it is; the image length, which anchors the image
flush under `RAM_TOP`; a length 0 is refused (R252). -/
def Obligations.AcknowledgeAndImageLength : Prop :=
  ∀ s : State, s.cfg.Legal →
    exec .ack s = .next { s with hsState := .imgLen } ∧
    exec (.imgLen 0) s = .refused .imageLengthZero ∧
    ∀ n : Byte, n ≠ 0 →
      ∃ t, exec (.imgLen n) s = .next t ∧
        t = { s with
          imgLen := n
          imgRem := n.toNat
          loadAddr := t.loadAddr
          imgPtr := t.loadAddr
          hsState := .imgData } ∧
        t.loadAddr.toNat + n.toNat = s.cfg.ramTop.toNat ∧ s.cfg.seedHi.toNat ≤ t.loadAddr.toNat

/-- R247, R250: in WAIT_ACK wrong bytes are discarded and neither stop nor reload the timer; fewer ticks than are
left do not end the wait. -/
def Obligations.WrongBytesDoNotTouchTheTimer : Prop :=
  ∀ (s : State) (es rest : List Event), s.cfg.Legal → s.owner = .hs → s.hsState = .waitAck →
    (∀ e, e ∈ es → e = .tick ∨ ∃ b, e = .rxByte b ∧ b ≠ s.cfg.ack) →
    es.countP (· == .tick) < s.hsTimer → s.inputs = es ++ rest →
    run es.length s = .next { s with hsTimer := s.hsTimer - es.countP (· == .tick), inputs := rest }

/-- R246, R247, R248, R285: from the second sync byte, `T_HS` ticks without an acknowledgement hand control to the
application exactly once; nothing else is emitted and the command unit stays as it was. -/
def Obligations.TimeoutBootsTheApplication : Prop :=
  ∀ (s : State) (rest : List Event), s.cfg.Legal → s.owner = .hs → s.hsState = .sendSync1 →
    s.inputs = .txReady :: (List.replicate s.cfg.tHs .tick ++ rest) →
    run (1 + s.cfg.tHs) s =
      .next { s with
        hsTimer := 0
        hsState := .fellThrough
        owner := .ext
        inputs := rest
        trace := s.trace ++ [.txByte s.cfg.sync1, .relinquish .app s.cfg.appEntry] }

/-- R251, R253 to R255, R259: an image of 1 to 255 bytes is stored ascending under `RAM_TOP`; then it is entered, and
the command unit owns execution and hunts; byte `j` is at `RAM_TOP - n + j` and all other memory outside
`buf` reads as before. -/
def Obligations.ImageIsLoadedAndEntered : Prop :=
  ∀ (s : State) (bytes : List Byte) (rest : List Event), s.cfg.Legal → Memory.wf s.mem = true →
    s.buf.length = s.cfg.bufSize → s.nvm.cycle = none →
    s.owner = .hs → s.hsState = .imgLen → 1 ≤ bytes.length → bytes.length ≤ 255 →
    s.inputs = .rxByte (lenByte bytes) :: (bytes.map .rxByte ++ rest) →
    ∃ t, run (1 + bytes.length) s = .next t ∧
      t = { s with
        imgLen := lenByte bytes
        imgRem := 0
        imgPtr := s.cfg.ramTop
        loadAddr := t.loadAddr
        hsState := .enteredImage
        owner := .cu
        cuPhase := .receive
        rxState := .hunt
        serialRate := s.cfg.baudFull
        buf := t.buf
        mem := t.mem
        inputs := rest
        trace := s.trace ++ storeActions t.loadAddr 0 bytes ++
          [.relinquish .image (imageTarget s.cfg t.loadAddr (lenByte bytes)), .serialConfig s.cfg.baudFull] } ∧
      t.loadAddr.toNat + bytes.length = s.cfg.ramTop.toNat ∧
      (∀ j, j < bytes.length → peek t (addrPlus t.loadAddr j) = bytes.getD j 0) ∧
      (∀ x, OutsideOf t.loadAddr bytes.length x → peek t x = peek s x)

/-! ## READ, whatever is pending -/

/-- R169, R67, R15, U12, R344 (b): READ, every form and with any answers pending: byte `k` outside `buf`'s range takes
the next of the pending `MemData` bytes, and what the closing memory holds (logs 4 and 5) once there are no more; a
byte inside `buf`'s range reads `buf` as it then is and takes no answer. Answers left over stay pending. -/
def Obligations.ReadEveryForm : Prop :=
  ∀ (s : State) (a : Addr) (n : Byte) (vs : List Byte) (rest : List Event), s.cfg.Legal →
    s.buf.length = s.cfg.bufSize → n.toNat ≤ s.cfg.maxPayload → s.nvm.cycle = none →
    s.inputs = vs.map .memData ++ rest → noAnswerPending rest = true →
    ∃ t, exec (.read a n) s = .next t ∧
      t = { s with
        buf := t.buf
        inputs := (vs.drop (outsideBefore s.cfg a n.toNat)).map .memData ++ rest
        txLen := n
        txIdx := 0
        txState := .hdr
        cuPhase := .respond
        trace := s.trace ++ readActions a n.toNat } ∧
      t.buf.length = s.buf.length ∧
      (∀ k, k < n.toNat → inBuf s.cfg (addrPlus a k) = false →
        t.buf.getD k 0 = vs.getD (outsideBefore s.cfg a k) (Memory.read s.mem (addrPlus a k).toNat)) ∧
      (∀ k, k < n.toNat → inBuf s.cfg (addrPlus a k) = true → bufIndex s.cfg (addrPlus a k) < k →
        t.buf.getD k 0 = t.buf.getD (bufIndex s.cfg (addrPlus a k)) 0) ∧
      (∀ k, k < n.toNat → inBuf s.cfg (addrPlus a k) = true → k ≤ bufIndex s.cfg (addrPlus a k) →
        t.buf.getD k 0 = s.buf.getD (bufIndex s.cfg (addrPlus a k)) 0) ∧
      (∀ k, n.toNat ≤ k → t.buf[k]? = s.buf[k]?)
end

