-- ==== Sys2Proof/Laws/State.lean ====
section
/-!
SUPPORT. One theorem per state update: what each field is after it. Each is a conjunction that simp uses as one
rewrite rule per field, so that no later proof unfolds a record update.
-/

namespace Sys2Proof.Machine

/-- `emit`, field by field. -/
@[simp] theorem emit_fields (a : Action) (s : State) :
    (emit a s).cfg = s.cfg ∧
    (emit a s).owner = s.owner ∧
    (emit a s).hsState = s.hsState ∧
    (emit a s).hsTimer = s.hsTimer ∧
    (emit a s).imgLen = s.imgLen ∧
    (emit a s).imgRem = s.imgRem ∧
    (emit a s).imgPtr = s.imgPtr ∧
    (emit a s).loadAddr = s.loadAddr ∧
    (emit a s).cuPhase = s.cuPhase ∧
    (emit a s).rxState = s.rxState ∧
    (emit a s).weState = s.weState ∧
    (emit a s).txState = s.txState ∧
    (emit a s).cmd = s.cmd ∧
    (emit a s).addr = s.addr ∧
    (emit a s).len = s.len ∧
    (emit a s).idx = s.idx ∧
    (emit a s).cks = s.cks ∧
    (emit a s).cksOk = s.cksOk ∧
    (emit a s).buf = s.buf ∧
    (emit a s).region = s.region ∧
    (emit a s).dst = s.dst ∧
    (emit a s).src = s.src ∧
    (emit a s).rem = s.rem ∧
    (emit a s).sessionOpen = s.sessionOpen ∧
    (emit a s).status = s.status ∧
    (emit a s).txLen = s.txLen ∧
    (emit a s).txIdx = s.txIdx ∧
    (emit a s).txCks = s.txCks ∧
    (emit a s).nvm = s.nvm ∧
    (emit a s).serialRate = s.serialRate ∧
    (emit a s).mem = s.mem ∧
    (emit a s).inputs = s.inputs ∧
    (emit a s).trace = s.trace ++ [a] ∧
    (emit a s).freeCount = s.freeCount := by
  exact ⟨rfl, rfl, rfl, rfl, rfl, rfl, rfl, rfl, rfl, rfl, rfl, rfl, rfl, rfl, rfl, rfl, rfl, rfl, rfl, rfl, rfl, rfl, rfl, rfl, rfl, rfl, rfl, rfl, rfl, rfl, rfl, rfl, rfl, rfl⟩

/-- `openSession`, field by field. -/
@[simp] theorem openSession_fields (s : State) :
    (openSession s).cfg = s.cfg ∧
    (openSession s).owner = s.owner ∧
    (openSession s).hsState = s.hsState ∧
    (openSession s).hsTimer = s.hsTimer ∧
    (openSession s).imgLen = s.imgLen ∧
    (openSession s).imgRem = s.imgRem ∧
    (openSession s).imgPtr = s.imgPtr ∧
    (openSession s).loadAddr = s.loadAddr ∧
    (openSession s).cuPhase = s.cuPhase ∧
    (openSession s).rxState = s.rxState ∧
    (openSession s).weState = s.weState ∧
    (openSession s).txState = s.txState ∧
    (openSession s).cmd = s.cmd ∧
    (openSession s).addr = s.addr ∧
    (openSession s).len = s.len ∧
    (openSession s).idx = s.idx ∧
    (openSession s).cks = s.cks ∧
    (openSession s).cksOk = s.cksOk ∧
    (openSession s).buf = s.buf ∧
    (openSession s).region = s.region ∧
    (openSession s).dst = s.dst ∧
    (openSession s).src = s.src ∧
    (openSession s).rem = s.rem ∧
    (openSession s).sessionOpen = true ∧
    (openSession s).status = s.status ∧
    (openSession s).txLen = s.txLen ∧
    (openSession s).txIdx = s.txIdx ∧
    (openSession s).txCks = s.txCks ∧
    (openSession s).nvm = s.nvm ∧
    (openSession s).serialRate = s.serialRate ∧
    (openSession s).mem = s.mem ∧
    (openSession s).inputs = s.inputs ∧
    (openSession s).trace = s.trace ∧
    (openSession s).freeCount = s.freeCount := by
  exact ⟨rfl, rfl, rfl, rfl, rfl, rfl, rfl, rfl, rfl, rfl, rfl, rfl, rfl, rfl, rfl, rfl, rfl, rfl, rfl, rfl, rfl, rfl, rfl, rfl, rfl, rfl, rfl, rfl, rfl, rfl, rfl, rfl, rfl, rfl⟩

/-- `closeSession`, field by field. -/
@[simp] theorem closeSession_fields (s : State) :
    (closeSession s).cfg = s.cfg ∧
    (closeSession s).owner = s.owner ∧
    (closeSession s).hsState = s.hsState ∧
    (closeSession s).hsTimer = s.hsTimer ∧
    (closeSession s).imgLen = s.imgLen ∧
    (closeSession s).imgRem = s.imgRem ∧
    (closeSession s).imgPtr = s.imgPtr ∧
    (closeSession s).loadAddr = s.loadAddr ∧
    (closeSession s).cuPhase = s.cuPhase ∧
    (closeSession s).rxState = s.rxState ∧
    (closeSession s).weState = s.weState ∧
    (closeSession s).txState = s.txState ∧
    (closeSession s).cmd = s.cmd ∧
    (closeSession s).addr = s.addr ∧
    (closeSession s).len = s.len ∧
    (closeSession s).idx = s.idx ∧
    (closeSession s).cks = s.cks ∧
    (closeSession s).cksOk = s.cksOk ∧
    (closeSession s).buf = s.buf ∧
    (closeSession s).region = s.region ∧
    (closeSession s).dst = s.dst ∧
    (closeSession s).src = s.src ∧
    (closeSession s).rem = s.rem ∧
    (closeSession s).sessionOpen = false ∧
    (closeSession s).status = s.status ∧
    (closeSession s).txLen = s.txLen ∧
    (closeSession s).txIdx = s.txIdx ∧
    (closeSession s).txCks = s.txCks ∧
    (closeSession s).nvm = s.nvm ∧
    (closeSession s).serialRate = s.serialRate ∧
    (closeSession s).mem = s.mem ∧
    (closeSession s).inputs = s.inputs ∧
    (closeSession s).trace = s.trace ∧
    (closeSession s).freeCount = s.freeCount := by
  exact ⟨rfl, rfl, rfl, rfl, rfl, rfl, rfl, rfl, rfl, rfl, rfl, rfl, rfl, rfl, rfl, rfl, rfl, rfl, rfl, rfl, rfl, rfl, rfl, rfl, rfl, rfl, rfl, rfl, rfl, rfl, rfl, rfl, rfl, rfl⟩

/-- `setBuf`, field by field. -/
@[simp] theorem setBuf_fields (i : Nat) (v : Byte) (s : State) :
    (setBuf i v s).cfg = s.cfg ∧
    (setBuf i v s).owner = s.owner ∧
    (setBuf i v s).hsState = s.hsState ∧
    (setBuf i v s).hsTimer = s.hsTimer ∧
    (setBuf i v s).imgLen = s.imgLen ∧
    (setBuf i v s).imgRem = s.imgRem ∧
    (setBuf i v s).imgPtr = s.imgPtr ∧
    (setBuf i v s).loadAddr = s.loadAddr ∧
    (setBuf i v s).cuPhase = s.cuPhase ∧
    (setBuf i v s).rxState = s.rxState ∧
    (setBuf i v s).weState = s.weState ∧
    (setBuf i v s).txState = s.txState ∧
    (setBuf i v s).cmd = s.cmd ∧
    (setBuf i v s).addr = s.addr ∧
    (setBuf i v s).len = s.len ∧
    (setBuf i v s).idx = s.idx ∧
    (setBuf i v s).cks = s.cks ∧
    (setBuf i v s).cksOk = s.cksOk ∧
    (setBuf i v s).buf = s.buf.set i v ∧
    (setBuf i v s).region = s.region ∧
    (setBuf i v s).dst = s.dst ∧
    (setBuf i v s).src = s.src ∧
    (setBuf i v s).rem = s.rem ∧
    (setBuf i v s).sessionOpen = s.sessionOpen ∧
    (setBuf i v s).status = s.status ∧
    (setBuf i v s).txLen = s.txLen ∧
    (setBuf i v s).txIdx = s.txIdx ∧
    (setBuf i v s).txCks = s.txCks ∧
    (setBuf i v s).nvm = s.nvm ∧
    (setBuf i v s).serialRate = s.serialRate ∧
    (setBuf i v s).mem = s.mem ∧
    (setBuf i v s).inputs = s.inputs ∧
    (setBuf i v s).trace = s.trace ∧
    (setBuf i v s).freeCount = s.freeCount := by
  exact ⟨rfl, rfl, rfl, rfl, rfl, rfl, rfl, rfl, rfl, rfl, rfl, rfl, rfl, rfl, rfl, rfl, rfl, rfl, rfl, rfl, rfl, rfl, rfl, rfl, rfl, rfl, rfl, rfl, rfl, rfl, rfl, rfl, rfl, rfl⟩

/-- `loadPayload`, field by field. -/
@[simp] theorem loadPayload_fields (l : List Byte) (s : State) :
    (loadPayload l s).cfg = s.cfg ∧
    (loadPayload l s).owner = s.owner ∧
    (loadPayload l s).hsState = s.hsState ∧
    (loadPayload l s).hsTimer = s.hsTimer ∧
    (loadPayload l s).imgLen = s.imgLen ∧
    (loadPayload l s).imgRem = s.imgRem ∧
    (loadPayload l s).imgPtr = s.imgPtr ∧
    (loadPayload l s).loadAddr = s.loadAddr ∧
    (loadPayload l s).cuPhase = s.cuPhase ∧
    (loadPayload l s).rxState = s.rxState ∧
    (loadPayload l s).weState = s.weState ∧
    (loadPayload l s).txState = s.txState ∧
    (loadPayload l s).cmd = s.cmd ∧
    (loadPayload l s).addr = s.addr ∧
    (loadPayload l s).len = s.len ∧
    (loadPayload l s).idx = s.idx ∧
    (loadPayload l s).cks = s.cks ∧
    (loadPayload l s).cksOk = s.cksOk ∧
    (loadPayload l s).buf = (l ++ s.buf.drop l.length).take s.buf.length ∧
    (loadPayload l s).region = s.region ∧
    (loadPayload l s).dst = s.dst ∧
    (loadPayload l s).src = s.src ∧
    (loadPayload l s).rem = s.rem ∧
    (loadPayload l s).sessionOpen = s.sessionOpen ∧
    (loadPayload l s).status = s.status ∧
    (loadPayload l s).txLen = s.txLen ∧
    (loadPayload l s).txIdx = s.txIdx ∧
    (loadPayload l s).txCks = s.txCks ∧
    (loadPayload l s).nvm = s.nvm ∧
    (loadPayload l s).serialRate = s.serialRate ∧
    (loadPayload l s).mem = s.mem ∧
    (loadPayload l s).inputs = s.inputs ∧
    (loadPayload l s).trace = s.trace ∧
    (loadPayload l s).freeCount = s.freeCount := by
  exact ⟨rfl, rfl, rfl, rfl, rfl, rfl, rfl, rfl, rfl, rfl, rfl, rfl, rfl, rfl, rfl, rfl, rfl, rfl, rfl, rfl, rfl, rfl, rfl, rfl, rfl, rfl, rfl, rfl, rfl, rfl, rfl, rfl, rfl, rfl⟩

/-- `sendResponse`, field by field (R150). -/
@[simp] theorem sendResponse_fields (n : Byte) (s : State) :
    (sendResponse n s).cfg = s.cfg ∧
    (sendResponse n s).owner = s.owner ∧
    (sendResponse n s).hsState = s.hsState ∧
    (sendResponse n s).hsTimer = s.hsTimer ∧
    (sendResponse n s).imgLen = s.imgLen ∧
    (sendResponse n s).imgRem = s.imgRem ∧
    (sendResponse n s).imgPtr = s.imgPtr ∧
    (sendResponse n s).loadAddr = s.loadAddr ∧
    (sendResponse n s).cuPhase = .respond ∧
    (sendResponse n s).rxState = s.rxState ∧
    (sendResponse n s).weState = s.weState ∧
    (sendResponse n s).txState = .hdr ∧
    (sendResponse n s).cmd = s.cmd ∧
    (sendResponse n s).addr = s.addr ∧
    (sendResponse n s).len = s.len ∧
    (sendResponse n s).idx = s.idx ∧
    (sendResponse n s).cks = s.cks ∧
    (sendResponse n s).cksOk = s.cksOk ∧
    (sendResponse n s).buf = s.buf ∧
    (sendResponse n s).region = s.region ∧
    (sendResponse n s).dst = s.dst ∧
    (sendResponse n s).src = s.src ∧
    (sendResponse n s).rem = s.rem ∧
    (sendResponse n s).sessionOpen = s.sessionOpen ∧
    (sendResponse n s).status = s.status ∧
    (sendResponse n s).txLen = n ∧
    (sendResponse n s).txIdx = 0 ∧
    (sendResponse n s).txCks = s.txCks ∧
    (sendResponse n s).nvm = s.nvm ∧
    (sendResponse n s).serialRate = s.serialRate ∧
    (sendResponse n s).mem = s.mem ∧
    (sendResponse n s).inputs = s.inputs ∧
    (sendResponse n s).trace = s.trace ∧
    (sendResponse n s).freeCount = s.freeCount := by
  exact ⟨rfl, rfl, rfl, rfl, rfl, rfl, rfl, rfl, rfl, rfl, rfl, rfl, rfl, rfl, rfl, rfl, rfl, rfl, rfl, rfl, rfl, rfl, rfl, rfl, rfl, rfl, rfl, rfl, rfl, rfl, rfl, rfl, rfl, rfl⟩

/-- `sendStatus`, field by field (R155). -/
@[simp] theorem sendStatus_fields (st : Byte) (s : State) :
    (sendStatus st s).cfg = s.cfg ∧
    (sendStatus st s).owner = s.owner ∧
    (sendStatus st s).hsState = s.hsState ∧
    (sendStatus st s).hsTimer = s.hsTimer ∧
    (sendStatus st s).imgLen = s.imgLen ∧
    (sendStatus st s).imgRem = s.imgRem ∧
    (sendStatus st s).imgPtr = s.imgPtr ∧
    (sendStatus st s).loadAddr = s.loadAddr ∧
    (sendStatus st s).cuPhase = .respond ∧
    (sendStatus st s).rxState = s.rxState ∧
    (sendStatus st s).weState = s.weState ∧
    (sendStatus st s).txState = .hdr ∧
    (sendStatus st s).cmd = s.cmd ∧
    (sendStatus st s).addr = s.addr ∧
    (sendStatus st s).len = s.len ∧
    (sendStatus st s).idx = s.idx ∧
    (sendStatus st s).cks = s.cks ∧
    (sendStatus st s).cksOk = s.cksOk ∧
    (sendStatus st s).buf = s.buf.set 0 st ∧
    (sendStatus st s).region = s.region ∧
    (sendStatus st s).dst = s.dst ∧
    (sendStatus st s).src = s.src ∧
    (sendStatus st s).rem = s.rem ∧
    (sendStatus st s).sessionOpen = s.sessionOpen ∧
    (sendStatus st s).status = st ∧
    (sendStatus st s).txLen = 1 ∧
    (sendStatus st s).txIdx = 0 ∧
    (sendStatus st s).txCks = s.txCks ∧
    (sendStatus st s).nvm = s.nvm ∧
    (sendStatus st s).serialRate = s.serialRate ∧
    (sendStatus st s).mem = s.mem ∧
    (sendStatus st s).inputs = s.inputs ∧
    (sendStatus st s).trace = s.trace ∧
    (sendStatus st s).freeCount = s.freeCount := by
  exact ⟨rfl, rfl, rfl, rfl, rfl, rfl, rfl, rfl, rfl, rfl, rfl, rfl, rfl, rfl, rfl, rfl, rfl, rfl, rfl, rfl, rfl, rfl, rfl, rfl, rfl, rfl, rfl, rfl, rfl, rfl, rfl, rfl, rfl, rfl⟩

/-- `serialConfig`, field by field. -/
@[simp] theorem serialConfig_fields (r : Nat) (s : State) :
    (serialConfig r s).cfg = s.cfg ∧
    (serialConfig r s).owner = s.owner ∧
    (serialConfig r s).hsState = s.hsState ∧
    (serialConfig r s).hsTimer = s.hsTimer ∧
    (serialConfig r s).imgLen = s.imgLen ∧
    (serialConfig r s).imgRem = s.imgRem ∧
    (serialConfig r s).imgPtr = s.imgPtr ∧
    (serialConfig r s).loadAddr = s.loadAddr ∧
    (serialConfig r s).cuPhase = s.cuPhase ∧
    (serialConfig r s).rxState = s.rxState ∧
    (serialConfig r s).weState = s.weState ∧
    (serialConfig r s).txState = s.txState ∧
    (serialConfig r s).cmd = s.cmd ∧
    (serialConfig r s).addr = s.addr ∧
    (serialConfig r s).len = s.len ∧
    (serialConfig r s).idx = s.idx ∧
    (serialConfig r s).cks = s.cks ∧
    (serialConfig r s).cksOk = s.cksOk ∧
    (serialConfig r s).buf = s.buf ∧
    (serialConfig r s).region = s.region ∧
    (serialConfig r s).dst = s.dst ∧
    (serialConfig r s).src = s.src ∧
    (serialConfig r s).rem = s.rem ∧
    (serialConfig r s).sessionOpen = s.sessionOpen ∧
    (serialConfig r s).status = s.status ∧
    (serialConfig r s).txLen = s.txLen ∧
    (serialConfig r s).txIdx = s.txIdx ∧
    (serialConfig r s).txCks = s.txCks ∧
    (serialConfig r s).nvm = s.nvm ∧
    (serialConfig r s).serialRate = r ∧
    (serialConfig r s).mem = s.mem ∧
    (serialConfig r s).inputs = s.inputs ∧
    (serialConfig r s).trace = s.trace ++ [.serialConfig r] ∧
    (serialConfig r s).freeCount = s.freeCount := by
  exact ⟨rfl, rfl, rfl, rfl, rfl, rfl, rfl, rfl, rfl, rfl, rfl, rfl, rfl, rfl, rfl, rfl, rfl, rfl, rfl, rfl, rfl, rfl, rfl, rfl, rfl, rfl, rfl, rfl, rfl, rfl, rfl, rfl, rfl, rfl⟩

/-- `nvmArm`, field by field. -/
@[simp] theorem nvmArm_fields (s : State) :
    (nvmArm s).cfg = s.cfg ∧
    (nvmArm s).owner = s.owner ∧
    (nvmArm s).hsState = s.hsState ∧
    (nvmArm s).hsTimer = s.hsTimer ∧
    (nvmArm s).imgLen = s.imgLen ∧
    (nvmArm s).imgRem = s.imgRem ∧
    (nvmArm s).imgPtr = s.imgPtr ∧
    (nvmArm s).loadAddr = s.loadAddr ∧
    (nvmArm s).cuPhase = s.cuPhase ∧
    (nvmArm s).rxState = s.rxState ∧
    (nvmArm s).weState = s.weState ∧
    (nvmArm s).txState = s.txState ∧
    (nvmArm s).cmd = s.cmd ∧
    (nvmArm s).addr = s.addr ∧
    (nvmArm s).len = s.len ∧
    (nvmArm s).idx = s.idx ∧
    (nvmArm s).cks = s.cks ∧
    (nvmArm s).cksOk = s.cksOk ∧
    (nvmArm s).buf = s.buf ∧
    (nvmArm s).region = s.region ∧
    (nvmArm s).dst = s.dst ∧
    (nvmArm s).src = s.src ∧
    (nvmArm s).rem = s.rem ∧
    (nvmArm s).sessionOpen = s.sessionOpen ∧
    (nvmArm s).status = s.status ∧
    (nvmArm s).txLen = s.txLen ∧
    (nvmArm s).txIdx = s.txIdx ∧
    (nvmArm s).txCks = s.txCks ∧
    (nvmArm s).nvm = { s.nvm with progMode := true } ∧
    (nvmArm s).serialRate = s.serialRate ∧
    (nvmArm s).mem = s.mem ∧
    (nvmArm s).inputs = s.inputs ∧
    (nvmArm s).trace = s.trace ++ [.nvmArm] ∧
    (nvmArm s).freeCount = s.freeCount := by
  exact ⟨rfl, rfl, rfl, rfl, rfl, rfl, rfl, rfl, rfl, rfl, rfl, rfl, rfl, rfl, rfl, rfl, rfl, rfl, rfl, rfl, rfl, rfl, rfl, rfl, rfl, rfl, rfl, rfl, rfl, rfl, rfl, rfl, rfl, rfl⟩

/-- `nvmDisarm`, field by field. -/
@[simp] theorem nvmDisarm_fields (s : State) :
    (nvmDisarm s).cfg = s.cfg ∧
    (nvmDisarm s).owner = s.owner ∧
    (nvmDisarm s).hsState = s.hsState ∧
    (nvmDisarm s).hsTimer = s.hsTimer ∧
    (nvmDisarm s).imgLen = s.imgLen ∧
    (nvmDisarm s).imgRem = s.imgRem ∧
    (nvmDisarm s).imgPtr = s.imgPtr ∧
    (nvmDisarm s).loadAddr = s.loadAddr ∧
    (nvmDisarm s).cuPhase = s.cuPhase ∧
    (nvmDisarm s).rxState = s.rxState ∧
    (nvmDisarm s).weState = s.weState ∧
    (nvmDisarm s).txState = s.txState ∧
    (nvmDisarm s).cmd = s.cmd ∧
    (nvmDisarm s).addr = s.addr ∧
    (nvmDisarm s).len = s.len ∧
    (nvmDisarm s).idx = s.idx ∧
    (nvmDisarm s).cks = s.cks ∧
    (nvmDisarm s).cksOk = s.cksOk ∧
    (nvmDisarm s).buf = s.buf ∧
    (nvmDisarm s).region = s.region ∧
    (nvmDisarm s).dst = s.dst ∧
    (nvmDisarm s).src = s.src ∧
    (nvmDisarm s).rem = s.rem ∧
    (nvmDisarm s).sessionOpen = s.sessionOpen ∧
    (nvmDisarm s).status = s.status ∧
    (nvmDisarm s).txLen = s.txLen ∧
    (nvmDisarm s).txIdx = s.txIdx ∧
    (nvmDisarm s).txCks = s.txCks ∧
    (nvmDisarm s).nvm = { s.nvm with progMode := false } ∧
    (nvmDisarm s).serialRate = s.serialRate ∧
    (nvmDisarm s).mem = s.mem ∧
    (nvmDisarm s).inputs = s.inputs ∧
    (nvmDisarm s).trace = s.trace ++ [.nvmDisarm] ∧
    (nvmDisarm s).freeCount = s.freeCount := by
  exact ⟨rfl, rfl, rfl, rfl, rfl, rfl, rfl, rfl, rfl, rfl, rfl, rfl, rfl, rfl, rfl, rfl, rfl, rfl, rfl, rfl, rfl, rfl, rfl, rfl, rfl, rfl, rfl, rfl, rfl, rfl, rfl, rfl, rfl, rfl⟩

/-- `backToHunt`, field by field (R292). -/
@[simp] theorem backToHunt_fields (s : State) :
    (backToHunt s).cfg = s.cfg ∧
    (backToHunt s).owner = s.owner ∧
    (backToHunt s).hsState = s.hsState ∧
    (backToHunt s).hsTimer = s.hsTimer ∧
    (backToHunt s).imgLen = s.imgLen ∧
    (backToHunt s).imgRem = s.imgRem ∧
    (backToHunt s).imgPtr = s.imgPtr ∧
    (backToHunt s).loadAddr = s.loadAddr ∧
    (backToHunt s).cuPhase = .receive ∧
    (backToHunt s).rxState = .hunt ∧
    (backToHunt s).weState = s.weState ∧
    (backToHunt s).txState = s.txState ∧
    (backToHunt s).cmd = s.cmd ∧
    (backToHunt s).addr = s.addr ∧
    (backToHunt s).len = s.len ∧
    (backToHunt s).idx = s.idx ∧
    (backToHunt s).cks = s.cks ∧
    (backToHunt s).cksOk = s.cksOk ∧
    (backToHunt s).buf = s.buf ∧
    (backToHunt s).region = s.region ∧
    (backToHunt s).dst = s.dst ∧
    (backToHunt s).src = s.src ∧
    (backToHunt s).rem = s.rem ∧
    (backToHunt s).sessionOpen = s.sessionOpen ∧
    (backToHunt s).status = s.status ∧
    (backToHunt s).txLen = s.txLen ∧
    (backToHunt s).txIdx = s.txIdx ∧
    (backToHunt s).txCks = s.txCks ∧
    (backToHunt s).nvm = s.nvm ∧
    (backToHunt s).serialRate = s.serialRate ∧
    (backToHunt s).mem = s.mem ∧
    (backToHunt s).inputs = s.inputs ∧
    (backToHunt s).trace = s.trace ∧
    (backToHunt s).freeCount = s.freeCount := by
  exact ⟨rfl, rfl, rfl, rfl, rfl, rfl, rfl, rfl, rfl, rfl, rfl, rfl, rfl, rfl, rfl, rfl, rfl, rfl, rfl, rfl, rfl, rfl, rfl, rfl, rfl, rfl, rfl, rfl, rfl, rfl, rfl, rfl, rfl, rfl⟩

/-- `nvmKey` changes the controller and the trace only. -/
@[simp] theorem nvmKey_fields (r : Region) (v : Byte) (s : State) :
    (nvmKey r v s).cfg = s.cfg ∧
    (nvmKey r v s).owner = s.owner ∧
    (nvmKey r v s).hsState = s.hsState ∧
    (nvmKey r v s).hsTimer = s.hsTimer ∧
    (nvmKey r v s).imgLen = s.imgLen ∧
    (nvmKey r v s).imgRem = s.imgRem ∧
    (nvmKey r v s).imgPtr = s.imgPtr ∧
    (nvmKey r v s).loadAddr = s.loadAddr ∧
    (nvmKey r v s).cuPhase = s.cuPhase ∧
    (nvmKey r v s).rxState = s.rxState ∧
    (nvmKey r v s).weState = s.weState ∧
    (nvmKey r v s).txState = s.txState ∧
    (nvmKey r v s).cmd = s.cmd ∧
    (nvmKey r v s).addr = s.addr ∧
    (nvmKey r v s).len = s.len ∧
    (nvmKey r v s).idx = s.idx ∧
    (nvmKey r v s).cks = s.cks ∧
    (nvmKey r v s).cksOk = s.cksOk ∧
    (nvmKey r v s).buf = s.buf ∧
    (nvmKey r v s).region = s.region ∧
    (nvmKey r v s).dst = s.dst ∧
    (nvmKey r v s).src = s.src ∧
    (nvmKey r v s).rem = s.rem ∧
    (nvmKey r v s).sessionOpen = s.sessionOpen ∧
    (nvmKey r v s).status = s.status ∧
    (nvmKey r v s).txLen = s.txLen ∧
    (nvmKey r v s).txIdx = s.txIdx ∧
    (nvmKey r v s).txCks = s.txCks ∧
    (nvmKey r v s).serialRate = s.serialRate ∧
    (nvmKey r v s).mem = s.mem ∧
    (nvmKey r v s).inputs = s.inputs ∧
    (nvmKey r v s).trace = s.trace ++ [.nvmKey r v] ∧
    (nvmKey r v s).freeCount = s.freeCount := by
  cases r <;> exact ⟨rfl, rfl, rfl, rfl, rfl, rfl, rfl, rfl, rfl, rfl, rfl, rfl, rfl, rfl, rfl, rfl, rfl, rfl, rfl, rfl, rfl, rfl, rfl, rfl, rfl, rfl, rfl, rfl, rfl, rfl, rfl, rfl, rfl⟩

/-- `nvmLock` changes the controller and the trace only. -/
@[simp] theorem nvmLock_fields (r : Region) (s : State) :
    (nvmLock r s).cfg = s.cfg ∧
    (nvmLock r s).owner = s.owner ∧
    (nvmLock r s).hsState = s.hsState ∧
    (nvmLock r s).hsTimer = s.hsTimer ∧
    (nvmLock r s).imgLen = s.imgLen ∧
    (nvmLock r s).imgRem = s.imgRem ∧
    (nvmLock r s).imgPtr = s.imgPtr ∧
    (nvmLock r s).loadAddr = s.loadAddr ∧
    (nvmLock r s).cuPhase = s.cuPhase ∧
    (nvmLock r s).rxState = s.rxState ∧
    (nvmLock r s).weState = s.weState ∧
    (nvmLock r s).txState = s.txState ∧
    (nvmLock r s).cmd = s.cmd ∧
    (nvmLock r s).addr = s.addr ∧
    (nvmLock r s).len = s.len ∧
    (nvmLock r s).idx = s.idx ∧
    (nvmLock r s).cks = s.cks ∧
    (nvmLock r s).cksOk = s.cksOk ∧
    (nvmLock r s).buf = s.buf ∧
    (nvmLock r s).region = s.region ∧
    (nvmLock r s).dst = s.dst ∧
    (nvmLock r s).src = s.src ∧
    (nvmLock r s).rem = s.rem ∧
    (nvmLock r s).sessionOpen = s.sessionOpen ∧
    (nvmLock r s).status = s.status ∧
    (nvmLock r s).txLen = s.txLen ∧
    (nvmLock r s).txIdx = s.txIdx ∧
    (nvmLock r s).txCks = s.txCks ∧
    (nvmLock r s).serialRate = s.serialRate ∧
    (nvmLock r s).mem = s.mem ∧
    (nvmLock r s).inputs = s.inputs ∧
    (nvmLock r s).trace = s.trace ++ (if r = .ram then [] else [.nvmLock r]) ∧
    (nvmLock r s).freeCount = s.freeCount := by
  cases r <;> simp [nvmLock]

/-- `abandonCycle` changes the controller, the memory and the free-value counter only. -/
@[simp] theorem abandonCycle_fields (s : State) :
    (abandonCycle s).cfg = s.cfg ∧
    (abandonCycle s).owner = s.owner ∧
    (abandonCycle s).hsState = s.hsState ∧
    (abandonCycle s).hsTimer = s.hsTimer ∧
    (abandonCycle s).imgLen = s.imgLen ∧
    (abandonCycle s).imgRem = s.imgRem ∧
    (abandonCycle s).imgPtr = s.imgPtr ∧
    (abandonCycle s).loadAddr = s.loadAddr ∧
    (abandonCycle s).cuPhase = s.cuPhase ∧
    (abandonCycle s).rxState = s.rxState ∧
    (abandonCycle s).weState = s.weState ∧
    (abandonCycle s).txState = s.txState ∧
    (abandonCycle s).cmd = s.cmd ∧
    (abandonCycle s).addr = s.addr ∧
    (abandonCycle s).len = s.len ∧
    (abandonCycle s).idx = s.idx ∧
    (abandonCycle s).cks = s.cks ∧
    (abandonCycle s).cksOk = s.cksOk ∧
    (abandonCycle s).buf = s.buf ∧
    (abandonCycle s).region = s.region ∧
    (abandonCycle s).dst = s.dst ∧
    (abandonCycle s).src = s.src ∧
    (abandonCycle s).rem = s.rem ∧
    (abandonCycle s).sessionOpen = s.sessionOpen ∧
    (abandonCycle s).status = s.status ∧
    (abandonCycle s).txLen = s.txLen ∧
    (abandonCycle s).txIdx = s.txIdx ∧
    (abandonCycle s).txCks = s.txCks ∧
    (abandonCycle s).serialRate = s.serialRate ∧
    (abandonCycle s).inputs = s.inputs ∧
    (abandonCycle s).trace = s.trace := by
  unfold abandonCycle; split <;> exact ⟨rfl, rfl, rfl, rfl, rfl, rfl, rfl, rfl, rfl, rfl, rfl, rfl, rfl, rfl, rfl, rfl, rfl, rfl, rfl, rfl, rfl, rfl, rfl, rfl, rfl, rfl, rfl, rfl, rfl, rfl, rfl⟩

/-- `commitCycle` changes the controller and the memory only. -/
@[simp] theorem commitCycle_fields (s : State) :
    (commitCycle s).cfg = s.cfg ∧
    (commitCycle s).owner = s.owner ∧
    (commitCycle s).hsState = s.hsState ∧
    (commitCycle s).hsTimer = s.hsTimer ∧
    (commitCycle s).imgLen = s.imgLen ∧
    (commitCycle s).imgRem = s.imgRem ∧
    (commitCycle s).imgPtr = s.imgPtr ∧
    (commitCycle s).loadAddr = s.loadAddr ∧
    (commitCycle s).cuPhase = s.cuPhase ∧
    (commitCycle s).rxState = s.rxState ∧
    (commitCycle s).weState = s.weState ∧
    (commitCycle s).txState = s.txState ∧
    (commitCycle s).cmd = s.cmd ∧
    (commitCycle s).addr = s.addr ∧
    (commitCycle s).len = s.len ∧
    (commitCycle s).idx = s.idx ∧
    (commitCycle s).cks = s.cks ∧
    (commitCycle s).cksOk = s.cksOk ∧
    (commitCycle s).buf = s.buf ∧
    (commitCycle s).region = s.region ∧
    (commitCycle s).dst = s.dst ∧
    (commitCycle s).src = s.src ∧
    (commitCycle s).rem = s.rem ∧
    (commitCycle s).sessionOpen = s.sessionOpen ∧
    (commitCycle s).status = s.status ∧
    (commitCycle s).txLen = s.txLen ∧
    (commitCycle s).txIdx = s.txIdx ∧
    (commitCycle s).txCks = s.txCks ∧
    (commitCycle s).serialRate = s.serialRate ∧
    (commitCycle s).inputs = s.inputs ∧
    (commitCycle s).trace = s.trace ∧
    (commitCycle s).freeCount = s.freeCount := by
  unfold commitCycle; split <;> exact ⟨rfl, rfl, rfl, rfl, rfl, rfl, rfl, rfl, rfl, rfl, rfl, rfl, rfl, rfl, rfl, rfl, rfl, rfl, rfl, rfl, rfl, rfl, rfl, rfl, rfl, rfl, rfl, rfl, rfl, rfl, rfl, rfl⟩

/-- `rawStore` changes `buf` or the memory only. -/
@[simp] theorem rawStore_fields (s : State) (c : Addr × Byte) :
    (rawStore s c).cfg = s.cfg ∧
    (rawStore s c).owner = s.owner ∧
    (rawStore s c).hsState = s.hsState ∧
    (rawStore s c).hsTimer = s.hsTimer ∧
    (rawStore s c).imgLen = s.imgLen ∧
    (rawStore s c).imgRem = s.imgRem ∧
    (rawStore s c).imgPtr = s.imgPtr ∧
    (rawStore s c).loadAddr = s.loadAddr ∧
    (rawStore s c).cuPhase = s.cuPhase ∧
    (rawStore s c).rxState = s.rxState ∧
    (rawStore s c).weState = s.weState ∧
    (rawStore s c).txState = s.txState ∧
    (rawStore s c).cmd = s.cmd ∧
    (rawStore s c).addr = s.addr ∧
    (rawStore s c).len = s.len ∧
    (rawStore s c).idx = s.idx ∧
    (rawStore s c).cks = s.cks ∧
    (rawStore s c).cksOk = s.cksOk ∧
    (rawStore s c).region = s.region ∧
    (rawStore s c).dst = s.dst ∧
    (rawStore s c).src = s.src ∧
    (rawStore s c).rem = s.rem ∧
    (rawStore s c).sessionOpen = s.sessionOpen ∧
    (rawStore s c).status = s.status ∧
    (rawStore s c).txLen = s.txLen ∧
    (rawStore s c).txIdx = s.txIdx ∧
    (rawStore s c).txCks = s.txCks ∧
    (rawStore s c).nvm = s.nvm ∧
    (rawStore s c).serialRate = s.serialRate ∧
    (rawStore s c).inputs = s.inputs ∧
    (rawStore s c).trace = s.trace ∧
    (rawStore s c).freeCount = s.freeCount := by
  unfold rawStore; split <;> exact ⟨rfl, rfl, rfl, rfl, rfl, rfl, rfl, rfl, rfl, rfl, rfl, rfl, rfl, rfl, rfl, rfl, rfl, rfl, rfl, rfl, rfl, rfl, rfl, rfl, rfl, rfl, rfl, rfl, rfl, rfl, rfl, rfl⟩

/-- `memWrite` changes `buf`, the memory, the controller, the free-value counter and the trace only. -/
@[simp] theorem memWrite_fields (a : Addr) (v : Byte) (s : State) :
    (memWrite a v s).cfg = s.cfg ∧
    (memWrite a v s).owner = s.owner ∧
    (memWrite a v s).hsState = s.hsState ∧
    (memWrite a v s).hsTimer = s.hsTimer ∧
    (memWrite a v s).imgLen = s.imgLen ∧
    (memWrite a v s).imgRem = s.imgRem ∧
    (memWrite a v s).imgPtr = s.imgPtr ∧
    (memWrite a v s).loadAddr = s.loadAddr ∧
    (memWrite a v s).cuPhase = s.cuPhase ∧
    (memWrite a v s).rxState = s.rxState ∧
    (memWrite a v s).weState = s.weState ∧
    (memWrite a v s).txState = s.txState ∧
    (memWrite a v s).cmd = s.cmd ∧
    (memWrite a v s).addr = s.addr ∧
    (memWrite a v s).len = s.len ∧
    (memWrite a v s).idx = s.idx ∧
    (memWrite a v s).cks = s.cks ∧
    (memWrite a v s).cksOk = s.cksOk ∧
    (memWrite a v s).region = s.region ∧
    (memWrite a v s).dst = s.dst ∧
    (memWrite a v s).src = s.src ∧
    (memWrite a v s).rem = s.rem ∧
    (memWrite a v s).sessionOpen = s.sessionOpen ∧
    (memWrite a v s).status = s.status ∧
    (memWrite a v s).txLen = s.txLen ∧
    (memWrite a v s).txIdx = s.txIdx ∧
    (memWrite a v s).txCks = s.txCks ∧
    (memWrite a v s).serialRate = s.serialRate ∧
    (memWrite a v s).inputs = s.inputs ∧
    (memWrite a v s).trace = s.trace ++ [.memWrite a v] := by
  unfold memWrite; simp only []; split
  · simp
  · split
    · simp
    · split <;> simp

/-- `memRead` changes the pending answers, an unconfirmed cycle's byte and the trace only. -/
@[simp] theorem memRead_fields (a : Addr) (s : State) :
    ((memRead a s).2).cfg = s.cfg ∧
    ((memRead a s).2).owner = s.owner ∧
    ((memRead a s).2).hsState = s.hsState ∧
    ((memRead a s).2).hsTimer = s.hsTimer ∧
    ((memRead a s).2).imgLen = s.imgLen ∧
    ((memRead a s).2).imgRem = s.imgRem ∧
    ((memRead a s).2).imgPtr = s.imgPtr ∧
    ((memRead a s).2).loadAddr = s.loadAddr ∧
    ((memRead a s).2).cuPhase = s.cuPhase ∧
    ((memRead a s).2).rxState = s.rxState ∧
    ((memRead a s).2).weState = s.weState ∧
    ((memRead a s).2).txState = s.txState ∧
    ((memRead a s).2).cmd = s.cmd ∧
    ((memRead a s).2).addr = s.addr ∧
    ((memRead a s).2).len = s.len ∧
    ((memRead a s).2).idx = s.idx ∧
    ((memRead a s).2).cks = s.cks ∧
    ((memRead a s).2).cksOk = s.cksOk ∧
    ((memRead a s).2).buf = s.buf ∧
    ((memRead a s).2).region = s.region ∧
    ((memRead a s).2).dst = s.dst ∧
    ((memRead a s).2).src = s.src ∧
    ((memRead a s).2).rem = s.rem ∧
    ((memRead a s).2).sessionOpen = s.sessionOpen ∧
    ((memRead a s).2).status = s.status ∧
    ((memRead a s).2).txLen = s.txLen ∧
    ((memRead a s).2).txIdx = s.txIdx ∧
    ((memRead a s).2).txCks = s.txCks ∧
    ((memRead a s).2).serialRate = s.serialRate ∧
    ((memRead a s).2).trace = s.trace ++ [.memRead a] := by
  unfold memRead; simp only []; split
  · simp
  · split <;> simp

end Sys2Proof.Machine
end

