-- ==== Sys2Proof/Laws/Memory.lean ====
section
/-!
SUPPORT. Memory outside `buf`: a read after a write, and the canonical form, which every operation keeps.
-/

namespace Sys2Proof.Machine

@[simp] theorem Memory.read_nil (a : Nat) : Memory.read [] a = Memory.unlisted := rfl

theorem Memory.wfFrom_cons (lo a : Nat) (v : Byte) (t : Memory) :
    Memory.wfFrom lo ((a, v) :: t) = true ↔
      lo ≤ a ∧ v ≠ Memory.unlisted ∧ Memory.wfFrom (a + 1) t = true := by
  simp [Memory.wfFrom, and_assoc]

theorem Memory.wfFrom_mono {lo lo' : Nat} {m : Memory} (h : Memory.wfFrom lo m = true) (hle : lo' ≤ lo) :
    Memory.wfFrom lo' m = true := by
  cases m with
  | nil => rfl
  | cons c t =>
    obtain ⟨a, v⟩ := c
    rw [Memory.wfFrom_cons] at h ⊢
    exact ⟨hle.trans h.1, h.2⟩

/-- Below the first listed address nothing is listed. -/
theorem Memory.read_below {lo a : Nat} {m : Memory} (h : Memory.wfFrom lo m = true) (ha : a < lo) :
    Memory.read m a = Memory.unlisted := by
  induction m generalizing lo with
  | nil => rfl
  | cons c t ih =>
    obtain ⟨b, w⟩ := c
    rw [Memory.wfFrom_cons] at h
    have hne : a ≠ b := by omega
    simp only [Memory.read, hne, if_false]
    exact ih h.2.2 (by omega)

/-- A read after a write: the byte written at its address, the byte before anywhere else. -/
theorem Memory.read_write {lo : Nat} {m : Memory} (h : Memory.wfFrom lo m = true) (a : Nat) (v : Byte) (x : Nat) :
    Memory.read (Memory.write m a v) x = if x = a then v else Memory.read m x := by
  induction m generalizing lo with
  | nil =>
    by_cases hv : v = Memory.unlisted <;> by_cases hx : x = a <;> simp [Memory.write, Memory.read, hv, hx]
  | cons c t ih =>
    obtain ⟨b, w⟩ := c
    rw [Memory.wfFrom_cons] at h
    by_cases hab : a < b
    · have hout : Memory.read ((b, w) :: t) a = Memory.unlisted :=
        Memory.read_below (lo := b) ((Memory.wfFrom_cons b b w t).2 ⟨le_rfl, h.2⟩) hab
      by_cases hv : v = Memory.unlisted
      · by_cases hx : x = a
        · subst hx; simp only [Memory.write, if_pos hab, if_pos hv, if_true]; rw [hout, hv]
        · simp [Memory.write, hab, hv, hx]
      · simp only [Memory.write, if_pos hab, if_neg hv, Memory.read]
    · by_cases hb : a = b
      · subst hb
        have hout : Memory.read t a = Memory.unlisted := Memory.read_below h.2.2 (by omega)
        by_cases hv : v = Memory.unlisted
        · by_cases hx : x = a
          · subst hx; simp [Memory.write, hv, hout]
          · simp [Memory.write, Memory.read, hv, hx]
        · by_cases hx : x = a <;> simp [Memory.write, Memory.read, hv, hx]
      · simp only [Memory.write, if_neg hab, if_neg hb, Memory.read]
        rw [ih h.2.2]
        by_cases hx : x = b
        · subst hx; simp [Ne.symm hb]
        · simp [hx]

theorem Memory.wfFrom_write {lo : Nat} {m : Memory} (h : Memory.wfFrom lo m = true) {a : Nat} (ha : lo ≤ a) (v : Byte) :
    Memory.wfFrom lo (Memory.write m a v) = true := by
  induction m generalizing lo with
  | nil =>
    by_cases hv : v = Memory.unlisted <;> simp [Memory.write, Memory.wfFrom, hv, ha]
  | cons c t ih =>
    obtain ⟨b, w⟩ := c
    have h0 := h
    rw [Memory.wfFrom_cons] at h
    by_cases hab : a < b
    · by_cases hv : v = Memory.unlisted
      · simpa [Memory.write, hab, hv] using h0
      · simp only [Memory.write, if_pos hab, if_neg hv]
        exact (Memory.wfFrom_cons ..).2 ⟨ha, hv, (Memory.wfFrom_cons ..).2 ⟨hab, h.2⟩⟩
    · by_cases hb : a = b
      · subst hb
        by_cases hv : v = Memory.unlisted
        · simpa [Memory.write, hv] using Memory.wfFrom_mono h.2.2 (by omega)
        · simp only [Memory.write, if_neg hab, if_true, if_neg hv]
          exact (Memory.wfFrom_cons ..).2 ⟨ha, hv, h.2.2⟩
      · simp only [Memory.write, if_neg hab, if_neg hb]
        exact (Memory.wfFrom_cons ..).2 ⟨h.1, h.2.1, ih h.2.2 (by omega)⟩

theorem Memory.all_write {P : Nat → Bool} {m : Memory} (h : m.all (fun c => P c.1) = true) {a : Nat}
    (ha : P a = true) (v : Byte) : (Memory.write m a v).all (fun c => P c.1) = true := by
  induction m with
  | nil => by_cases hv : v = Memory.unlisted <;> simp [Memory.write, hv, ha]
  | cons c t ih =>
    obtain ⟨b, w⟩ := c
    simp only [List.all_cons, Bool.and_eq_true] at h
    have iht := ih h.2
    unfold Memory.write
    repeat' split
    all_goals try simp only [List.all_cons, Bool.and_eq_true]
    · exact h
    · exact ⟨ha, h⟩
    · exact h.2
    · exact ⟨ha, h.2⟩
    · exact ⟨h.1, iht⟩

/-- Writing back what is there changes nothing: the form is canonical. -/
theorem Memory.write_read {lo : Nat} {m : Memory} (h : Memory.wfFrom lo m = true) (a : Nat) :
    Memory.write m a (Memory.read m a) = m := by
  induction m generalizing lo with
  | nil => simp [Memory.write, Memory.read]
  | cons c t ih =>
    obtain ⟨b, w⟩ := c
    rw [Memory.wfFrom_cons] at h
    obtain ⟨-, h2, h3⟩ := h
    by_cases hab : a = b
    · simp [Memory.read, Memory.write, hab, h2]
    · by_cases hlt : a < b
      · have hr : Memory.read t a = Memory.unlisted := Memory.read_below h3 (by omega)
        simp [Memory.read, Memory.write, hab, hlt, hr]
      · simp [Memory.read, Memory.write, hab, hlt, ih h3]

/-- Canonical memories that read alike are equal. -/
theorem Memory.ext {lo : Nat} {m m' : Memory} (h : Memory.wfFrom lo m = true) (h' : Memory.wfFrom lo m' = true)
    (he : ∀ a, Memory.read m a = Memory.read m' a) : m = m' := by
  induction m generalizing lo m' with
  | nil =>
    cases m' with
    | nil => rfl
    | cons c t =>
      obtain ⟨b, w⟩ := c
      rw [Memory.wfFrom_cons] at h'
      have := he b
      simp [Memory.read] at this
      exact absurd this.symm h'.2.1
  | cons c t ih =>
    obtain ⟨b, w⟩ := c
    have hw := h
    rw [Memory.wfFrom_cons] at h
    cases m' with
    | nil =>
      have := he b
      simp [Memory.read] at this
      exact absurd this h.2.1
    | cons c' t' =>
      obtain ⟨b', w'⟩ := c'
      have hw' := h'
      rw [Memory.wfFrom_cons] at h'
      have hb : b = b' := by
        rcases Nat.lt_trichotomy b b' with hlt | heq | hgt
        · have e := he b
          simp only [Memory.read, if_true, show b ≠ b' by omega, if_false,
            Memory.read_below h'.2.2 (show b < b' + 1 by omega)] at e
          exact absurd e h.2.1
        · exact heq
        · have e := he b'
          simp only [Memory.read, if_true, show b' ≠ b by omega, if_false,
            Memory.read_below h.2.2 (show b' < b + 1 by omega)] at e
          exact absurd e.symm h'.2.1
      subst hb
      have hv : w = w' := by simpa [Memory.read] using he b
      subst hv
      congr 1
      refine ih h.2.2 h'.2.2 (fun a => ?_)
      by_cases ha : a = b
      · subst ha
        rw [Memory.read_below h.2.2 (by omega), Memory.read_below h'.2.2 (by omega)]
      · simpa [Memory.read, ha] using he a

/-- A store inside the 16-bit space keeps the canonical form. -/
theorem Memory.wf_write {m : Memory} (h : Memory.wf m = true) (a : Addr) (v : Byte) :
    Memory.wf (Memory.write m a.toNat v) = true := by
  simp only [Memory.wf, Bool.and_eq_true] at h ⊢
  refine ⟨Memory.wfFrom_write h.1 (Nat.zero_le _) v, ?_⟩
  exact Memory.all_write (P := fun n => decide (n < 65536)) h.2 (by simpa using a.isLt) v

/-- A read after a write, for a canonical memory and addresses of the space. -/
theorem Memory.read_write_addr {m : Memory} (h : Memory.wf m = true) (a x : Addr) (v : Byte) :
    Memory.read (Memory.write m a.toNat v) x.toNat = if x = a then v else Memory.read m x.toNat := by
  simp only [Memory.wf, Bool.and_eq_true] at h
  rw [Memory.read_write h.1]
  simp [BitVec.toNat_inj]

/-! ## Every operation on memory keeps the canonical form -/

theorem abandonCycle_wf {s : State} (h : Memory.wf s.mem = true) : Memory.wf (abandonCycle s).mem = true := by
  unfold abandonCycle; split
  · exact h
  · exact Memory.wf_write h _ _

theorem commitCycle_wf {s : State} (h : Memory.wf s.mem = true) : Memory.wf (commitCycle s).mem = true := by
  unfold commitCycle; split
  · exact h
  · exact Memory.wf_write h _ _

theorem rawStore_wf {s : State} (h : Memory.wf s.mem = true) (c : Addr × Byte) :
    Memory.wf (rawStore s c).mem = true := by
  unfold rawStore; split
  · simpa using h
  · exact Memory.wf_write h _ _

theorem foldl_rawStore_wf (l : List (Addr × Byte)) {s : State} (h : Memory.wf s.mem = true) :
    Memory.wf (l.foldl rawStore s).mem = true := by
  induction l generalizing s with
  | nil => exact h
  | cons c l ih => exact ih (rawStore_wf h c)

theorem memWrite_wf {s : State} (h : Memory.wf s.mem = true) (a : Addr) (v : Byte) :
    Memory.wf (memWrite a v s).mem = true := by
  have h' := abandonCycle_wf h
  unfold memWrite; simp only []
  split
  · simpa using h'
  · split
    · exact Memory.wf_write (by simpa using h') _ _
    · split <;> simpa using h'

theorem memRead_wf {s : State} (h : Memory.wf s.mem = true) (a : Addr) :
    Memory.wf (memRead a s).2.mem = true := by
  have h' := abandonCycle_wf h
  unfold memRead; simp only []
  split
  · simpa using h'
  · split <;> simpa using h'

theorem applyWorld_wf {s : State} (h : Memory.wf s.mem = true) (w : World) :
    Memory.wf (applyWorld w s).mem = true := foldl_rawStore_wf w.stores (abandonCycle_wf h)

end Sys2Proof.Machine
end

