-- ==== Sys2Proof/Laws/Operands.lean ====
section
/-!
SUPPORT. The operand forms: address halves, exclusive or, transfer addresses, the classifier, and the parts of a
legal parameter record.
-/

namespace Sys2Proof

/-! ## Legal records -/

theorem Params.Legal.headers {p : Params} (h : p.Legal) : p.cmdHeader ≠ p.respHeader := h.1

theorem Params.Legal.opcodes {p : Params} (h : p.Legal) :
    p.opcRead ≠ p.opcWrite ∧ p.opcRead ≠ p.opcGo ∧ p.opcRead ≠ p.opcExec ∧
      p.opcWrite ≠ p.opcGo ∧ p.opcWrite ≠ p.opcExec ∧ p.opcGo ≠ p.opcExec := h.2.1

theorem Params.Legal.regions {p : Params} (h : p.Legal) :
    0 < p.configBase.toNat ∧ p.configBase.toNat < p.mainBase.toNat := h.2.2.1

theorem Params.Legal.maxPayload_le {p : Params} (h : p.Legal) : p.maxPayload ≤ 255 := h.2.2.2.1

theorem Params.Legal.buf_in_ram {p : Params} (h : p.Legal) :
    p.bufBase.toNat + p.bufSize ≤ p.configBase.toNat := by
  have := h.2.2.2.2.1
  simp only [Params.bufSize, Params.retLen]
  omega

theorem Params.Legal.ramTop_le {p : Params} (h : p.Legal) : p.ramTop.toNat ≤ p.configBase.toNat :=
  h.2.2.2.2.2.1

theorem Params.Legal.statuses {p : Params} (h : p.Legal) :
    p.stSuccess ≠ p.stChecksumError ∧ p.stSuccess ≠ p.stInvalidCommand ∧
      p.stSuccess ≠ p.stProgrammingProtected ∧ p.stChecksumError ≠ p.stInvalidCommand ∧
      p.stChecksumError ≠ p.stProgrammingProtected ∧ p.stInvalidCommand ≠ p.stProgrammingProtected :=
  h.2.2.2.2.2.2.1

theorem Params.Legal.image_room {p : Params} (h : p.Legal) : p.seedHi.toNat + 255 ≤ p.ramTop.toNat :=
  h.2.2.2.2.2.2.2.1

theorem Params.Legal.retLen_pos {p : Params} (h : p.Legal) : 1 ≤ p.retLen := h.2.2.2.2.2.2.2.2.1

theorem Params.Legal.tHs_pos {p : Params} (h : p.Legal) : 1 ≤ p.tHs := h.2.2.2.2.2.2.2.2.2.1

theorem Params.Legal.tHs_fits {p : Params} (h : p.Legal) : p.tHs < 2 ^ p.wT := h.2.2.2.2.2.2.2.2.2.2.1

theorem Params.Legal.bufSize_pos {p : Params} (h : p.Legal) : 1 ≤ p.bufSize :=
  le_trans h.retLen_pos (by simp [Params.bufSize])

theorem Params.Legal.maxPayload_le_bufSize {p : Params} : p.maxPayload ≤ p.bufSize := by
  simp [Params.bufSize]

/-- The whole of `buf` and the boundary fit the 16-bit space. -/
theorem Params.Legal.bufSize_lt {p : Params} (h : p.Legal) : p.bufBase.toNat + p.bufSize < 65536 := by
  have h1 := h.buf_in_ram
  have h2 := p.configBase.isLt
  omega

/-! ## Address halves (R94) -/

@[simp] theorem addrHi_addrOf (hi lo : Byte) : addrHi (addrOf hi lo) = hi := by
  unfold addrHi addrOf
  ext i hlt
  simp only [BitVec.getElem_extractLsb', BitVec.getLsbD_append]
  rw [if_neg (by omega)]
  simp [BitVec.getLsbD_eq_getElem hlt]

@[simp] theorem addrLo_addrOf (hi lo : Byte) : addrLo (addrOf hi lo) = lo := by
  unfold addrLo addrOf
  ext i hlt
  simp only [BitVec.getElem_extractLsb', BitVec.getLsbD_append]
  rw [if_pos (by omega)]
  simp [BitVec.getLsbD_eq_getElem hlt]

@[simp] theorem addrOf_halves (a : Addr) : addrOf (addrHi a) (addrLo a) = a := by
  unfold addrHi addrLo addrOf
  ext i hlt
  rw [BitVec.getElem_append]
  by_cases h : i < 8
  · simp [h, BitVec.getLsbD_eq_getElem hlt]
  · simp only [h, dite_false, BitVec.getElem_extractLsb']
    rw [show 8 + (i - 8) = i by omega, BitVec.getLsbD_eq_getElem hlt]

/-- R182 (f): address assembly is `256 * hi + lo`. -/
theorem addrOf_toNat (hi lo : Byte) : (addrOf hi lo).toNat = 256 * hi.toNat + lo.toNat := by
  unfold addrOf
  rw [BitVec.toNat_append, ← Nat.shiftLeft_add_eq_or_of_lt lo.isLt, Nat.shiftLeft_eq]
  omega

/-! ## Exclusive or (R97, R182 (a)) -/

@[simp] theorem xorBytes_nil : xorBytes [] = 0 := rfl

@[simp] theorem xorBytes_cons (b : Byte) (l : List Byte) : xorBytes (b :: l) = b ^^^ xorBytes l := rfl

@[simp] theorem xorBytes_append (l m : List Byte) : xorBytes (l ++ m) = xorBytes l ^^^ xorBytes m := by
  induction l with
  | nil => simp
  | cons b l ih => simp [ih, BitVec.xor_assoc]

/-- A frame followed by its own checksum has exclusive or 0. -/
theorem xorBytes_with_checksum (l : List Byte) : xorBytes (l ++ [xorBytes l]) = 0 := by
  simp

/-! ## Payload counts (R95, R96) -/

theorem lenByte_toNat {l : List Byte} (h : l.length ≤ 255) : (lenByte l).toNat = l.length := by
  simp only [lenByte, BitVec.toNat_ofNat]
  omega

theorem wireN_read (p : Params) (n : Byte) : wireN p p.opcRead n = 0 := by simp [wireN]

theorem wireN_other {p : Params} {c : Byte} (h : c ≠ p.opcRead) (n : Byte) : wireN p c n = n.toNat := by
  simp [wireN, h]

theorem wireN_le (p : Params) (c n : Byte) : wireN p c n ≤ n.toNat := by
  unfold wireN; split <;> omega

/-! ## Transfer addresses (R68) -/

@[simp] theorem addrPlus_zero (a : Addr) : addrPlus a 0 = a := by simp [addrPlus]

theorem addrPlus_add (a : Addr) (j k : Nat) : addrPlus (addrPlus a j) k = addrPlus a (j + k) := by
  simp [addrPlus, BitVec.ofNat_add, BitVec.add_assoc]

theorem addrPlus_toNat (a : Addr) (k : Nat) : (addrPlus a k).toNat = (a.toNat + k) % 65536 := by
  simp [addrPlus, BitVec.toNat_add]

/-- The addresses of one transfer are different from one another. -/
theorem addrPlus_inj {a : Addr} {j k : Nat} (hj : j < 65536) (hk : k < 65536) (h : addrPlus a j = addrPlus a k) :
    j = k := by
  have := congrArg BitVec.toNat h
  rw [addrPlus_toNat, addrPlus_toNat] at this
  omega

/-! ## The classifier (R200, R201) -/

theorem classify_ram {p : Params} {a : Addr} : classify p a = .ram ↔ a.toNat < p.configBase.toNat := by
  unfold classify
  rw [← BitVec.lt_def]
  split
  · simp_all
  · split <;> simp_all

theorem inBuf_iff {p : Params} {a : Addr} :
    inBuf p a = true ↔ p.bufBase.toNat ≤ a.toNat ∧ a.toNat < p.bufBase.toNat + p.bufSize := by
  simp [inBuf]

/-- `buf` lies in RAM (R9 (e), R69). -/
theorem classify_of_inBuf {p : Params} (hp : p.Legal) {a : Addr} (h : inBuf p a = true) : classify p a = .ram := by
  rw [inBuf_iff] at h
  have := hp.buf_in_ram
  rw [classify_ram]
  omega

theorem bufIndex_lt {p : Params} {a : Addr} (h : inBuf p a = true) : bufIndex p a < p.bufSize := by
  rw [inBuf_iff] at h
  unfold bufIndex
  omega

theorem bufIndex_inj {p : Params} {a b : Addr} (ha : inBuf p a = true) (hb : inBuf p b = true)
    (h : bufIndex p a = bufIndex p b) : a = b := by
  rw [inBuf_iff] at ha hb
  unfold bufIndex at h
  apply BitVec.eq_of_toNat_eq
  omega

/-! ## Image entry (R8, R254) -/

/-- A table whose rows all give `f`, one of them for this load address and size, gives `f` there. -/
theorem entryRow_eq {f : Addr → Byte → Addr} {load : Addr} {n : Byte} :
    ∀ {rows : List (Addr × Byte × Addr)}, (∀ r, r ∈ rows → r.2.2 = f r.1 r.2.1) →
      (∃ v, (load, n, v) ∈ rows) → entryRow rows load n = some (f load n)
  | [], _, h => by simp at h
  | (l, m, v) :: rows, h, hm => by
    unfold entryRow
    split
    · rename_i e; obtain ⟨rfl, rfl⟩ := e; rw [← h _ (.head _)]
    · rename_i e
      obtain ⟨u, hu⟩ := hm
      refine entryRow_eq (fun r hr => h r (.tail _ hr)) ⟨u, ?_⟩
      rcases List.mem_cons.1 hu with hu | hu
      · exact absurd ⟨(congrArg Prod.fst hu).symm, (congrArg (·.2.1) hu).symm⟩ e
      · exact hu

/-- `IMAGE_ENTRY` may be any function of load address and size (R8): each is given by some table. -/
theorem imageTarget_every_function (f : Addr → Byte → Addr) :
    ∃ e : ImageEntry, ∀ (p : Params) (load : Addr) (n : Byte),
      p.imageEntry = e → imageTarget p load n = f load n := by
  refine ⟨.table ((List.range (2 ^ 16)).flatMap fun i => (List.range (2 ^ 8)).map fun j =>
    (BitVec.ofNat 16 i, BitVec.ofNat 8 j, f (BitVec.ofNat 16 i) (BitVec.ofNat 8 j))), fun p load n h => ?_⟩
  simp only [imageTarget, h]
  rw [entryRow_eq (f := f)]
  · rfl
  · intro r hr
    obtain ⟨i, -, hr⟩ := List.mem_flatMap.1 hr
    obtain ⟨j, -, rfl⟩ := List.mem_map.1 hr
    rfl
  · refine ⟨f load n, List.mem_flatMap.2 ⟨load.toNat, List.mem_range.2 load.isLt, List.mem_map.2 ⟨n.toNat, ?_⟩⟩⟩
    exact ⟨List.mem_range.2 n.isLt, by simp⟩

/-- RAM has no keys and the other regions have a pair (R202). -/
theorem keyPair_none {p : Params} {r : Region} : keyPair p r = none ↔ r = .ram := by
  cases r <;> simp [keyPair]

end Sys2Proof
end

