-- ==== Sys2Proof/Laws/Ops.lean ====
section
/-!
SUPPORT. What each shared operation does, once: memory accesses by the place they fall on, the unlock and lock
brackets, the copy loops, and the frames of all of them.
-/

namespace Sys2Proof.Machine

/-! ## Program cycles -/

theorem abandonCycle_none {s : State} (h : s.nvm.cycle = none) : abandonCycle s = s := by
  simp [abandonCycle, h]

theorem abandonCycle_cycle (s : State) : (abandonCycle s).nvm.cycle = none := by
  unfold abandonCycle; split <;> simp_all

theorem abandonCycle_nvm (s : State) : (abandonCycle s).nvm = { s.nvm with cycle := none } := by
  unfold abandonCycle; split
  · rename_i h; simp [← h]
  · rfl

theorem commitCycle_nvm (s : State) : (commitCycle s).nvm = { s.nvm with cycle := none } := by
  unfold commitCycle; split
  · rename_i h; simp [← h]
  · rfl

/-! ## Memory accesses, by where they fall -/

theorem memWrite_inBuf {s : State} {a : Addr} (v : Byte) (hc : s.nvm.cycle = none)
    (h : inBuf s.cfg a = true) : memWrite a v s = setBuf (bufIndex s.cfg a) v (emit (.memWrite a v) s) := by
  simp [memWrite, abandonCycle_none hc, h]

theorem memWrite_ram {s : State} {a : Addr} (v : Byte) (hc : s.nvm.cycle = none)
    (h : inBuf s.cfg a = false) (hr : classify s.cfg a = .ram) :
    memWrite a v s = { emit (.memWrite a v) s with mem := Memory.write s.mem a.toNat v } := by
  simp [memWrite, abandonCycle_none hc, h, hr]

/-- A non-volatile region refuses stores until it is unlocked (R71). -/
theorem memWrite_locked {s : State} {a : Addr} (v : Byte) (hc : s.nvm.cycle = none)
    (h : inBuf s.cfg a = false) (hr : classify s.cfg a ≠ .ram) (hl : takesStore s (classify s.cfg a) = false) :
    memWrite a v s = emit (.memWrite a v) s := by
  have e : takesStore (emit (.memWrite a v) s) (classify s.cfg a) = false := hl
  unfold memWrite
  simp only [abandonCycle_none hc, emit_fields, h]
  cases hcl : classify s.cfg a <;> simp_all

theorem memWrite_open {s : State} {a : Addr} (v : Byte) (hc : s.nvm.cycle = none)
    (h : inBuf s.cfg a = false) (hr : classify s.cfg a ≠ .ram) (hl : takesStore s (classify s.cfg a) = true) :
    memWrite a v s =
      { emit (.memWrite a v) s with nvm := { s.nvm with cycle := some (a, v) } } := by
  have e : takesStore (emit (.memWrite a v) s) (classify s.cfg a) = true := hl
  unfold memWrite
  simp only [abandonCycle_none hc, emit_fields, h]
  cases hcl : classify s.cfg a <;> simp_all

/-- A read answered by the memory that closes the loop (R79). -/
theorem memRead_closed {s : State} (a : Addr) (hc : s.nvm.cycle = none)
    (hn : (∀ v rest, s.inputs ≠ .memData v :: rest) ∨ inBuf s.cfg a = true) :
    memRead a s = (peek s a, emit (.memRead a) s) := by
  have e : peek (emit (.memRead a) s) a = peek s a := rfl
  unfold memRead
  simp only [abandonCycle_none hc, emit_fields, e]
  split
  · rfl
  · rename_i hb
    split
    · rename_i v rest hi
      rcases hn with hn | hn
      · exact absurd hi (hn v rest)
      · exact absurd hn hb
    · rfl

/-- A read answered by the surroundings (R15). -/
theorem memRead_answered {s : State} (a : Addr) {v : Byte} {rest : List Event} (hc : s.nvm.cycle = none)
    (hb : inBuf s.cfg a = false) (hi : s.inputs = .memData v :: rest) :
    memRead a s = (v, { emit (.memRead a) s with inputs := rest }) := by
  simp [memRead, abandonCycle_none hc, hb, hi]

/-- A store touches the controller only by the program cycle. -/
theorem memWrite_nvm (a : Addr) (v : Byte) (s : State) :
    (memWrite a v s).nvm = { s.nvm with cycle := (memWrite a v s).nvm.cycle } := by
  have h := abandonCycle_nvm s
  unfold memWrite; simp only []
  split
  · simp [h]
  · split
    · simp [h]
    · split <;> simp [h]

theorem memWrite_bufLength (a : Addr) (v : Byte) (s : State) : (memWrite a v s).buf.length = s.buf.length := by
  unfold memWrite; simp only []
  split
  · simp
  · split
    · simp
    · split <;> simp

theorem memRead_nvm (a : Addr) (s : State) : (memRead a s).2.nvm = { s.nvm with cycle := none } := by
  have h := abandonCycle_nvm s
  unfold memRead; simp only []
  split
  · simp [h]
  · split <;> simp [h]

theorem rawStore_bufLength (s : State) (c : Addr × Byte) : (rawStore s c).buf.length = s.buf.length := by
  unfold rawStore; split <;> simp

/-! ## Loading a payload -/

/-- A fetched frame's payload is in `buf` already: loading it again changes nothing (log 17). -/
theorem loadPayload_held (s : State) (k : Nat) : loadPayload (s.buf.take k) s = s := by
  have h : (s.buf.take k ++ s.buf.drop (s.buf.take k).length).take s.buf.length = s.buf := by
    rw [List.length_take]
    rcases Nat.le_total k s.buf.length with h | h
    · rw [Nat.min_eq_left h, List.take_append_drop, List.take_length]
    · rw [Nat.min_eq_right h, List.take_of_length_le h]
      simp
  unfold loadPayload; rw [h]

theorem loadPayload_buf {s : State} {l : List Byte} (h : l.length ≤ s.buf.length) :
    (loadPayload l s).buf = l ++ s.buf.drop l.length := by
  rw [(loadPayload_fields l s).2.2.2.2.2.2.2.2.2.2.2.2.2.2.2.2.2.2.1]
  apply List.take_of_length_le
  simp; omega

theorem loadPayload_bufLength (s : State) (l : List Byte) : (loadPayload l s).buf.length = s.buf.length := by
  simp [loadPayload]; omega

/-! ## The brackets of the write engine -/

/-- What the key sequence leaves of the controller (R45, R48). -/
def keyedNvm (p : Params) (r : Region) (c : NvmController) : NvmController :=
  match r with
  | .ram => c
  | .configNonvolatile => { c with config := ⟨p.key2Config, true⟩ }
  | .mainNonvolatile => { c with main := ⟨p.key2Main, true⟩ }

theorem sendKeys_eq (r : Region) (s : State) :
    sendKeys r s = { s with
      nvm := keyedNvm s.cfg r s.nvm
      trace := s.trace ++ (match keyPair s.cfg r with
        | none => []
        | some (k1, k2) => [.nvmKey r k1, .nvmKey r k2]) } := by
  cases r <;> simp [sendKeys, nvmKey, keyPair, keyedNvm, emit, NvmSide.key]

/-- `unlock()` in one line (R204). -/
theorem unlock_eq (a : Addr) (n : Nat) (s : State) :
    unlock a n s = { s with
      weState := .unlock
      nvm := { keyedNvm s.cfg s.region s.nvm with progMode := s.nvm.progMode || needsArm s.cfg s.region }
      trace := s.trace ++ ((match keyPair s.cfg s.region with
        | none => []
        | some (k1, k2) => [.nvmKey s.region k1, .nvmKey s.region k2]) ++
        (if needsArm s.cfg s.region then [.nvmArm] else []))
      sessionOpen := true
      dst := a
      src := 0
      rem := n
      status := s.cfg.stSuccess } := by
  have hp : (keyedNvm s.cfg s.region s.nvm).progMode = s.nvm.progMode := by
    cases s.region <;> rfl
  unfold unlock
  simp only [sendKeys_eq]
  cases hn : needsArm s.cfg s.region <;> simp [nvmArm, emit, openSession, ← hp]

/-- What lock leaves of the controller (R211). -/
def lockedNvm (p : Params) (r : Region) (c : NvmController) : NvmController :=
  match r with
  | .ram => c
  | .configNonvolatile =>
    { c with
      config := { c.config with enabled := false }
      progMode := c.progMode && !needsArm p .configNonvolatile }
  | .mainNonvolatile => { c with main := { c.main with enabled := false } }

/-- `lock()` in one line (R211), for a region that has a lock. -/
theorem lock_eq {s : State} (hr : s.region ≠ .ram) :
    lock s = { s with
      weState := .idle
      nvm := lockedNvm s.cfg s.region s.nvm
      sessionOpen := false
      trace := s.trace ++ ((if needsArm s.cfg s.region then [.nvmDisarm] else []) ++ [.nvmLock s.region])
      buf := s.buf.set 0 s.status
      txLen := 1
      txIdx := 0
      txState := .hdr
      cuPhase := .respond } := by
  cases hcase : s.region
  · exact absurd hcase hr
  · cases hn : needsArm s.cfg .configNonvolatile <;>
      simp [lock, hcase, hn, nvmDisarm, emit, nvmLock, closeSession, sendStatus, sendResponse, setBuf, lockedNvm]
  · have hn : needsArm s.cfg .mainNonvolatile = false := by simp [needsArm]
    simp [lock, hcase, hn, emit, nvmLock, closeSession, sendStatus, sendResponse, setBuf, lockedNvm]

/-- What lock leaves alone, whatever the region (R211). -/
@[simp] theorem lock_fields (s : State) :
    (lock s).cfg = s.cfg ∧ (lock s).owner = s.owner ∧ (lock s).hsState = s.hsState ∧
    (lock s).hsTimer = s.hsTimer ∧ (lock s).imgLen = s.imgLen ∧ (lock s).imgRem = s.imgRem ∧
    (lock s).imgPtr = s.imgPtr ∧ (lock s).loadAddr = s.loadAddr ∧ (lock s).cuPhase = .respond ∧
    (lock s).rxState = s.rxState ∧ (lock s).weState = .idle ∧ (lock s).txState = .hdr ∧ (lock s).cmd = s.cmd ∧
    (lock s).addr = s.addr ∧ (lock s).len = s.len ∧ (lock s).idx = s.idx ∧ (lock s).cks = s.cks ∧
    (lock s).cksOk = s.cksOk ∧ (lock s).buf = s.buf.set 0 s.status ∧ (lock s).region = s.region ∧
    (lock s).dst = s.dst ∧ (lock s).src = s.src ∧ (lock s).rem = s.rem ∧ (lock s).sessionOpen = false ∧
    (lock s).status = s.status ∧ (lock s).txLen = 1 ∧ (lock s).txIdx = 0 ∧ (lock s).txCks = s.txCks ∧
    (lock s).serialRate = s.serialRate ∧ (lock s).mem = s.mem ∧ (lock s).inputs = s.inputs ∧
    (lock s).freeCount = s.freeCount := by
  by_cases hr : s.region = .ram
  · simp [lock, hr, needsArm, nvmLock, closeSession]
  · rw [lock_eq hr]; simp

/-- After the key sequence (and arming) the controller takes stores to the region (R48, R71). -/
theorem takesStore_unlocked {p : Params} {r : Region} {s : State} (hp : s.cfg = p)
    (hn : s.nvm.enabled r = true) (hm : needsArm p r = true → s.nvm.progMode = true) : takesStore s r = true := by
  subst hp
  simp only [takesStore, hn, Bool.true_and]
  cases h : needsArm s.cfg r
  · rfl
  · simp [hm h]

@[simp] theorem keyedNvm_enabled (p : Params) (r : Region) (c : NvmController) (hr : r ≠ .ram) :
    (keyedNvm p r c).enabled r = true := by
  cases r <;> simp_all [keyedNvm, NvmController.enabled]

@[simp] theorem lockedNvm_enabled (p : Params) (r : Region) (c : NvmController) :
    (lockedNvm p r c).enabled r = false := by
  cases r <;> simp [lockedNvm, NvmController.enabled]

@[simp] theorem keyedNvm_cycle (p : Params) (r : Region) (c : NvmController) : (keyedNvm p r c).cycle = c.cycle := by
  cases r <;> rfl

@[simp] theorem keyedNvm_progMode (p : Params) (r : Region) (c : NvmController) :
    (keyedNvm p r c).progMode = c.progMode := by
  cases r <;> rfl

@[simp] theorem lockedNvm_cycle (p : Params) (r : Region) (c : NvmController) : (lockedNvm p r c).cycle = c.cycle := by
  cases r <;> rfl

/-! ## The copy loops -/

/-- READ's loop keeps everything but `buf`, the answers taken, an unconfirmed cycle and the trace. -/
@[simp] theorem copyIn_fields (a : Addr) (n k : Nat) (s : State) :
    (copyIn a n k s).cfg = s.cfg ∧ (copyIn a n k s).owner = s.owner ∧ (copyIn a n k s).hsState = s.hsState ∧
    (copyIn a n k s).hsTimer = s.hsTimer ∧ (copyIn a n k s).imgLen = s.imgLen ∧
    (copyIn a n k s).imgRem = s.imgRem ∧ (copyIn a n k s).imgPtr = s.imgPtr ∧
    (copyIn a n k s).loadAddr = s.loadAddr ∧ (copyIn a n k s).cuPhase = s.cuPhase ∧
    (copyIn a n k s).rxState = s.rxState ∧ (copyIn a n k s).weState = s.weState ∧
    (copyIn a n k s).cmd = s.cmd ∧ (copyIn a n k s).addr = s.addr ∧ (copyIn a n k s).len = s.len ∧
    (copyIn a n k s).idx = s.idx ∧ (copyIn a n k s).cks = s.cks ∧ (copyIn a n k s).cksOk = s.cksOk ∧
    (copyIn a n k s).region = s.region ∧ (copyIn a n k s).dst = s.dst ∧ (copyIn a n k s).src = s.src ∧
    (copyIn a n k s).rem = s.rem ∧ (copyIn a n k s).sessionOpen = s.sessionOpen ∧
    (copyIn a n k s).status = s.status ∧ (copyIn a n k s).serialRate = s.serialRate ∧
    (copyIn a n k s).txState = s.txState ∧ (copyIn a n k s).txLen = s.txLen ∧
    (copyIn a n k s).txIdx = s.txIdx ∧ (copyIn a n k s).txCks = s.txCks := by
  induction n generalizing k s with
  | zero => simp [copyIn]
  | succ n ih => simp only [copyIn]; simp [ih]

theorem copyIn_bufLength (a : Addr) (n k : Nat) (s : State) : (copyIn a n k s).buf.length = s.buf.length := by
  induction n generalizing k s with
  | zero => rfl
  | succ n ih => simp only [copyIn]; simp [ih]

theorem copyIn_wf (a : Addr) (n k : Nat) {s : State} (h : Memory.wf s.mem = true) :
    Memory.wf (copyIn a n k s).mem = true := by
  induction n generalizing k s with
  | zero => exact h
  | succ n ih => exact ih _ (by simpa using memRead_wf h _)

/-- READ's loop touches the controller only by giving up an unconfirmed cycle. -/
theorem copyIn_nvm (a : Addr) (n k : Nat) (s : State) :
    (copyIn a n k s).nvm = { s.nvm with cycle := (copyIn a n k s).nvm.cycle } := by
  induction n generalizing k s with
  | zero => rfl
  | succ n ih =>
    simp only [copyIn]
    rw [ih]
    simp [memRead_nvm]

theorem copyIn_cycle (a : Addr) (n k : Nat) {s : State} (h : s.nvm.cycle = none) :
    (copyIn a n k s).nvm.cycle = none := by
  induction n generalizing k s with
  | zero => exact h
  | succ n ih => exact ih _ (by simp [memRead_nvm])

/-- WRITE's plain copy keeps everything but `buf`, the memory, the program cycle, the free-value counter and the
trace. -/
@[simp] theorem copyOut_fields (a : Addr) (n k : Nat) (s : State) :
    (copyOut a n k s).cfg = s.cfg ∧ (copyOut a n k s).owner = s.owner ∧ (copyOut a n k s).hsState = s.hsState ∧
    (copyOut a n k s).hsTimer = s.hsTimer ∧ (copyOut a n k s).imgLen = s.imgLen ∧
    (copyOut a n k s).imgRem = s.imgRem ∧ (copyOut a n k s).imgPtr = s.imgPtr ∧
    (copyOut a n k s).loadAddr = s.loadAddr ∧ (copyOut a n k s).cuPhase = s.cuPhase ∧
    (copyOut a n k s).rxState = s.rxState ∧ (copyOut a n k s).weState = s.weState ∧
    (copyOut a n k s).cmd = s.cmd ∧ (copyOut a n k s).addr = s.addr ∧ (copyOut a n k s).len = s.len ∧
    (copyOut a n k s).idx = s.idx ∧ (copyOut a n k s).cks = s.cks ∧ (copyOut a n k s).cksOk = s.cksOk ∧
    (copyOut a n k s).region = s.region ∧ (copyOut a n k s).dst = s.dst ∧ (copyOut a n k s).src = s.src ∧
    (copyOut a n k s).rem = s.rem ∧ (copyOut a n k s).sessionOpen = s.sessionOpen ∧
    (copyOut a n k s).status = s.status ∧ (copyOut a n k s).serialRate = s.serialRate ∧
    (copyOut a n k s).txState = s.txState ∧ (copyOut a n k s).txLen = s.txLen ∧
    (copyOut a n k s).txIdx = s.txIdx ∧ (copyOut a n k s).txCks = s.txCks ∧ (copyOut a n k s).inputs = s.inputs := by
  induction n generalizing k s with
  | zero => simp [copyOut]
  | succ n ih => simp only [copyOut]; simp [ih]

theorem copyOut_bufLength (a : Addr) (n k : Nat) (s : State) : (copyOut a n k s).buf.length = s.buf.length := by
  induction n generalizing k s with
  | zero => rfl
  | succ n ih => simp only [copyOut]; rw [ih, memWrite_bufLength]

theorem copyOut_wf (a : Addr) (n k : Nat) {s : State} (h : Memory.wf s.mem = true) :
    Memory.wf (copyOut a n k s).mem = true := by
  induction n generalizing k s with
  | zero => exact h
  | succ n ih => exact ih _ (memWrite_wf h _ _)

theorem copyOut_nvm (a : Addr) (n k : Nat) (s : State) :
    (copyOut a n k s).nvm = { s.nvm with cycle := (copyOut a n k s).nvm.cycle } := by
  induction n generalizing k s with
  | zero => rfl
  | succ n ih =>
    simp only [copyOut]
    rw [ih, memWrite_nvm]

/-- EXEC's return sequence changes `buf` only. -/
theorem appendSeq_eq (bytes : List Byte) (i : Nat) (s : State) :
    appendSeq bytes i s = { s with buf := (appendSeq bytes i s).buf } := by
  induction bytes generalizing i s with
  | nil => rfl
  | cons b bs ih => simp only [appendSeq]; rw [ih]; rfl

theorem appendSeq_bufLength (bytes : List Byte) (i : Nat) (s : State) :
    (appendSeq bytes i s).buf.length = s.buf.length := by
  induction bytes generalizing i s with
  | nil => rfl
  | cons b bs ih => simp only [appendSeq]; simp [ih]

/-! ## What happened outside -/

/-- The surroundings' stores change `buf` and the memory only. -/
theorem foldl_rawStore_eq (l : List (Addr × Byte)) (s : State) :
    l.foldl rawStore s = { s with buf := (l.foldl rawStore s).buf, mem := (l.foldl rawStore s).mem } := by
  induction l generalizing s with
  | nil => rfl
  | cons c l ih =>
    simp only [List.foldl_cons]
    rw [ih]
    unfold rawStore
    split <;> rfl

theorem foldl_rawStore_bufLength (l : List (Addr × Byte)) (s : State) :
    (l.foldl rawStore s).buf.length = s.buf.length := by
  induction l generalizing s with
  | nil => rfl
  | cons c l ih => simp only [List.foldl_cons]; rw [ih, rawStore_bufLength]

/-- What `applyWorld` changes: `buf`, memory, the controller, serial rate, an unconfirmed cycle (log 8). -/
theorem applyWorld_eq (w : World) (s : State) :
    applyWorld w s = { s with
      buf := (applyWorld w s).buf
      mem := (applyWorld w s).mem
      nvm := ⟨w.config, w.main, w.progMode, none⟩
      serialRate := w.serialRate
      freeCount := (abandonCycle s).freeCount } := by
  unfold applyWorld
  rw [foldl_rawStore_eq]
  simp only [abandonCycle_nvm]
  unfold abandonCycle
  split <;> rfl

theorem applyWorld_bufLength (w : World) (s : State) : (applyWorld w s).buf.length = s.buf.length := by
  unfold applyWorld
  simp only []
  rw [foldl_rawStore_bufLength]
  simp

end Sys2Proof.Machine
end

