-- ==== Sys2Proof/Laws/Step.lean ====
section
/-!
SUPPORT. The step, case by case: what it is for each event at each wait point, what it is without one, how steps
compose into runs, and the inversion of a step.
-/

namespace Sys2Proof.Machine

/-! ## The step -/

theorem step_legal {s : State} (h : s.cfg.Legal) : step s = advance s := by simp [step, h]

theorem legal_of_step {s t : State} (h : step s = .next t) : s.cfg.Legal := by
  unfold step at h
  split at h
  · assumption
  · cases h

theorem step_reset {s : State} {w : World} {rest : List Event} (h : s.cfg.Legal)
    (hi : s.inputs = .reset w :: rest) : step s = .next (resetEvent w { s with inputs := rest }) := by
  simp [step_legal h, advance, hi, takeEvent]

theorem step_cold {s : State} (h : s.cfg.Legal) (hr : ∀ w rest, s.inputs ≠ .reset w :: rest)
    (hc : atColdStart s = true) : step s = .next (coldStart s) := by
  rw [step_legal h]
  unfold advance
  split
  · rename_i w rest hi; exact absurd hi (hr w rest)
  · simp [hc]

theorem step_idle {s : State} (h : s.cfg.Legal) (hi : s.inputs = []) (hc : atColdStart s = false) :
    step s = .next s := by
  simp [step_legal h, advance, hi, hc]

theorem step_event {s : State} {e : Event} {rest : List Event} (h : s.cfg.Legal) (hc : atColdStart s = false)
    (hi : s.inputs = e :: rest) : step s = takeEvent e { s with inputs := rest } := by
  rw [step_legal h]
  unfold advance
  cases e <;> simp [hi, hc]

theorem atColdStart_cu {s : State} (h : s.owner = .cu) : atColdStart s = false := by simp [atColdStart, h]

theorem atColdStart_ext {s : State} (h : s.owner = .ext) : atColdStart s = false := by simp [atColdStart, h]

theorem atColdStart_hs {s : State} (h : s.hsState ≠ .coldStart) (h' : s.hsState ≠ .relocateSelf) :
    atColdStart s = false := by
  simp [atColdStart, h, h']

/-! ## An event where it is awaited -/

theorem step_serialByte {s : State} {b : Byte} {rest : List Event} (h : s.cfg.Legal) (ho : s.owner = .cu)
    (hp : s.cuPhase = .receive) (hi : s.inputs = .rxByte b :: rest) :
    step s = receiveByte b { s with inputs := rest } := by
  rw [step_event h (atColdStart_cu ho) hi]
  simp [takeEvent, waitPoint, ho, hp]

theorem step_txReady {s : State} {rest : List Event} (h : s.cfg.Legal) (ho : s.owner = .cu)
    (hp : s.cuPhase = .respond) (hi : s.inputs = .txReady :: rest) :
    step s = .next (encodeNextByte { s with inputs := rest }) := by
  rw [step_event h (atColdStart_cu ho) hi]
  simp [takeEvent, waitPoint, ho, hp]

theorem step_nvmStatus {s : State} {a : NvmAnswer} {rest : List Event} (h : s.cfg.Legal) (ho : s.owner = .cu)
    (hp : s.cuPhase = .execute) (hw : s.weState = .poll) (hi : s.inputs = .nvmStatus a :: rest) :
    step s = .next (pollAnswer a { s with inputs := rest }) := by
  rw [step_event h (atColdStart_cu ho) hi]
  simp [takeEvent, waitPoint, ho, hp, hw]

theorem step_execReturn {s : State} {w : World} {rest : List Event} (h : s.cfg.Legal) (ho : s.owner = .ext)
    (hp : s.cuPhase = .execWait) (hi : s.inputs = .execReturn w :: rest) :
    step s = execReturn w { s with inputs := rest } := by
  rw [step_event h (atColdStart_ext ho) hi]
  simp [takeEvent, waitPoint, ho, hp]

theorem step_tick {s : State} {rest : List Event} (h : s.cfg.Legal) (ho : s.owner = .hs)
    (hw : s.hsState = .waitAck) (hi : s.inputs = .tick :: rest) :
    step s = .next (tick { s with inputs := rest }) := by
  rw [step_event h (atColdStart_hs (by simp [hw]) (by simp [hw])) hi]
  simp [takeEvent, waitPoint, ho, hw]

theorem step_hsByte {s : State} {b : Byte} {rest : List Event} (h : s.cfg.Legal) (ho : s.owner = .hs)
    (hw : s.hsState = .waitAck ∨ s.hsState = .imgLen ∨ s.hsState = .imgData)
    (hi : s.inputs = .rxByte b :: rest) : step s = hsByte b { s with inputs := rest } := by
  rcases hw with hw | hw | hw <;>
  · rw [step_event h (atColdStart_hs (by simp [hw]) (by simp [hw])) hi]
    simp [takeEvent, waitPoint, ho, hw]

theorem step_hsTxReady {s : State} {rest : List Event} (h : s.cfg.Legal) (ho : s.owner = .hs)
    (hw : s.hsState = .sendSync0 ∨ s.hsState = .sendSync1) (hi : s.inputs = .txReady :: rest) :
    step s = hsTxReady { s with inputs := rest } := by
  rcases hw with hw | hw <;>
  · rw [step_event h (atColdStart_hs (by simp [hw]) (by simp [hw])) hi]
    simp [takeEvent, waitPoint, ho, hw]

/-! ## The handshake unit, state by state -/

theorem hsByte_ack {b : Byte} {s : State} (h : s.hsState = .waitAck) (hb : b = s.cfg.ack) :
    hsByte b s = exec .ack s := by
  simp [hsByte, h, takeToken, decode, decodeToken, hb]

theorem hsByte_discarded {b : Byte} {s : State} (h : s.hsState = .waitAck) (hb : b ≠ s.cfg.ack) :
    hsByte b s = .next s := by
  simp [hsByte, h, takeToken, decode, decodeToken, hb]

theorem hsByte_length {b : Byte} {s : State} (h : s.hsState = .imgLen) (hb : b ≠ 0) :
    hsByte b s = exec (.imgLen b) s := by
  have hb' : ¬ b = 0#8 := hb
  simp [hsByte, h, takeToken, decode, decodeImgLen, hb']

theorem hsByte_image {b : Byte} {s : State} (h : s.hsState = .imgData) : hsByte b s = .next (imgByte b s) := by
  simp [hsByte, h]

theorem hsTxReady_first {s : State} (h : s.hsState = .sendSync0) : hsTxReady s = exec .sync0 s := by
  simp [hsTxReady, h]

theorem hsTxReady_second {s : State} (h : s.hsState = .sendSync1) : hsTxReady s = exec .sync1 s := by
  simp [hsTxReady, h]

theorem tick_running {s : State} (h : s.hsTimer - 1 ≠ 0) : tick s = { s with hsTimer := s.hsTimer - 1 } := by
  simp [tick, timerExpired, h]

theorem tick_expired {s : State} (h : s.hsTimer - 1 = 0) :
    tick s = raise .handshakeTimeout { s with hsTimer := 0 } := by
  simp [tick, timerExpired, h]

theorem execImgLen_eq {n : Byte} (hn : n ≠ 0) (s : State) :
    exec (.imgLen n) s =
      .next { s with
        imgLen := n
        imgRem := n.toNat
        loadAddr := loadAddrOf s.cfg n
        imgPtr := loadAddrOf s.cfg n
        hsState := .imgData } := by
  have hn' : ¬ n = 0#8 := hn
  simp [exec, execImgLen, hn']

/-! ## Runs -/

@[simp] theorem run_zero (s : State) : run 0 s = .next s := rfl

theorem run_next {k : Nat} {s t : State} (h : step s = .next t) : run (k + 1) s = run k t := by
  have e : (Sys2Proof.core).step s = .next t := h
  show Host.Core.run Sys2Proof.core (k + 1) s = Host.Core.run Sys2Proof.core k t
  simp only [Host.Core.run]
  rw [e]

theorem run_one (s : State) : run 1 s = step s := by
  show Host.Core.run Sys2Proof.core 1 s = step s
  have e : (Sys2Proof.core).step s = step s := rfl
  simp only [Host.Core.run]
  rw [e]
  cases step s <;> rfl

theorem run_add {j k : Nat} {s t : State} (h : run j s = .next t) : run (j + k) s = run k t := by
  induction j generalizing s with
  | zero =>
    simp only [run_zero] at h
    cases h
    simp
  | succ j ih =>
    cases hs : step s with
    | next u =>
      rw [run_next hs] at h
      rw [Nat.add_right_comm, run_next hs]
      exact ih h
    | fault r => cases r
    | refused r =>
      have e : (Sys2Proof.core).step s = .refused r := hs
      have h' : Host.Core.run Sys2Proof.core (j + 1) s = .next t := h
      simp only [Host.Core.run] at h'
      rw [e] at h'
      cases h'

theorem run_refused {k : Nat} {s : State} {r : Refusal} (h : step s = .refused r) : run (k + 1) s = .refused r := by
  have e : (Sys2Proof.core).step s = .refused r := h
  show Host.Core.run Sys2Proof.core (k + 1) s = _
  simp only [Host.Core.run]
  rw [e]
  rfl

/-! ## Inversion -/

theorem waitPoint_wRx {s : State} : waitPoint s = some .wRx ↔
    (s.owner = .hs ∧ (s.hsState = .imgLen ∨ s.hsState = .imgData)) ∨ (s.owner = .cu ∧ s.cuPhase = .receive) := by
  unfold waitPoint
  cases s.owner <;> cases s.hsState <;> cases s.cuPhase <;> cases s.weState <;> simp

theorem waitPoint_wTx {s : State} : waitPoint s = some .wTx ↔
    (s.owner = .hs ∧ (s.hsState = .sendSync0 ∨ s.hsState = .sendSync1)) ∨
      (s.owner = .cu ∧ s.cuPhase = .respond) := by
  unfold waitPoint
  cases s.owner <;> cases s.hsState <;> cases s.cuPhase <;> cases s.weState <;> simp

theorem waitPoint_wAck {s : State} : waitPoint s = some .wAck ↔ s.owner = .hs ∧ s.hsState = .waitAck := by
  unfold waitPoint
  cases s.owner <;> cases s.hsState <;> cases s.cuPhase <;> cases s.weState <;> simp

theorem waitPoint_wNvm {s : State} : waitPoint s = some .wNvm ↔
    s.owner = .cu ∧ s.cuPhase = .execute ∧ s.weState = .poll := by
  unfold waitPoint
  cases s.owner <;> cases s.hsState <;> cases s.cuPhase <;> cases s.weState <;> simp

theorem waitPoint_wExec {s : State} : waitPoint s = some .wExec ↔ s.owner = .ext ∧ s.cuPhase = .execWait := by
  unfold waitPoint
  cases s.owner <;> cases s.hsState <;> cases s.cuPhase <;> cases s.weState <;> simp

/-- Everything an event that is taken can be. -/
theorem takeEvent_cases {e : Event} {s t : State} (h : takeEvent e s = .next t) :
    (∃ w, e = .reset w ∧ t = resetEvent w s) ∨
    (∃ b, e = .rxByte b ∧ s.owner = .hs ∧
      (s.hsState = .waitAck ∨ s.hsState = .imgLen ∨ s.hsState = .imgData) ∧ hsByte b s = .next t) ∨
    (∃ b, e = .rxByte b ∧ s.owner = .cu ∧ s.cuPhase = .receive ∧ receiveByte b s = .next t) ∨
    (e = .txReady ∧ s.owner = .hs ∧ (s.hsState = .sendSync0 ∨ s.hsState = .sendSync1) ∧
      hsTxReady s = .next t) ∨
    (e = .txReady ∧ s.owner = .cu ∧ s.cuPhase = .respond ∧ t = encodeNextByte s) ∨
    (∃ a, e = .nvmStatus a ∧ s.owner = .cu ∧ s.cuPhase = .execute ∧ s.weState = .poll ∧ t = pollAnswer a s) ∨
    (e = .tick ∧ s.owner = .hs ∧ s.hsState = .waitAck ∧ t = tick s) ∨
    (∃ w, e = .execReturn w ∧ s.owner = .ext ∧ s.cuPhase = .execWait ∧ execReturn w s = .next t) := by
  unfold takeEvent at h
  split at h
  · rename_i w; cases h; exact .inl ⟨w, rfl, rfl⟩
  · rename_i b
    refine .inr ?_
    split at h
    · rename_i hw
      obtain ⟨ho, hs⟩ := waitPoint_wAck.mp hw
      exact .inl ⟨b, rfl, ho, .inl hs, h⟩
    · rename_i hw
      rcases waitPoint_wRx.mp hw with ⟨ho, hs⟩ | ⟨ho, hs⟩
      · rw [if_pos ho] at h
        exact .inl ⟨b, rfl, ho, .inr hs, h⟩
      · rw [if_neg (by simp [ho])] at h
        exact .inr (.inl ⟨b, rfl, ho, hs, h⟩)
    · cases h
  · split at h
    · rename_i hw
      rcases waitPoint_wTx.mp hw with ⟨ho, hs⟩ | ⟨ho, hs⟩
      · rw [if_pos ho] at h
        exact .inr (.inr (.inr (.inl ⟨rfl, ho, hs, h⟩)))
      · rw [if_neg (by simp [ho])] at h
        cases h
        exact .inr (.inr (.inr (.inr (.inl ⟨rfl, ho, hs, rfl⟩))))
    · cases h
  · rename_i a
    split at h
    · rename_i hw
      obtain ⟨ho, hp, hs⟩ := waitPoint_wNvm.mp hw
      cases h
      exact .inr (.inr (.inr (.inr (.inr (.inl ⟨a, rfl, ho, hp, hs, rfl⟩)))))
    · cases h
  · split at h
    · rename_i hw
      obtain ⟨ho, hs⟩ := waitPoint_wAck.mp hw
      cases h
      exact .inr (.inr (.inr (.inr (.inr (.inr (.inl ⟨rfl, ho, hs, rfl⟩))))))
    · cases h
  · rename_i w
    split at h
    · rename_i hw
      obtain ⟨ho, hs⟩ := waitPoint_wExec.mp hw
      exact .inr (.inr (.inr (.inr (.inr (.inr (.inr ⟨w, rfl, ho, hs, h⟩))))))
    · cases h
  · cases h

/-- Everything a step that goes on can be. -/
theorem step_cases {s t : State} (h : step s = .next t) :
    (∃ w rest, s.inputs = .reset w :: rest ∧ t = resetEvent w { s with inputs := rest }) ∨
    (atColdStart s = true ∧ t = coldStart s) ∨
    (atColdStart s = false ∧ s.inputs = [] ∧ t = s) ∨
    (∃ e rest, (∀ w, e ≠ .reset w) ∧ atColdStart s = false ∧ s.inputs = e :: rest ∧
      takeEvent e { s with inputs := rest } = .next t) := by
  have hl := legal_of_step h
  cases hi : s.inputs with
  | nil =>
    cases hc : atColdStart s with
    | true =>
      rw [step_cold hl (by simp [hi]) hc] at h
      cases h; simp
    | false =>
      rw [step_idle hl hi hc] at h
      cases h; simp
  | cons e rest =>
    by_cases hr : ∃ w, e = .reset w
    · obtain ⟨w, rfl⟩ := hr
      rw [step_reset hl hi] at h
      cases h; exact .inl ⟨w, rest, rfl, rfl⟩
    · cases hc : atColdStart s with
      | true =>
        rw [step_cold hl (by rintro w r' e'; rw [hi] at e'; cases e'; exact hr ⟨w, rfl⟩) hc] at h
        cases h; simp
      | false =>
        rw [step_event hl hc hi] at h
        exact .inr (.inr (.inr ⟨e, rest, fun w hw => hr ⟨w, hw⟩, rfl, rfl, h⟩))

/-! ## What happened outside (R52, U10) -/

/-- A store made outside, `buf` and memory alike. -/
theorem peek_rawStore {s : State} (hb : s.buf.length = s.cfg.bufSize) (hm : Memory.wf s.mem = true) (c : Addr × Byte)
    (x : Addr) : peek (rawStore s c) x = if x = c.1 then c.2 else peek s x := by
  unfold rawStore
  by_cases hc : inBuf s.cfg c.1 = true
  · simp only [hc, if_true]
    by_cases hx : x = c.1
    · subst hx
      simp [peek, hc, setBuf, hb, bufIndex_lt hc]
    · rw [if_neg hx]
      by_cases hxb : inBuf s.cfg x = true
      · have : bufIndex s.cfg c.1 ≠ bufIndex s.cfg x := fun e => hx (bufIndex_inj hxb hc e.symm)
        simp [peek, hxb, setBuf, List.getD_eq_getElem?_getD, List.getElem?_set_ne this]
      · simp [peek, hxb, setBuf]
  · simp only [hc, Bool.false_eq_true, if_false]
    by_cases hxb : inBuf s.cfg x = true
    · have : x ≠ c.1 := fun e => hc (e ▸ hxb)
      simp [peek, hxb, this]
    · simp [peek, hxb, Memory.read_write_addr hm]

/-- What a list of stores made outside leaves to be read (log 8). -/
theorem peek_foldl_rawStore (l : List (Addr × Byte)) (x : Addr) : ∀ {s : State}, s.buf.length = s.cfg.bufSize →
    Memory.wf s.mem = true → peek (l.foldl rawStore s) x = (lastStore l x).getD (peek s x) := by
  induction l with
  | nil => intros; rfl
  | cons c l ih =>
    intro s hb hm
    have hcfg : (rawStore s c).cfg = s.cfg := by unfold rawStore; split <;> rfl
    rw [List.foldl_cons, ih (by rw [rawStore_bufLength, hcfg, hb]) (rawStore_wf hm c), peek_rawStore hb hm]
    obtain ⟨a, v⟩ := c
    simp only [lastStore]
    cases lastStore l x with
    | some u => rfl
    | none => by_cases hx : x = a <;> simp [hx]

/-- What an address reads as once a program cycle is cut off (R207). -/
theorem peek_abandonCycle {s : State} (hm : Memory.wf s.mem = true) (x : Addr) :
    peek (abandonCycle s) x = heldAfterCycle s x := by
  unfold abandonCycle heldAfterCycle
  cases s.nvm.cycle with
  | none => rfl
  | some c => by_cases hx : inBuf s.cfg x = true <;> simp [peek, hx, Memory.read_write_addr hm]

/-- What an address reads as once the surroundings are what the event says (log 8). -/
theorem peek_applyWorld {s : State} (hb : s.buf.length = s.cfg.bufSize) (hm : Memory.wf s.mem = true) (w : World)
    (x : Addr) : peek (applyWorld w s) x = (lastStore w.stores x).getD (heldAfterCycle s x) := by
  rw [← peek_abandonCycle hm, ← peek_foldl_rawStore w.stores x (by simpa using hb) (abandonCycle_wf hm)]
  rfl

end Sys2Proof.Machine
end

