-- ==== Sys2Proof/Laws/Commands.lean ====
section
/-!
SUPPORT. The loops of READ and WRITE and the write engine's steps, once: what each leaves in `buf`, in memory and on the
trace.
-/

namespace Sys2Proof.Machine

/-! ## Places -/

theorem not_inBuf {p : Params} (hp : p.Legal) {a : Addr} (h : classify p a ≠ .ram) : inBuf p a = false := by
  cases hi : inBuf p a with
  | false => rfl
  | true => exact absurd (classify_of_inBuf hp hi) h

/-- Byte `k` of `buf` lies at `BUF_BASE + k` (R69). -/
theorem inBuf_bufBase {p : Params} (hp : p.Legal) {k : Nat} (hk : k < p.bufSize) :
    inBuf p (addrPlus p.bufBase k) = true ∧ bufIndex p (addrPlus p.bufBase k) = k := by
  have h := hp.bufSize_lt
  have e : (addrPlus p.bufBase k).toNat = p.bufBase.toNat + k := by
    rw [addrPlus_toNat, Nat.mod_eq_of_lt (by omega)]
  rw [inBuf_iff]
  unfold bufIndex
  rw [e]
  omega

/-- The image lies flush under `RAM_TOP` (R251). -/
theorem loadAddrOf_toNat {p : Params} (hp : p.Legal) (n : Byte) :
    (loadAddrOf p n).toNat + n.toNat = p.ramTop.toNat := by
  have h := hp.image_room
  have hn := n.isLt
  have hr := p.ramTop.isLt
  unfold loadAddrOf
  rw [BitVec.toNat_sub]
  simp only [BitVec.toNat_setWidth]
  omega

theorem loadPayload_eq {s : State} {l : List Byte} (h : l.length ≤ s.buf.length) :
    loadPayload l s = { s with buf := l ++ s.buf.drop l.length } := by
  have e := loadPayload_buf h
  unfold loadPayload at e ⊢
  simp only [] at e
  rw [e]

/-! ## READ -/

theorem readActions_succ (a : Addr) (n k : Nat) :
    (List.range' k (n + 1)).map (fun k => Action.memRead (addrPlus a k)) =
      .memRead (addrPlus a k) :: (List.range' (k + 1) n).map (fun k => Action.memRead (addrPlus a k)) := by
  simp [List.range'_succ]

/-- READ's loop, every form: bytes outside `buf`'s range take the pending answers in order and then what the closing
memory holds; bytes inside it read `buf` as it then is (R169, R15, R79, R344 (b)). -/
theorem copyIn_spec (a : Addr) (vs : List Byte) (rest : List Event) (hn : noAnswerPending rest = true) (n : Nat) :
    ∀ (k : Nat) (s : State), s.buf.length = s.cfg.bufSize →
    k + n ≤ s.cfg.bufSize → s.nvm.cycle = none →
    s.inputs = (vs.drop (outsideBefore s.cfg a k)).map .memData ++ rest →
    ∃ b, copyIn a n k s =
        { s with
          buf := b
          inputs := (vs.drop (outsideBefore s.cfg a (k + n))).map .memData ++ rest
          trace := s.trace ++ (List.range' k n).map fun k => .memRead (addrPlus a k) } ∧
      b.length = s.buf.length ∧
      (∀ j, j < k ∨ k + n ≤ j → b[j]? = s.buf[j]?) ∧
      (∀ j, k ≤ j → j < k + n → inBuf s.cfg (addrPlus a j) = false →
        b.getD j 0 = vs.getD (outsideBefore s.cfg a j) (Memory.read s.mem (addrPlus a j).toNat)) ∧
      (∀ j, k ≤ j → j < k + n → inBuf s.cfg (addrPlus a j) = true → bufIndex s.cfg (addrPlus a j) < j →
        b.getD j 0 = b.getD (bufIndex s.cfg (addrPlus a j)) 0) ∧
      (∀ j, k ≤ j → j < k + n → inBuf s.cfg (addrPlus a j) = true → j ≤ bufIndex s.cfg (addrPlus a j) →
        b.getD j 0 = s.buf.getD (bufIndex s.cfg (addrPlus a j)) 0) := by
  induction n with
  | zero =>
    intro k s hb hk hc hi
    refine ⟨s.buf, by rw [Nat.add_zero, ← hi]; simp [copyIn], rfl, by simp, ?_, ?_, ?_⟩
    all_goals (intros; omega)
  | succ n ih =>
    intro k s hb hk hc hi
    -- the byte this round reads, and the events it leaves
    obtain ⟨v, es, hr, hes, hvo, hvi⟩ : ∃ v es, memRead (addrPlus a k) s =
          (v, { emit (.memRead (addrPlus a k)) s with inputs := es }) ∧
        es = (vs.drop (outsideBefore s.cfg a (k + 1))).map .memData ++ rest ∧
        (inBuf s.cfg (addrPlus a k) = false →
          v = vs.getD (outsideBefore s.cfg a k) (Memory.read s.mem (addrPlus a k).toNat)) ∧
        (inBuf s.cfg (addrPlus a k) = true → v = s.buf.getD (bufIndex s.cfg (addrPlus a k)) 0) := by
      have hnext : outsideBefore s.cfg a (k + 1) =
          outsideBefore s.cfg a k + if inBuf s.cfg (addrPlus a k) = true then 0 else 1 := rfl
      cases hbk : inBuf s.cfg (addrPlus a k) with
      | true =>
        exact ⟨_, s.inputs, memRead_closed _ hc (.inr hbk), by rw [hnext, hbk]; exact hi, nofun,
          fun _ => by simp [peek, hbk]⟩
      | false =>
        by_cases hlt : outsideBefore s.cfg a k < vs.length
        · rw [List.drop_eq_getElem_cons hlt] at hi
          exact ⟨_, _, memRead_answered _ hc hbk hi, by rw [hnext, hbk]; rfl,
            fun _ => (List.getD_eq_getElem _ _ hlt).symm, nofun⟩
        · rw [List.drop_of_length_le (by omega)] at hi
          refine ⟨_, s.inputs, memRead_closed _ hc (.inl ?_), ?_, fun _ => ?_, nofun⟩
          · intro v es e
            rw [hi] at e
            simp only [List.map_nil, List.nil_append] at e
            simp [noAnswerPending, e] at hn
          · rw [hnext, hbk, hi, List.drop_of_length_le (by simp; omega)]
          · rw [peek, if_neg (by simp [hbk]), List.getD_eq_default _ _ (by omega)]
    simp only [copyIn, hr]
    set s1 := setBuf k v { emit (.memRead (addrPlus a k)) s with inputs := es }
    have f1 : s1.buf = s.buf.set k v := rfl
    have f2 : s1.cfg = s.cfg := rfl
    have f3 : s1.mem = s.mem := rfl
    obtain ⟨b, g1, g2, g3, g4, g5, g6⟩ := ih (k + 1) s1 (by simp [f1, f2, hb]) (by rw [f2]; omega) hc hes
    rw [f2, f3] at g4; rw [f2] at g5 g6
    rw [f1] at g3 g6
    have hbk : b.getD k 0 = v := by
      rw [List.getD_eq_getElem?_getD, g3 k (by omega)]
      simp [hb, show k < s.cfg.bufSize by omega]
    refine ⟨b, ?_, by simpa [f1] using g2, ?_, ?_, ?_, ?_⟩
    · rw [g1, readActions_succ]; simp [s1, setBuf, emit, Nat.add_assoc, Nat.add_comm 1]
    · intro j hj
      rw [g3 j (by omega), List.getElem?_set_ne (by omega)]
    · intro j h1 h2 h3
      by_cases hj : j = k
      · subst hj; rw [hbk]; exact hvo h3
      · exact g4 j (by omega) (by omega) h3
    · intro j h1 h2 h3 h4
      by_cases hj : j = k
      · subst hj; rw [hbk, hvi h3]
        rw [List.getD_eq_getElem?_getD, List.getD_eq_getElem?_getD, g3 _ (by omega),
          List.getElem?_set_ne (by omega)]
      · exact g5 j (by omega) (by omega) h3 h4
    · intro j h1 h2 h3 h4
      by_cases hj : j = k
      · subst hj; rw [hbk]; exact hvi h3
      · rw [g6 j (by omega) (by omega) h3 h4]
        rw [List.getD_eq_getElem?_getD, List.getD_eq_getElem?_getD, List.getElem?_set_ne (by omega)]

/-- READ's loop where the closing memory answers every byte outside `buf` (R79). -/
theorem copyIn_closed (a : Addr) (n k : Nat) (s : State) (hb : s.buf.length = s.cfg.bufSize)
    (hk : k + n ≤ s.cfg.bufSize) (hc : s.nvm.cycle = none) (hn : noAnswerPending s.inputs = true) :
    ∃ b, copyIn a n k s =
        { s with buf := b, trace := s.trace ++ (List.range' k n).map fun k => .memRead (addrPlus a k) } ∧
      b.length = s.buf.length ∧
      (∀ j, j < k ∨ k + n ≤ j → b[j]? = s.buf[j]?) ∧
      (∀ j, k ≤ j → j < k + n → inBuf s.cfg (addrPlus a j) = false →
        b.getD j 0 = Memory.read s.mem (addrPlus a j).toNat) ∧
      (∀ j, k ≤ j → j < k + n → inBuf s.cfg (addrPlus a j) = true → bufIndex s.cfg (addrPlus a j) < j →
        b.getD j 0 = b.getD (bufIndex s.cfg (addrPlus a j)) 0) ∧
      (∀ j, k ≤ j → j < k + n → inBuf s.cfg (addrPlus a j) = true → j ≤ bufIndex s.cfg (addrPlus a j) →
        b.getD j 0 = s.buf.getD (bufIndex s.cfg (addrPlus a j)) 0) := by
  simpa using copyIn_spec a [] s.inputs hn n k s hb hk hc (by simp)

/-- READ's loop where the surroundings answer (R15). -/
theorem copyIn_answered (a : Addr) (vs : List Byte) : ∀ (before d : List Byte) (s : State) (rest : List Event),
    s.nvm.cycle = none →
    (∀ j, before.length ≤ j → j < before.length + vs.length → inBuf s.cfg (addrPlus a j) = false) →
    s.buf = before ++ d → vs.length ≤ d.length → s.inputs = vs.map .memData ++ rest →
    copyIn a vs.length before.length s =
      { s with
        buf := before ++ vs ++ d.drop vs.length
        inputs := rest
        trace := s.trace ++ (List.range' before.length vs.length).map fun k => .memRead (addrPlus a k) } := by
  induction vs with
  | nil =>
    intro before d s rest _ _ hb _ hi
    simp at hi; subst hi; simp [copyIn, ← hb]
  | cons v vs ih =>
    intro before d s rest hc hcl hb hd hi
    cases d with
    | nil => simp at hd
    | cons x d =>
      have hr := memRead_answered (s := s) (addrPlus a before.length) hc (hcl _ (by omega) (by simp))
        (by simpa using hi)
      simp only [List.length_cons, copyIn, hr]
      have := ih (before ++ [v]) d
        (setBuf before.length v
          { emit (.memRead (addrPlus a before.length)) s with inputs := vs.map .memData ++ rest }) rest hc
        (by intro j h1 h2; simp at h1 h2; exact hcl j (by omega) (by simp; omega)) (by simp [hb])
        (by simpa using hd) rfl
      simp only [List.length_append, List.length_singleton] at this
      rw [this, readActions_succ]
      simp [emit, setBuf]

/-! ## WRITE, the plain copy -/

/-- The plain copy where every byte falls in RAM outside `buf` (R170). -/
theorem copyOut_ram (a : Addr) (l : List Byte) : ∀ (k : Nat) (s : State),
    s.nvm.cycle = none → Memory.wf s.mem = true → k + l.length ≤ 65536 → l = (s.buf.drop k).take l.length →
    (∀ j, k ≤ j → j < k + l.length →
      inBuf s.cfg (addrPlus a j) = false ∧ classify s.cfg (addrPlus a j) = .ram) →
    ∃ m, copyOut a l.length k s = { s with mem := m, trace := s.trace ++ storeActions a k l } ∧
      (∀ j, j < l.length → Memory.read m (addrPlus a (k + j)).toNat = l.getD j 0) ∧
      (∀ x : Addr, (∀ j, j < l.length → x ≠ addrPlus a (k + j)) →
        Memory.read m x.toNat = Memory.read s.mem x.toNat) := by
  induction l with
  | nil => intro k s hc hw _ _ _; exact ⟨s.mem, by simp [copyOut, storeActions], by simp, by simp⟩
  | cons b l ih =>
    intro k s hc hw hk hl hcl
    have hlt : k < s.buf.length := by
      by_contra h
      rw [List.drop_of_length_le (by omega)] at hl; simp at hl
    rw [List.drop_eq_getElem_cons hlt] at hl
    simp only [List.length_cons, List.take_succ_cons, List.cons.injEq] at hl hk
    obtain ⟨hb, hl⟩ := hl
    have hg : s.buf.getD k 0 = b := by rw [List.getD_eq_getElem _ _ hlt, hb]
    obtain ⟨c1, c2⟩ := hcl k (by omega) (by simp)
    simp only [List.length_cons, copyOut, hg]
    rw [memWrite_ram b hc c1 c2]
    obtain ⟨m, g1, g2, g3⟩ := ih (k + 1)
      { emit (.memWrite (addrPlus a k) b) s with mem := Memory.write s.mem (addrPlus a k).toNat b } hc
      (Memory.wf_write hw _ _) (by omega) hl
      (by intro j h1 h2; exact hcl j (by omega) (by simp; omega))
    refine ⟨m, ?_, ?_, ?_⟩
    · rw [g1]; simp [emit, storeActions]
    · intro j hj
      cases j with
      | zero =>
        rw [Nat.add_zero, g3 _ ?_]
        · simp only [Memory.read_write_addr hw]; simp
        · intro j hj' e
          simp at hj hj'
          have := addrPlus_inj (by omega) (by omega) e
          omega
      | succ j =>
        have := g2 j (by simpa using hj)
        rw [show k + (j + 1) = k + 1 + j by omega, this]; simp
    · intro x hx
      rw [g3 x ?_]
      · simp only [Memory.read_write_addr hw]
        rw [if_neg (by have := hx 0 (by simp); simpa using this)]
      · intro j hj
        have := hx (j + 1) (by simpa using hj)
        rwa [show k + 1 + j = k + (j + 1) by omega]

/-- With both regions locked, no cycle in progress: a store changes `buf`, memory and the trace only (R71). -/
theorem memWrite_allLocked {s : State} {a : Addr} (v : Byte) (hc : s.nvm.cycle = none)
    (h1 : s.nvm.config.enabled = false) (h2 : s.nvm.main.enabled = false) :
    memWrite a v s =
      { s with
        buf := (memWrite a v s).buf
        mem := (memWrite a v s).mem
        trace := s.trace ++ [.memWrite a v] } := by
  by_cases hi : inBuf s.cfg a = true
  · rw [memWrite_inBuf v hc hi]; rfl
  · have hi : inBuf s.cfg a = false := by simpa using hi
    by_cases hr : classify s.cfg a = .ram
    · rw [memWrite_ram v hc hi hr]; rfl
    · rw [memWrite_locked v hc hi hr]; · rfl
      cases h : classify s.cfg a <;> simp [takesStore, NvmController.enabled, h1, h2]

/-! ## EXEC -/

/-- The return sequence lies right after the payload (R173). -/
theorem appendSeq_after (r : List Byte) : ∀ (l d : List Byte) (s : State), s.buf = l ++ d → r.length ≤ d.length →
    (appendSeq r l.length s).buf = l ++ r ++ d.drop r.length := by
  induction r with
  | nil => intro l d s h _; simp [appendSeq, h]
  | cons b bs ih =>
    intro l d s h hd
    cases d with
    | nil => simp at hd
    | cons x xs =>
      simp only [appendSeq]
      have := ih (l ++ [b]) xs (setBuf l.length b s) (by simp [h]) (by simpa using hd)
      simpa using this

/-! ## The write engine -/

/-- The state `unlock` leaves for a WRITE of `l` to `a` (R204). -/
def opened (a : Addr) (l : List Byte) (s : State) : State :=
  { s with
    region := classify s.cfg a
    buf := l ++ s.buf.drop l.length
    weState := .unlock
    nvm :=
      { keyedNvm s.cfg (classify s.cfg a) s.nvm with
        progMode := s.nvm.progMode || needsArm s.cfg (classify s.cfg a) }
    trace := s.trace ++ unlockActions s.cfg (classify s.cfg a)
    sessionOpen := true
    dst := a
    src := 0
    rem := l.length
    status := s.cfg.stSuccess }

theorem exec_writeNvm_eq {s : State} {a : Addr} {l : List Byte} (h : l.length ≤ s.buf.length) :
    exec (.writeNvm a l) s = .next (programNext (opened a l s)) := by
  show Host.Outcome.next
    (programNext (unlock a l.length (loadPayload l { s with region := classify s.cfg a }))) = _
  rw [loadPayload_eq (s := { s with region := classify s.cfg a }) h, unlock_eq]
  rfl

theorem takesStore_opened {s : State} {a : Addr} (l : List Byte) (hr : classify s.cfg a ≠ .ram) :
    takesStore (opened a l s) (classify s.cfg a) = true := by
  refine takesStore_unlocked (p := s.cfg) (s := opened a l s) rfl ?_ ?_
  · show (keyedNvm s.cfg (classify s.cfg a) s.nvm).enabled (classify s.cfg a) = true
    exact keyedNvm_enabled _ _ _ hr
  · intro h; simp [opened, h]

/-- One store and its poll (R205). -/
theorem programNext_store {s : State} (hr : s.rem ≠ 0) (hc : s.nvm.cycle = none) (hb : inBuf s.cfg s.dst = false)
    (hcl : classify s.cfg s.dst ≠ .ram) (ht : takesStore s (classify s.cfg s.dst) = true) :
    programNext s = { s with
      weState := .poll
      nvm := { s.nvm with cycle := some (s.dst, s.buf.getD s.src 0) }
      trace := s.trace ++ [.memWrite s.dst (s.buf.getD s.src 0), .nvmPoll s.region] } := by
  unfold programNext
  rw [if_neg hr]
  simp only [memWrite_open (s := { s with weState := .store }) (s.buf.getD s.src 0) hc hb hcl ht]
  simp [emit]

/-- A store whose address lies outside `buf`'s range leaves `buf` alone, whatever the region (R69). -/
theorem memWrite_buf_outside {s : State} {a : Addr} (v : Byte) (h : inBuf s.cfg a = false) :
    (memWrite a v s).buf = s.buf := by
  simp only [memWrite, emit, abandonCycle_fields, h, Bool.false_eq_true, if_false]
  split
  · simp
  · split <;> simp

theorem programNext_done {s : State} (hr : s.rem = 0) : programNext s = lock s := by simp [programNext, hr]

theorem programNext_cfg (s : State) : (programNext s).cfg = s.cfg := by
  unfold programNext
  split <;> simp

end Sys2Proof.Machine
end

