-- ==== Sys2Proof/Laws/Frames.lean ====
section
/-!
SUPPORT. The frame decoder and encoder, once: what a command frame and a response decode to, the parts of a command
instruction, and how a changed byte moves the exclusive or.
-/

namespace Sys2Proof

open Machine (commandParts)

theorem decodeTail_complete (p : Params) (c : Byte) (a : Addr) (n : Byte) (l : List Byte) (k : Byte) (rest : List Byte)
    (hl : l.length = wireN p c n) :
    decodeTail p c a n (l ++ k :: rest) =
      .ok (frameInstr p ⟨c, a, n, l⟩ k (k == frameChecksum p c a n l), rest) := by
  have e1 : (l ++ k :: rest).drop (wireN p c n) = k :: rest := by rw [← hl]; simp
  have e2 : (l ++ k :: rest).take (wireN p c n) = l := by rw [← hl]; simp
  simp only [decodeTail, e1, e2]

/-- A whole command frame decodes to the instruction its fields and its verdict select (R91, R166). -/
theorem decodeCommand_complete (p : Params) (c : Byte) (a : Addr) (n : Byte) (l : List Byte) (k : Byte)
    (rest : List Byte) (hn : n.toNat ≤ p.maxPayload) (hl : l.length = wireN p c n) :
    decodeCommand p (framePrefix p c a n ++ l ++ [k] ++ rest) =
      .ok (frameInstr p ⟨c, a, n, l⟩ k (k == frameChecksum p c a n l), rest) := by
  have := decodeTail_complete p c a n l k rest hl
  simp [framePrefix, decodeCommand, Nat.not_lt.mpr hn, this]

/-- A response decodes to its payload (R99), if that fits `MAX_PAYLOAD` or has one byte, as a status response has
whatever `MAX_PAYLOAD` is (R100; the model's choice, log 21). -/
theorem decodeResponse_encode {p : Params} (hp : p.Legal) (l rest : List Byte)
    (hl : l.length ≤ p.maxPayload ∨ l.length = 1) :
    decodeResponse p (encodeResponse p l ++ rest) = .ok (l, rest) := by
  have hm := hp.maxPayload_le
  have h1 := lenByte_toNat (l := l) (by omega)
  have h2 : ¬ (p.maxPayload < (lenByte l).toNat ∧ lenByte l ≠ 1) := by
    rintro ⟨ha, hb⟩
    rcases hl with hl | hl
    · omega
    · exact hb (BitVec.eq_of_toNat_eq (by simp [h1, hl]))
  simp only [encodeResponse, decodeResponse, List.cons_append]
  rw [if_neg (by simp), if_neg h2]
  have e1 : (l ++ [xorBytes (p.respHeader :: lenByte l :: l)] ++ rest).drop (lenByte l).toNat =
      xorBytes (p.respHeader :: lenByte l :: l) :: rest := by rw [h1]; simp
  have e2 : (l ++ [xorBytes (p.respHeader :: lenByte l :: l)] ++ rest).take (lenByte l).toNat = l := by
    rw [h1]; simp
  simp only [e1, e2, if_true]

/-- Everything about the frame of a well-formed command instruction: its length fits, its payload is what goes on
the wire, its encoding, and that the execute stage's sorting gives the instruction back. -/
theorem commandParts_spec {p : Params} {i : Instr} {f : CommandFrame} {k : Byte} (hp : p.Legal)
    (hw : wellFormed p i = true) (h : commandParts p i = some (f, k)) :
    f.len.toNat ≤ p.maxPayload ∧ f.payload.length = wireN p f.cmd f.len ∧
    encode p i = framePrefix p f.cmd f.addr f.len ++ f.payload ++ [k] ∧
    frameInstr p f k (k == frameChecksum p f.cmd f.addr f.len f.payload) = i ∧ streamOf i = .command := by
  have hm := hp.maxPayload_le
  obtain ⟨o1, o2, o3, o4, o5, o6⟩ := hp.opcodes
  cases i with
  | read a n =>
    simp [commandParts] at h; obtain ⟨rfl, rfl⟩ := h
    simp [wellFormed] at hw
    simp [encode, encodeFrame, frameInstr, wireN, hw, streamOf]
  | writeRam a l =>
    simp [commandParts] at h; obtain ⟨rfl, rfl⟩ := h
    simp [wellFormed, lengthFits] at hw
    have := lenByte_toNat (l := l) (by omega)
    simp [encode, encodeFrame, frameInstr, wireN, hw, streamOf, this, o1.symm]
  | writeNvm a l =>
    simp [commandParts] at h; obtain ⟨rfl, rfl⟩ := h
    simp [wellFormed, lengthFits] at hw
    have := lenByte_toNat (l := l) (by omega)
    simp [encode, encodeFrame, frameInstr, wireN, hw, streamOf, this, o1.symm]
  | go a l =>
    simp [commandParts] at h; obtain ⟨rfl, rfl⟩ := h
    simp [wellFormed, lengthFits] at hw
    have := lenByte_toNat (l := l) (by omega)
    simp [encode, encodeFrame, frameInstr, wireN, hw, streamOf, this, o2.symm, o4.symm]
  | execPayload a l =>
    simp [commandParts] at h; obtain ⟨rfl, rfl⟩ := h
    simp [wellFormed, lengthFits] at hw
    have := lenByte_toNat (l := l) (by omega)
    simp [encode, encodeFrame, frameInstr, wireN, hw, streamOf, this, o3.symm, o5.symm, o6.symm]
  | invalid c a l =>
    simp [commandParts] at h; obtain ⟨rfl, rfl⟩ := h
    simp [wellFormed, lengthFits, assigned] at hw
    have := lenByte_toNat (l := l) (by omega)
    simp [encode, encodeFrame, frameInstr, wireN, hw, streamOf, this]
  | checksumError c a n l x =>
    simp [commandParts] at h; obtain ⟨rfl, rfl⟩ := h
    simp [wellFormed] at hw
    simp [encode, frameInstr, hw, streamOf]
  | statusSuccess => simp [commandParts] at h
  | statusChecksumError => simp [commandParts] at h
  | statusInvalidCommand => simp [commandParts] at h
  | statusProgrammingProtected => simp [commandParts] at h
  | data l => simp [commandParts] at h
  | sync0 => simp [commandParts] at h
  | sync1 => simp [commandParts] at h
  | ack => simp [commandParts] at h
  | imgLen n => simp [commandParts] at h

/-- Replacing one byte moves the exclusive or by the difference. -/
theorem xorBytes_set (l : List Byte) (j : Nat) (b : Byte) (h : j < l.length) :
    xorBytes (l.set j b) = xorBytes l ^^^ l[j] ^^^ b := by
  induction l generalizing j with
  | nil => simp at h
  | cons x xs ih =>
    cases j with
    | zero =>
      simp only [List.set_cons_zero, xorBytes_cons, List.getElem_cons_zero]
      have e : ∀ a c d : Byte, c ^^^ d = a ^^^ d ^^^ a ^^^ c := by
        intro a c d
        rw [BitVec.xor_comm a d, BitVec.xor_assoc d a a]
        simp [BitVec.xor_comm]
      exact e x b _
    | succ j =>
      simp only [List.set_cons_succ, xorBytes_cons, ih j (by simpa using h), List.getElem_cons_succ,
        BitVec.xor_assoc]

/-- One more byte of `buf` taken: what the decoder's running checksum needs. -/
theorem take_set_succ (l : List Byte) (i : Nat) (b : Byte) (h : i < l.length) :
    (l.set i b).take (i + 1) = l.take i ++ [b] := by
  rw [List.take_add_one, List.take_set_of_le (Nat.le_refl i)]
  simp [h]

end Sys2Proof
end

