-- ==== Sys2Proof/Laws/PerInstr.lean ====
section
/-!
SUPPORT. A law of every instruction as syntax: how its encoding begins and whether it is one byte (30_encoding.md R91,
R99, R108), one lemma a constructor.
-/

namespace Sys2Proof.Laws.EncodingHeader

/-- A command frame begins with `CMD_HEADER` and has at least 6 bytes, a response with `RESP_HEADER` and at least 3,
a handshake token is one byte (R91, R98, R99, R108). -/
def Statement (i : Instr) : Prop :=
  ∀ p : Params,
    (streamOf i = .command → (encode p i).head? = some p.cmdHeader ∧ 6 ≤ (encode p i).length) ∧
    (streamOf i = .statusReply ∨ streamOf i = .dataReply →
      (encode p i).head? = some p.respHeader ∧ 3 ≤ (encode p i).length) ∧
    (streamOf i = .sync0 ∨ streamOf i = .sync1 ∨ streamOf i = .ack ∨ streamOf i = .imgLen →
      (encode p i).length = 1)

theorem frame_header (p : Params) (c : Byte) (a : Addr) (n : Byte) (l : List Byte) :
    (encodeFrame p c a n l).head? = some p.cmdHeader ∧ 6 ≤ (encodeFrame p c a n l).length := by
  simp [encodeFrame, framePrefix]

theorem response_header (p : Params) (l : List Byte) :
    (encodeResponse p l).head? = some p.respHeader ∧ 3 ≤ (encodeResponse p l).length := by
  simp [encodeResponse]

theorem read (a : Addr) (n : Byte) : Statement (.read a n) := fun p =>
  ⟨fun _ => frame_header .., by simp [streamOf], by simp [streamOf]⟩

theorem writeRam (a : Addr) (l : List Byte) : Statement (.writeRam a l) := fun p =>
  ⟨fun _ => frame_header .., by simp [streamOf], by simp [streamOf]⟩

theorem writeNvm (a : Addr) (l : List Byte) : Statement (.writeNvm a l) := fun p =>
  ⟨fun _ => frame_header .., by simp [streamOf], by simp [streamOf]⟩

theorem go (a : Addr) (l : List Byte) : Statement (.go a l) := fun p =>
  ⟨fun _ => frame_header .., by simp [streamOf], by simp [streamOf]⟩

theorem execPayload (a : Addr) (l : List Byte) : Statement (.execPayload a l) := fun p =>
  ⟨fun _ => frame_header .., by simp [streamOf], by simp [streamOf]⟩

theorem invalid (c : Byte) (a : Addr) (l : List Byte) : Statement (.invalid c a l) := fun p =>
  ⟨fun _ => frame_header .., by simp [streamOf], by simp [streamOf]⟩

theorem checksumError (c : Byte) (a : Addr) (n : Byte) (l : List Byte) (k : Byte) :
    Statement (.checksumError c a n l k) := fun p =>
  ⟨fun _ => by simp [encode, framePrefix], by simp [streamOf], by simp [streamOf]⟩

theorem statusSuccess : Statement .statusSuccess := fun p =>
  ⟨by simp [streamOf], fun _ => response_header .., by simp [streamOf]⟩

theorem statusChecksumError : Statement .statusChecksumError := fun p =>
  ⟨by simp [streamOf], fun _ => response_header .., by simp [streamOf]⟩

theorem statusInvalidCommand : Statement .statusInvalidCommand := fun p =>
  ⟨by simp [streamOf], fun _ => response_header .., by simp [streamOf]⟩

theorem statusProgrammingProtected : Statement .statusProgrammingProtected := fun p =>
  ⟨by simp [streamOf], fun _ => response_header .., by simp [streamOf]⟩

theorem data (l : List Byte) : Statement (.data l) := fun p =>
  ⟨by simp [streamOf], fun _ => response_header .., by simp [streamOf]⟩

theorem sync0 : Statement .sync0 := fun p => ⟨by simp [streamOf], by simp [streamOf], fun _ => rfl⟩

theorem sync1 : Statement .sync1 := fun p => ⟨by simp [streamOf], by simp [streamOf], fun _ => rfl⟩

theorem ack : Statement .ack := fun p => ⟨by simp [streamOf], by simp [streamOf], fun _ => rfl⟩

theorem imgLen (n : Byte) : Statement (.imgLen n) := fun p => ⟨by simp [streamOf], by simp [streamOf], fun _ => rfl⟩

end Sys2Proof.Laws.EncodingHeader
end

