-- ==== Sys2Proof/Tests/Slice0.lean ====
section
/-!
SUPPORT. The model's own tests. Expected values are from spec/95_test_vectors.md (V…, E…, P…) and spec/30_encoding.md,
under its record T, or worked out by hand from the rule named. Then one witness a statement: a concrete state and
operands that meet all its hypotheses.
-/

namespace Sys2Proof.Tests

open Sys2Proof.Machine

/-- The record T of 95_test_vectors.md. -/
abbrev recT : Params := Params.illustration

/-! ## WellFormed refuses an ill-formed term of each kind -/

theorem test_wellFormed_read_too_long : wellFormed recT (.read 0 65) = false := by decide

theorem test_wellFormed_writeRam_not_ram : wellFormed recT (.writeRam 0x4000 []) = false := by decide

theorem test_wellFormed_writeRam_too_long : wellFormed recT (.writeRam 0 (List.replicate 65 0)) = false := by decide

theorem test_wellFormed_writeNvm_ram : wellFormed recT (.writeNvm 0x3FFF []) = false := by decide

theorem test_wellFormed_writeNvm_too_long :
    wellFormed recT (.writeNvm 0x8000 (List.replicate 65 0)) = false := by decide

theorem test_wellFormed_go_too_long : wellFormed recT (.go 0 (List.replicate 65 0)) = false := by decide

theorem test_wellFormed_exec_too_long : wellFormed recT (.execPayload 0 (List.replicate 65 0)) = false := by decide

theorem test_wellFormed_invalid_assigned : wellFormed recT (.invalid 0xF3 0 []) = false := by decide

theorem test_wellFormed_invalid_too_long : wellFormed recT (.invalid 0 0 (List.replicate 65 0)) = false := by decide

theorem test_wellFormed_checksumError_right_checksum :
    wellFormed recT (.checksumError 0xF1 0x8000 4 [] 0x2F) = false := by decide

theorem test_wellFormed_checksumError_wrong_count :
    wellFormed recT (.checksumError 0xF2 0 1 [] 0) = false := by decide

theorem test_wellFormed_checksumError_too_long :
    wellFormed recT (.checksumError 0xF1 0 65 [] 0) = false := by decide

theorem test_wellFormed_data_too_long : wellFormed recT (.data (List.replicate 65 0)) = false := by decide

theorem test_wellFormed_imgLen_zero : wellFormed recT (.imgLen 0) = false := by decide

/-! ## Words written out from the encodings (R91, R99, R108) -/

/-- What the decoder reads, where it reads something. -/
def decoded (at_ : Stream) (bytes : List Byte) : Option (Instr × List Byte) :=
  match decode recT at_ bytes with
  | .ok r => some r
  | .error _ => none

/-- V1. -/
theorem test_decode_read :
    decoded .command [0x5A, 0xF1, 0x80, 0x00, 0x04, 0x2F] = some (.read 0x8000 4, []) := by decide

/-- V2. -/
theorem test_decode_writeRam :
    decoded .command [0x5A, 0xF2, 0x01, 0x00, 0x04, 0x11, 0x22, 0x33, 0x44, 0xE9] =
      some (.writeRam 0x0100 [0x11, 0x22, 0x33, 0x44], []) := by decide

/-- V70's frame. -/
theorem test_decode_writeNvm :
    decoded .command [0x5A, 0xF2, 0x40, 0x00, 0x03, 0xA1, 0xB2, 0xC3, 0x3B] =
      some (.writeNvm 0x4000 [0xA1, 0xB2, 0xC3], []) := by decide

/-- V51. -/
theorem test_decode_go :
    decoded .command [0x5A, 0xF3, 0x02, 0x00, 0x02, 0xAA, 0xBB, 0xB8] =
      some (.go 0x0200 [0xAA, 0xBB], []) := by decide

/-- V55. -/
theorem test_decode_exec :
    decoded .command [0x5A, 0xF4, 0x12, 0x34, 0x01, 0x9D, 0x14] =
      some (.execPayload 0x1234 [0x9D], []) := by decide

/-- V9. -/
theorem test_decode_invalid :
    decoded .command [0x5A, 0x00, 0x12, 0x34, 0x02, 0x01, 0x02, 0x7D] =
      some (.invalid 0x00 0x1234 [0x01, 0x02], []) := by decide

/-- V33: the checksum is tested before the opcode. -/
theorem test_decode_checksumError :
    decoded .command [0x5A, 0xF6, 0x01, 0x00, 0x04, 0x11, 0x22, 0x33, 0x44, 0xE9] =
      some (.checksumError 0xF6 0x0100 4 [0x11, 0x22, 0x33, 0x44] 0xE9, []) := by decide

/-- V20. -/
theorem test_decode_statusSuccess :
    decoded .statusReply [0xA5, 0x01, 0x00, 0xA4] = some (.statusSuccess, []) := by decide

/-- V21. -/
theorem test_decode_statusChecksumError :
    decoded .statusReply [0xA5, 0x01, 0xE1, 0x45] = some (.statusChecksumError, []) := by decide

/-- V22. -/
theorem test_decode_statusInvalidCommand :
    decoded .statusReply [0xA5, 0x01, 0xE2, 0x46] = some (.statusInvalidCommand, []) := by decide

/-- V23. -/
theorem test_decode_statusProgrammingProtected :
    decoded .statusReply [0xA5, 0x01, 0xE3, 0x47] = some (.statusProgrammingProtected, []) := by decide

/-- V25. -/
theorem test_decode_data :
    decoded .dataReply [0xA5, 0x04, 0xDE, 0xAD, 0xBE, 0xEF, 0x83] =
      some (.data [0xDE, 0xAD, 0xBE, 0xEF], []) := by decide

theorem test_decode_sync0 : decoded .sync0 [0x11] = some (.sync0, []) := by decide

theorem test_decode_sync1 : decoded .sync1 [0x22] = some (.sync1, []) := by decide

theorem test_decode_ack : decoded .ack [0x33] = some (.ack, []) := by decide

theorem test_decode_imgLen : decoded .imgLen [0xFF] = some (.imgLen 255, []) := by decide

/-- V10: length 65; V11: length 255. -/
theorem test_decode_oversized :
    decoded .command [0x5A, 0xF2, 0x01, 0x00, 0x41, 0, 0] = none ∧
      decoded .command [0x5A, 0xF1, 0x00, 0x00, 0xFF, 0, 0] = none := by decide

/-- R109: image length 0 is reserved. -/
theorem test_decode_imgLen_zero : decoded .imgLen [0] = none := by decide

/-! ## Small states -/

/-- The command unit receiving, the decoder at `x` with registers as they are after reset. -/
def receiving (x : RxState) (es : List Event) : State :=
  { State.resetWith recT with
    owner := .cu
    hsState := .enteredImage
    cuPhase := .receive
    rxState := x
    inputs := es }

/-- The execute stage about to start a command. -/
def executing (es : List Event) : State := { receiving .cksum es with cuPhase := .execute }

/-- The handshake unit at `h`. -/
def shaking (h : HsState) (es : List Event) : State :=
  { State.resetWith recT with hsState := h, inputs := es }

/-- The execute stage with `payload` acquired for a WRITE to `a`. -/
def writing (a : Addr) (payload : List Byte) (es : List Event) : State :=
  { executing es with
    cmd := 0xF2
    addr := a
    len := lenByte payload
    idx := payload.length
    buf := payload ++ List.replicate (65 - payload.length) 0 }

/-- A programming session after its first store (P3, V71). -/
def inSession (a : Addr) (payload : List Byte) (es : List Event) : State :=
  (nextOf (exec (.writeNvm a payload) (writing a payload es))).getD State.reset

/-- A field of the next state. -/
def after (r : Result) (f : State → α) : Option α := (nextOf r).map f

/-! ## One step each -/

/-- V41: four reads, ascending; the response starts. -/
theorem test_read_trace :
    after (exec (.read 0x0100 4)
        { executing [] with mem := [(0x0100, 0x11), (0x0101, 0x22), (0x0102, 0x33), (0x0103, 0x44)] })
      (fun t => (t.trace, t.buf.take 5, t.txLen)) =
    some ([.memRead 0x0100, .memRead 0x0101, .memRead 0x0102, .memRead 0x0103],
      [0x11, 0x22, 0x33, 0x44, 0x00], 4) := by decide

/-- V44: the addresses wrap modulo 2^16. -/
theorem test_read_wraps :
    after (exec (.read 0xFFFE 4) { executing [] with mem := [(0, 3), (1, 4), (0xFFFE, 1), (0xFFFF, 2)] })
      (fun t => t.buf.take 4) = some [1, 2, 3, 4] := by decide

/-- V40. -/
theorem test_writeRam :
    after (exec (.writeRam 0x0100 [0x11, 0x22]) (executing []))
      (fun t => (t.trace, t.mem, t.status, t.buf.take 2)) =
    some ([.memWrite 0x0100 0x11, .memWrite 0x0101 0x22], [(0x0100, 0x11), (0x0101, 0x22)], 0, [0x00, 0x22]) := by
  decide

/-- V46: a WRITE that starts in RAM and runs past its end: plain stores, no unlock; the locked byte is not taken. -/
theorem test_writeRam_past_the_end :
    after (exec (.writeRam 0x3FFF [0x77, 0x88]) (executing [])) (fun t => (t.trace, t.mem)) =
    some ([.memWrite 0x3FFF 0x77, .memWrite 0x4000 0x88], [(0x3FFF, 0x77)]) := by decide

/-- P3, step 9 (with the keys of log 2). -/
theorem test_writeNvm_config :
    after (exec (.writeNvm 0x4000 [0xA1, 0xB2, 0xC3]) (writing 0x4000 [0xA1, 0xB2, 0xC3] []))
      (fun t => (t.trace, t.dst, t.src, t.rem, t.weState, t.sessionOpen)) =
    some ([.nvmKey .configNonvolatile 0xAE, .nvmKey .configNonvolatile 0x56, .nvmArm, .memWrite 0x4000 0xA1,
      .nvmPoll .configNonvolatile], 0x4000, 0, 3, .poll, true) := by decide

/-- V74: length 0: unlock and lock. -/
theorem test_writeNvm_empty :
    after (exec (.writeNvm 0x9000 []) (writing 0x9000 [] [])) (fun t => (t.trace, t.status, t.sessionOpen)) =
    some ([.nvmKey .mainNonvolatile 0x56, .nvmKey .mainNonvolatile 0xAE, .nvmLock .mainNonvolatile], 0, false) := by
  decide

/-- P3, step 10. -/
theorem test_poll_proceeds :
    after (step (inSession 0x4000 [0xA1, 0xB2, 0xC3] [.nvmStatus ⟨false, true, []⟩]))
      (fun t => (t.trace.drop 5, t.dst, t.rem, t.mem)) =
    some ([.memWrite 0x4001 0xB2, .nvmPoll .configNonvolatile], 0x4001, 2, [(0x4000, 0xA1)]) := by decide

/-- V73: both bits: abort. -/
theorem test_poll_aborts :
    after (step (inSession 0x8000 [1, 2] [.nvmStatus ⟨true, true, []⟩]))
      (fun t => (t.trace.drop 4, t.status, t.buf.take 2, t.cuPhase)) =
    some ([.nvmLock .mainNonvolatile], 0xE3, [0xE3, 2], .respond) := by decide

/-- V51. -/
theorem test_go :
    after (exec (.go 0x0200 [0xAA, 0xBB]) (executing [])) (fun t => (t.trace, t.owner, t.cuPhase)) =
    some ([.relinquish .go 0x0200], .ext, .released) := by decide

/-- V52. -/
theorem test_exec :
    after (exec (.execPayload 0 [0x9D, 0x9D]) (executing [])) (fun t => (t.trace, t.buf.take 4, t.owner, t.cuPhase)) =
    some ([.execCall 0x0300], [0x9D, 0x9D, 0x81, 0], .ext, .execWait) := by decide

/-- V53. -/
theorem test_exec_return :
    after (step { executing [.execReturn ⟨[], ⟨0, false⟩, ⟨0, false⟩, false, 0⟩] with owner := .ext, cuPhase := .execWait })
      (fun t => (t.owner, t.status, t.txLen, t.cuPhase)) = some (.cu, 0, 1, .respond) := by decide

/-- V47. -/
theorem test_invalid :
    after (exec (.invalid 0xF5 0x1234 []) (executing [])) (fun t => (t.trace, t.buf.take 1, t.txLen)) =
    some ([], [0xE2], 1) := by decide

/-- E3. -/
theorem test_checksumError :
    after (exec (.checksumError 0xF1 0x8000 4 [] 0x2E) (executing [])) (fun t => (t.trace, t.buf.take 1, t.txLen)) =
    some ([], [0xE1], 1) := by decide

/-- V20 to V23: the byte each status response carries. -/
theorem test_status_bytes :
    [Instr.statusSuccess, .statusChecksumError, .statusInvalidCommand, .statusProgrammingProtected].map
      (fun i => after (exec i (executing [])) (fun t => (t.buf.take 1, t.status, t.txLen, t.cuPhase))) =
    [some ([0x00], 0x00, 1, .respond), some ([0xE1], 0xE1, 1, .respond), some ([0xE2], 0xE2, 1, .respond),
      some ([0xE3], 0xE3, 1, .respond)] := by decide

/-- V25: the bytes of a data response. -/
theorem test_data_bytes :
    encode recT (.data [0xDE, 0xAD, 0xBE, 0xEF]) = [0xA5, 0x04, 0xDE, 0xAD, 0xBE, 0xEF, 0x83] ∧
    after (exec (.data [0xDE, 0xAD]) (executing [])) (fun t => (t.buf.take 3, t.txLen, t.txState)) =
      some ([0xDE, 0xAD, 0], 2, .hdr) := by decide

/-- E1: the running checksum, third byte taken. -/
theorem test_decoder_address_byte :
    after (step { receiving .addrHi [.rxByte 0x80] with cmd := 0xF1, cks := 0xAB })
      (fun t => (t.cks, t.addr, t.rxState)) = some (0x2B, 0x8000, .addrLo) := by decide

/-- V10. -/
theorem test_decoder_oversized :
    after (step { receiving .len [.rxByte 0x41] with cmd := 0xF2, len := 7 }) (fun t => (t.rxState, t.len)) =
      some (.hunt, 7) := by decide

/-- V4: length 0 goes straight to the checksum. -/
theorem test_decoder_length_zero :
    after (step { receiving .len [.rxByte 0] with cmd := 0xF2 }) (fun t => t.rxState) = some .cksum := by decide

/-- E1: the response's third byte. -/
theorem test_encoder_payload_byte :
    after (step { receiving .hunt [.txReady] with
        cuPhase := .respond, txState := .payload, txLen := 4, txIdx := 0, txCks := 0xA1
        buf := [0xDE, 0xAD, 0xBE, 0xEF] })
      (fun t => (t.trace, t.txCks, t.txIdx)) = some ([.txByte 0xDE], 0x7F, 1) := by decide

/-- P2, steps 1 to 3. -/
theorem test_cold_start :
    after (step State.reset) (fun t => (t.hsState, t.trace)) = some (.sendSync0, [.serialConfig 9600]) := by decide

theorem test_sync0 :
    after (exec .sync0 (shaking .sendSync0 [])) (fun t => (t.hsState, t.trace)) =
      some (.sendSync1, [.txByte 0x11]) := by decide

theorem test_sync1 :
    after (exec .sync1 (shaking .sendSync1 [])) (fun t => (t.hsState, t.hsTimer, t.trace)) =
      some (.waitAck, 3, [.txByte 0x22]) := by decide

/-- V82: the timer stays as it is. -/
theorem test_ack :
    after (exec .ack { shaking .waitAck [] with hsTimer := 1 }) (fun t => (t.hsState, t.hsTimer)) =
      some (.imgLen, 1) := by decide

/-- V87. -/
theorem test_imgLen :
    after (exec (.imgLen 255) (shaking .imgLen [])) (fun t => (t.loadAddr, t.imgRem, t.hsState)) =
      some (0x0301, 255, .imgData) := by decide

/-- V85. -/
theorem test_imgLen_zero : refusalOf (step (shaking .imgLen [.rxByte 0])) = some .imageLengthZero := by decide

/-- V86. -/
theorem test_image_entered :
    after (step { shaking .imgData [.rxByte 0xC3] with imgLen := 1, imgRem := 1, imgPtr := 0x03FF, loadAddr := 0x03FF })
      (fun t => (t.trace, t.owner, t.cuPhase)) =
    some ([.memWrite 0x03FF 0xC3, .relinquish .image 0x03FF, .serialConfig 115200], .cu, .receive) := by decide

/-- An entry two bytes into the image, as a table gives it (R8): `RAM_TOP - 3 + 2`. -/
theorem test_image_entry_table :
    imageTarget { recT with imageEntry := .table [(0x03FD, 3, 0x03FF)] } 0x03FD 3 = 0x03FF ∧
      imageTarget { recT with imageEntry := .table [(0x03FD, 3, 0x03FF)] } 0x03FE 2 = 0x03FE := by decide

/-- R52: EXEC code may leave a first key in an unlock register. -/
theorem test_execReturn_unlock_register :
    after (step { receiving .hunt [.execReturn ⟨[(0x0100, 5)], ⟨0xAE, false⟩, ⟨0, true⟩, true, 9600⟩] with
        owner := .ext, cuPhase := .execWait })
      (fun t => (t.nvm, t.mem, t.serialRate, t.status)) =
    some (⟨⟨0xAE, false⟩, ⟨0, true⟩, true, none⟩, [(0x0100, 5)], 9600, 0) := by decide

/-- V80, the last tick. -/
theorem test_timeout :
    after (step { shaking .waitAck [.tick] with hsTimer := 1 }) (fun t => (t.trace, t.hsState, t.owner, t.hsTimer)) =
    some ([.relinquish .app 0x8004], .fellThrough, .ext, 0) := by decide

/-! ## Table words, placed before the machine after reset -/

/-- Each row's word is decoded, placed, and run by the next step: what the meaning leaves is there. -/
theorem test_withFetchWord_commands :
    after (step (State.reset.withFetchWord 40 0x5AF1800004)) (fun t => t.trace) =
      some [.memRead 0x8000, .memRead 0x8001, .memRead 0x8002, .memRead 0x8003] ∧
    after (step (State.reset.withFetchWord 40 0x5AF2010001)) (fun t => t.trace) = some [.memWrite 0x0100 0] ∧
    after (step (State.reset.withFetchWord 40 0x5AF2800000)) (fun t => t.trace) =
      some [.nvmKey .mainNonvolatile 0x56, .nvmKey .mainNonvolatile 0xAE, .nvmLock .mainNonvolatile] ∧
    after (step (State.reset.withFetchWord 40 0x5AF3800000)) (fun t => t.trace) = some [.relinquish .go 0x8000] ∧
    after (step (State.reset.withFetchWord 40 0x5AF4000000)) (fun t => t.trace) = some [.execCall 0x0300] ∧
    after (step (State.reset.withFetchWord 40 0x5AF5123400)) (fun t => t.status) = some 0xE2 ∧
    after (step (State.reset.withFetchWord 48 0x5AF18000042E)) (fun t => t.status) = some 0xE1 := by decide

theorem test_withFetchWord_responses :
    after (step (State.reset.withFetchWord 32 0xA50100A4)) (fun t => (t.status, t.txLen)) = some (0x00, 1) ∧
    after (step (State.reset.withFetchWord 32 0xA501E145)) (fun t => (t.status, t.txLen)) = some (0xE1, 1) ∧
    after (step (State.reset.withFetchWord 32 0xA501E246)) (fun t => (t.status, t.txLen)) = some (0xE2, 1) ∧
    after (step (State.reset.withFetchWord 32 0xA501E347)) (fun t => (t.status, t.txLen)) = some (0xE3, 1) ∧
    after (step (State.reset.withFetchWord 16 0xA502)) (fun t => (t.txLen, t.buf.take 2)) = some (2, [0, 0]) := by
  decide

theorem test_withFetchWord_tokens :
    after (step (State.reset.withFetchWord 8 0x11)) (fun t => t.hsState) = some .sendSync1 ∧
    after (step (State.reset.withFetchWord 8 0x22)) (fun t => t.hsState) = some .waitAck ∧
    after (step (State.reset.withFetchWord 8 0x33)) (fun t => t.hsState) = some .imgLen ∧
    after (step (State.reset.withFetchWord 8 0x02)) (fun t => (t.hsState, t.loadAddr)) =
      some (.imgData, 0x03FE) := by decide

/-! ## Witnesses: every statement's hypotheses are met somewhere -/

theorem recT_legal : recT.Legal := by decide

/-- The surroundings left locked. -/
def quietWorld : World := ⟨[], ⟨0, false⟩, ⟨0, false⟩, false, 0⟩

theorem inv_reset : Inv State.reset where
  legal := recT_legal
  memory := rfl
  bufLength := rfl
  ownership := ⟨rfl, by decide, by decide⟩
  session := by simp [SessionFits, State.reset, State.resetWith]
  decoder := by simp [DecoderFits, State.reset, State.resetWith]
  encoder := by simp [EncoderFits, State.reset, State.resetWith]
  handshake := by simp [HandshakeFits, State.reset, State.resetWith]
  counts := by simp [CountsFit, State.reset, State.resetWith]

/-- `READ 0x8000, 4` but for its last byte, which is next on the link. -/
def atChecksum (b : Byte) : State :=
  { receiving .cksum [.rxByte b] with cmd := 0xF1, addr := 0x8000, len := 4, cks := 0x2F }

theorem inv_atChecksum (b : Byte) : Inv (atChecksum b) where
  legal := recT_legal
  memory := rfl
  bufLength := rfl
  ownership := ⟨rfl, .inl rfl⟩
  session := by simp [SessionFits, atChecksum, receiving, State.resetWith]
  decoder := fun _ => ⟨fun _ => by simp [atChecksum, receiving, State.resetWith, frameSoFar, framePrefix, recT, Params.illustration,
    addrHi, addrLo, xorBytes], nofun,
    fun _ => ⟨rfl, show 4 ≤ 64 by decide⟩⟩
  encoder := fun h => nomatch h
  handshake := by simp [HandshakeFits, atChecksum, receiving, State.resetWith]
  counts := by simp [CountsFit, atChecksum, receiving, State.resetWith]

/-- A session in main non-volatile memory after the first store: the registers as V71 has them. -/
def polling (payload : List Byte) (es : List Event) : State :=
  { writing 0x8000 payload es with
    region := .mainNonvolatile
    weState := .poll
    sessionOpen := true
    dst := 0x8000
    rem := payload.length
    nvm := ⟨⟨0, false⟩, ⟨0xAE, true⟩, false, some (0x8000, 1)⟩ }

/-- The invariant holds of the two payloads used below. -/
theorem inv_polling (payload : List Byte) (h : payload = [1] ∨ payload = [1, 2]) (es : List Event) :
    Inv (polling payload es) := by
  rcases h with rfl | rfl <;>
  exact {
    legal := recT_legal
    memory := rfl
    bufLength := rfl
    ownership := ⟨rfl, .inr (.inl rfl)⟩
    session := ⟨⟨fun _ => rfl, fun _ => rfl⟩, fun h => absurd rfl h, fun _ =>
      ⟨rfl, rfl, rfl, nofun, rfl, rfl, Nat.succ_le_succ (Nat.zero_le _), rfl,
        by simp [polling, writing, executing, receiving, State.resetWith, recT, Params.illustration, lenByte], rfl⟩⟩
    decoder := nofun
    encoder := nofun
    handshake := ⟨Nat.zero_le _, nofun, nofun⟩
    counts := by simp [CountsFit, polling, writing, executing, receiving, State.resetWith, recT, Params.illustration] }

theorem inv_inSession (es : List Event) : Inv (polling [1, 2] es) := inv_polling _ (.inr rfl) es

/-- A session with its last byte stored. -/
def lastByte (es : List Event) : State := polling [1] es

theorem inv_lastByte (es : List Event) : Inv (lastByte es) := inv_polling _ (.inl rfl) es

/-- EXT owns execution in the phase `c`. -/
def outside (c : CuPhase) (es : List Event) : State := { receiving .hunt es with owner := .ext, cuPhase := c }

theorem inv_outside (c : CuPhase) (hc : c = .execWait ∨ c = .released) (es : List Event) : Inv (outside c es) := by
  rcases hc with rfl | rfl <;>
  exact {
    legal := recT_legal
    memory := rfl
    bufLength := rfl
    ownership := .inr ⟨rfl, by simp [outside]⟩
    session := ⟨⟨nofun, nofun⟩, fun _ => rfl, nofun⟩
    decoder := nofun
    encoder := nofun
    handshake := ⟨Nat.zero_le _, nofun, nofun⟩
    counts := ⟨Nat.zero_le _, Nat.zero_le _, Nat.zero_le _, Nat.zero_le _, Nat.zero_le _⟩ }

theorem witness_ResetTakenInEveryState :
    (polling [1, 2] [.reset quietWorld, .txReady]).cfg.Legal ∧
      (polling [1, 2] [.reset quietWorld, .txReady]).inputs = .reset quietWorld :: [.txReady] := ⟨recT_legal, rfl⟩

/-- Code that stored twice to one RAM address and once into `buf`, and wrote a key to an unlock register. -/
def busyWorld : World :=
  ⟨[(0x0100, 1), (0x0302, 7), (0x0100, 2)], ⟨0xAE, false⟩, ⟨0x56, true⟩, true, 9600⟩

/-- A mid-session reset, with a program cycle in progress; and the quiet case. -/
theorem witness_ResetLeavesSurroundingsToTheEvent :
    (polling [1, 2] [.reset busyWorld]).cfg.Legal ∧ Memory.wf (polling [1, 2] [.reset busyWorld]).mem = true ∧
      (polling [1, 2] [.reset busyWorld]).inputs = [.reset busyWorld] ∧
      (polling [1, 2] [.reset busyWorld]).nvm.cycle = some (0x8000, 1) ∧
      (inBuf recT 0x0100 = false ∧ lastStore busyWorld.stores 0x0100 = some 2) ∧
      (inBuf recT 0x0302 = true ∧ lastStore busyWorld.stores 0x0302 = some 7) ∧
      lastStore busyWorld.stores 0x8000 = none ∧
      (quietWorld.stores = [] ∧ (receiving .hunt [.reset quietWorld]).nvm.cycle = none) :=
  ⟨recT_legal, rfl, rfl, rfl, by decide, by decide, by decide, rfl, rfl⟩

theorem witness_ColdStartRunsFirst :
    recT.Legal ∧ (∀ w rest, ([] : List Event) ≠ .reset w :: rest) ∧
      (∀ w rest, [Event.tick] ≠ .reset w :: rest) := ⟨recT_legal, nofun, nofun⟩

theorem witness_ResetMeetsInvariant : recT.Legal := recT_legal

theorem witness_StepKeepsInvariant :
    (Inv State.reset ∧ ∃ t, step State.reset = .next t) ∧
      (Inv (polling [1, 2] [.nvmStatus ⟨false, true, []⟩]) ∧
        ∃ t, step (polling [1, 2] [.nvmStatus ⟨false, true, []⟩]) = .next t) :=
  ⟨⟨inv_reset, _, rfl⟩, inv_inSession _, _, rfl⟩

theorem witness_StepKeepsRegionsLocked :
    Inv (lastByte [.nvmStatus ⟨false, true, []⟩]) ∧ LockedOutsideSession (lastByte [.nvmStatus ⟨false, true, []⟩]) ∧
      ∃ t, step (lastByte [.nvmStatus ⟨false, true, []⟩]) = .next t :=
  ⟨inv_lastByte _, ⟨nofun, fun _ => ⟨fun _ => rfl, fun h => absurd rfl h, fun _ => rfl⟩⟩, _, rfl⟩

theorem witness_ParametersAreFixed :
    (∃ t, step State.reset = .next t) ∧
      ¬ ({ State.reset with cfg := { recT with maxPayload := 256 } } : State).cfg.Legal :=
  ⟨⟨_, rfl⟩, by decide⟩

theorem witness_WaitGoesOnWithoutEvent :
    (polling [1, 2] []).cfg.Legal ∧ (polling [1, 2] []).inputs = [] ∧
      atColdStart (polling [1, 2] []) = false := ⟨recT_legal, rfl, rfl⟩

/-- One state for each clause: V14's and V89's situations, V50 after GO. -/
theorem witness_UnawaitedEventHasNoStep :
    (atColdStart (outside .released [.rxByte 0x33]) = false ∧
      waitPoint (outside .released [.rxByte 0x33]) ≠ some .wRx ∧
      waitPoint (outside .released [.rxByte 0x33]) ≠ some .wAck) ∧
    waitPoint (receiving .hunt [.txReady]) ≠ some .wTx ∧
    waitPoint (receiving .hunt [.nvmStatus ⟨true, true, []⟩]) ≠ some .wNvm ∧
    (atColdStart (shaking .sendSync1 [.tick]) = false ∧ waitPoint (shaking .sendSync1 [.tick]) ≠ some .wAck) ∧
    waitPoint (outside .released [.execReturn quietWorld]) ≠ some .wExec ∧
    (receiving .hunt [.memData 0]).inputs = [.memData 0] := by decide

theorem witness_DeafAfterRelease :
    Inv (outside .released [.rxByte 0x5A]) ∧ (outside .released [.rxByte 0x5A]).owner = .ext ∧
      (outside .released [.rxByte 0x5A]).cuPhase ≠ .execWait ∧ ∀ w, Event.rxByte 0x5A ≠ .reset w :=
  ⟨inv_outside _ (.inr rfl) _, rfl, nofun, nofun⟩

theorem witness_OnlyResetAndReturnTakeExecutionBack :
    (Inv (outside .released [.reset quietWorld]) ∧
      ∃ t, step (outside .released [.reset quietWorld]) = .next t ∧ t.owner ≠ .ext) ∧
    (Inv (outside .execWait [.execReturn quietWorld]) ∧
      ∃ t, step (outside .execWait [.execReturn quietWorld]) = .next t ∧ t.owner ≠ .ext) :=
  ⟨⟨inv_outside _ (.inr rfl) _, _, rfl, nofun⟩, inv_outside _ (.inl rfl) _, _, rfl, nofun⟩

theorem witness_DeadRegistersAreNeverRead :
    scrub State.reset = scrub { State.reset with cmd := 7, addr := 9, hsTimer := 3, txCks := 1 } ∧
      State.reset ≠ { State.reset with cmd := 7, addr := 9, hsTimer := 3, txCks := 1 } :=
  ⟨rfl, fun h => absurd (congrArg State.cmd h) (by decide)⟩

/-- In `buf`, in RAM beside it, and locked. -/
theorem witness_StoreThenLoad :
    (executing []).cfg.Legal ∧ (executing []).buf.length = (executing []).cfg.bufSize ∧
      (executing []).nvm.cycle = none ∧ Memory.wf (executing []).mem = true ∧
      classify recT 0x0340 = .ram ∧ inBuf recT 0x0340 = true ∧ classify recT 0x0341 = .ram ∧
      inBuf recT 0x0341 = false ∧ classify recT 0x4000 ≠ .ram ∧
      (executing []).nvm.enabled (classify recT 0x4000) = false := by decide

theorem witness_DecodeOfEncodeIsIdentity :
    recT.Legal ∧ wellFormed recT (.writeRam 0x3FFF (List.replicate 64 0)) = true ∧
      wellFormed recT (.checksumError 0xF1 0x8000 4 [] 0x2E) = true ∧ wellFormed recT (.imgLen 255) = true := by
  decide

theorem witness_DecodedCommandIsWellFormed :
    recT.Legal ∧ decode recT .command [0x5A, 0xF1, 0x80, 0x00, 0x04, 0x2F] = .ok (.read 0x8000 4, []) :=
  ⟨recT_legal, rfl⟩

theorem witness_ValidFramesXorToZero :
    streamOf (.go 0 [1]) = .command ∧ streamOf .statusSuccess = .statusReply ∧ streamOf (.data []) = .dataReply ∧
      ∀ c a n l k, Instr.go 0 [1] ≠ .checksumError c a n l k := ⟨rfl, rfl, rfl, nofun⟩

theorem witness_CommandFrameLength :
    recT.Legal ∧ wellFormed recT (.read 0x8000 64) = true ∧
      commandParts recT (.read 0x8000 64) = some (⟨0xF1, 0x8000, 64, []⟩, 0x6B) := by decide

/-- V30, V31, V32, V33: the address, a payload byte, the checksum, the command byte. -/
theorem witness_OneChangedByteIsDetected :
    wellFormed recT (.writeRam 0x0100 [0x11, 0x22, 0x33, 0x44]) = true ∧
      commandParts recT (.writeRam 0x0100 [0x11, 0x22, 0x33, 0x44]) =
        some (⟨0xF2, 0x0100, 4, [0x11, 0x22, 0x33, 0x44]⟩, 0xE9) ∧
      (∀ j b, (j, b) ∈ [(2, (0x00 : Byte)), (3, 1), (5, 0x19), (9, 0xF9), (1, 0xF6)] →
        j < (encode recT (.writeRam 0x0100 [0x11, 0x22, 0x33, 0x44])).length ∧
          (encode recT (.writeRam 0x0100 [0x11, 0x22, 0x33, 0x44]))[j]? ≠ some b) ∧
      wireN recT 0xF6 4 = wireN recT 0xF2 4 := by
  refine ⟨by decide, by decide, ?_, by decide⟩
  intro j b h
  simp only [List.mem_cons, List.not_mem_nil, or_false, Prod.mk.injEq] at h
  rcases h with ⟨rfl, rfl⟩ | ⟨rfl, rfl⟩ | ⟨rfl, rfl⟩ | ⟨rfl, rfl⟩ | ⟨rfl, rfl⟩ <;> decide

/-- V60 to V65: the boundaries of the three intervals. -/
theorem witness_ClassifierPartitionsTheSpace :
    recT.Legal ∧ [0x0000, 0x3FFF, 0x4000, 0x7FFF, 0x8000, 0xFFFF].map (classify recT) =
      [.ram, .ram, .configNonvolatile, .configNonvolatile, .mainNonvolatile, .mainNonvolatile] := by decide

/-- V3's noise. -/
theorem witness_NoiseIsDiscarded :
    (receiving .hunt ([0x00, 0xFF, 0xA5].map .rxByte)).cfg.Legal ∧
      (receiving .hunt ([0x00, 0xFF, 0xA5].map .rxByte)).rxState = .hunt ∧
      ∀ b, b ∈ ([0x00, 0xFF, 0xA5] : List Byte) → b ≠ recT.cmdHeader := by decide

theorem witness_OversizedLengthRestarts :
    (receiving .len [.rxByte 65]).cfg.Legal ∧ (receiving .len [.rxByte 65]).rxState = .len ∧
      (receiving .len [.rxByte 65]).cfg.maxPayload < (65 : Byte).toNat := by decide

/-- V7: payload and checksum bytes that look like a header and an opcode. -/
theorem witness_FrameIsAcquiredAndExecuted :
    (receiving .hunt ((encode recT (.writeRam 0x0100 [0x5A])).map .rxByte)).cfg.Legal ∧
      (receiving .hunt ((encode recT (.writeRam 0x0100 [0x5A])).map .rxByte)).buf.length = recT.bufSize ∧
      wellFormed recT (.writeRam 0x0100 [0x5A]) = true ∧
      commandParts recT (.writeRam 0x0100 [0x5A]) = some (⟨0xF2, 0x0100, 1, [0x5A]⟩, 0xF2) := by decide

theorem witness_StepRunsDecodedFrame :
    Inv (atChecksum 0x2F) ∧ (atChecksum 0x2F).owner = .cu ∧ (atChecksum 0x2F).cuPhase = .receive ∧
      (atChecksum 0x2F).rxState = .cksum ∧
      decode recT .command (frameSoFar (atChecksum 0x2F) ++ [0x2F]) = .ok (.read 0x8000 4, []) :=
  ⟨inv_atChecksum _, rfl, rfl, rfl, rfl⟩

theorem witness_StepRunsHandshakeTokens :
    (shaking .sendSync0 [.txReady]).cfg.Legal ∧ (shaking .sendSync0 [.txReady]).owner = .hs ∧
      (shaking .sendSync1 [.txReady]).hsState = .sendSync1 ∧
      decode recT .ack [0x33] = .ok (.ack, []) ∧ (0x34 : Byte) ≠ recT.ack ∧
      decode recT .imgLen [1] = .ok (.imgLen 1, []) ∧ decode recT .imgLen [255] = .ok (.imgLen 255, []) ∧
      (shaking .imgLen [.rxByte 0]).hsState = .imgLen :=
  ⟨recT_legal, rfl, rfl, rfl, by decide, rfl, rfl, rfl⟩

theorem witness_StepRunsStatusReplies :
    (atChecksum 0x2E).cfg.Legal ∧ (0x2E : Byte) ≠ (atChecksum 0x2E).cks ∧
      assigned recT ({ atChecksum 0x2F with cmd := 0xF5 } : State).cmd = false ∧
      (outside .execWait [.execReturn quietWorld]).owner = .ext ∧
      (outside .execWait [.execReturn quietWorld]).cuPhase = .execWait := by decide

theorem witness_DataReplyStartsTheEncoder :
    (executing []).cfg.Legal ∧ (executing []).buf.length = (executing []).cfg.bufSize ∧
      wellFormed recT (.data (List.replicate 64 0)) = true ∧ wellFormed recT (.data []) = true := by decide

/-- A response of no byte and one of 64. -/
theorem witness_ResponseFrameIsSent :
    ∀ n ∈ [(0 : Byte), 64], ∃ s : State, s.cfg.Legal ∧ s.owner = .cu ∧ s.cuPhase = .respond ∧ s.txState = .hdr ∧
      s.txIdx = 0 ∧ s.txLen = n ∧ s.txLen.toNat ≤ s.buf.length ∧
      s.inputs = List.replicate (3 + s.txLen.toNat) .txReady := by
  intro n h
  simp only [List.mem_cons, List.not_mem_nil, or_false] at h
  rcases h with rfl | rfl
  · exact ⟨{ receiving .hunt (List.replicate 3 .txReady) with cuPhase := .respond },
      recT_legal, rfl, rfl, rfl, rfl, rfl, by decide, rfl⟩
  · exact ⟨{ receiving .hunt (List.replicate 67 .txReady) with cuPhase := .respond, txLen := 64 },
      recT_legal, rfl, rfl, rfl, rfl, rfl, by decide, rfl⟩

theorem witness_StatusBytesOnTheLink :
    (executing (List.replicate 4 .txReady)).cfg.Legal ∧
      (executing (List.replicate 4 .txReady)).buf.length = recT.bufSize ∧
      (executing (List.replicate 4 .txReady)).owner = .cu ∧ streamOf .statusSuccess = .statusReply := by decide

/-- READ of `buf`'s own addresses: from 0x02FE byte 2 lies at `buf[0]`, already copied into; from 0x0301 byte 0 lies
at `buf[1]`, not yet; V57's situation. -/
theorem witness_ReadCopiesAndAnswers :
    (executing []).cfg.Legal ∧ (executing []).buf.length = recT.bufSize ∧ (64 : Byte).toNat ≤ recT.maxPayload ∧
      (executing []).nvm.cycle = none ∧ noAnswerPending (executing []).inputs = true ∧
      inBuf recT (addrPlus 0x02FE 0) = false ∧
      (inBuf recT (addrPlus 0x02FE 2) = true ∧ bufIndex recT (addrPlus 0x02FE 2) < 2) ∧
      (inBuf recT (addrPlus 0x0301 0) = true ∧ 0 ≤ bufIndex recT (addrPlus 0x0301 0)) := by decide

theorem witness_ReadTakesTheSurroundingsAnswers :
    (executing [.memData 1, .memData 2, .tick]).cfg.Legal ∧ (2 : Byte).toNat ≤ recT.maxPayload ∧
      ClearOfBuf recT 0x0341 (2 : Byte).toNat ∧ ([1, 2] : List Byte).length = (2 : Byte).toNat :=
  ⟨recT_legal, by decide, by unfold ClearOfBuf; decide, rfl⟩

theorem witness_WriteToRamStoresThePayload :
    (executing []).cfg.Legal ∧ (executing []).buf.length = recT.bufSize ∧
      ([1, 2] : List Byte).length ≤ recT.maxPayload ∧ (executing []).nvm.cycle = none ∧
      Memory.wf (executing []).mem = true ∧ classify recT 0x3FFE = .ram ∧ AllIn recT .ram 0x3FFE 2 ∧
      ClearOfBuf recT 0x3FFE 2 :=
  ⟨recT_legal, by decide, by decide, rfl, rfl, by decide, by unfold AllIn; decide, by unfold ClearOfBuf; decide⟩

/-- A WRITE over `buf` itself, at 0x0302: byte 2 is taken from a place byte 0 was stored to; byte 1 is not. And
V46's, past the end of RAM. -/
theorem witness_WriteOnTheRamPathEveryForm :
    (executing []).cfg.Legal ∧ (executing []).buf.length = recT.bufSize ∧
      ([1, 2, 3] : List Byte).length ≤ recT.maxPayload ∧ (executing []).nvm.cycle = none ∧
      (executing []).nvm.config.enabled = false ∧ (executing []).nvm.main.enabled = false ∧
      addrPlus 0x0302 0 = addrPlus recT.bufBase 2 ∧ OutsideOf 0x0302 1 (addrPlus recT.bufBase 1) ∧
      (inBuf recT 0x3FFF = false ∧ classify recT 0x3FFF = .ram) ∧
      (inBuf recT 0x0302 = true ∧ bufIndex recT 0x0302 ≠ 0) ∧
      (inBuf recT 0x4000 = false ∧ classify recT 0x4000 ≠ .ram) ∧
      (inBuf recT 0x0301 = true ∧ bufIndex recT 0x0301 ≠ 0 ∧ OutsideOf 0x0302 3 0x0301) :=
  ⟨recT_legal, by decide, by decide, rfl, rfl, rfl, by decide, by unfold OutsideOf; decide, by decide, by decide,
    by decide, by decide, by decide, by unfold OutsideOf; decide⟩

theorem witness_WriteToNvmOpensTheSession :
    (executing []).cfg.Legal ∧ (executing []).buf.length = recT.bufSize ∧
      ((1 : Byte) :: List.replicate 63 2).length ≤ recT.maxPayload ∧ (executing []).nvm.cycle = none ∧
      classify recT 0x4000 = .configNonvolatile ∧ classify recT 0x8000 = .mainNonvolatile := by decide

theorem witness_EmptyWriteToNvmUnlocksAndLocks :
    (executing []).cfg.Legal ∧ (executing []).buf.length = recT.bufSize ∧ classify recT 0x4000 ≠ .ram ∧
      needsArm recT (classify recT 0x4000) = true := by decide

theorem witness_PollAnswerDecides :
    (Inv (polling [1, 2] [.nvmStatus ⟨false, false, []⟩]) ∧
      (polling [1, 2] [.nvmStatus ⟨false, false, []⟩]).cuPhase = .execute) ∧
    Inv (polling [1, 2] [.nvmStatus ⟨true, true, []⟩]) ∧
    (Inv (lastByte [.nvmStatus ⟨false, true, []⟩]) ∧ isEop ⟨false, true, []⟩ = true ∧
      (lastByte [.nvmStatus ⟨false, true, []⟩]).rem = 1) ∧
    (Inv (polling [1, 2] [.nvmStatus ⟨false, true, []⟩]) ∧
      1 < (polling [1, 2] [.nvmStatus ⟨false, true, []⟩]).rem) :=
  ⟨⟨inv_inSession _, rfl⟩, inv_inSession _, ⟨inv_lastByte _, rfl, rfl⟩, inv_inSession _, by decide⟩

/-- A transfer that crosses from CONFIG into MAIN (R219): the statement asks only that no byte lands in `buf`. -/
theorem witness_NvmWriteFullTrace :
    ∃ s : State, s.cfg.Legal ∧ s.buf.length = s.cfg.bufSize ∧ s.owner = .cu ∧ s.cuPhase = .execute ∧
      classify s.cfg 0x7FFF = .configNonvolatile ∧ ClearOfBuf s.cfg 0x7FFF 2 ∧ isEop ⟨false, true, [true]⟩ = true ∧
      s.inputs = (List.replicate 2 (⟨false, true, [true]⟩ : NvmAnswer)).map .nvmStatus ++
        (List.replicate 4 .txReady ++ []) :=
  ⟨executing ([.nvmStatus ⟨false, true, [true]⟩, .nvmStatus ⟨false, true, [true]⟩] ++ List.replicate 4 .txReady),
    recT_legal, rfl, rfl, rfl, by decide, by unfold ClearOfBuf; decide, rfl, rfl⟩

theorem witness_NvmWriteProgramsEveryByte :
    ∃ s : State, s.cfg.Legal ∧ s.buf.length = s.cfg.bufSize ∧ s.nvm.cycle = none ∧ Memory.wf s.mem = true ∧
      s.owner = .cu ∧ s.cuPhase = .execute ∧ classify s.cfg 0x7FFE = .configNonvolatile ∧
      AllIn s.cfg .configNonvolatile 0x7FFE 2 ∧
      s.inputs = (List.replicate 2 (⟨false, true, [true]⟩ : NvmAnswer)).map .nvmStatus ++ [.txReady] :=
  ⟨executing [.nvmStatus ⟨false, true, [true]⟩, .nvmStatus ⟨false, true, [true]⟩, .txReady], recT_legal, rfl, rfl,
    rfl, rfl, rfl, by decide, by unfold AllIn; decide, rfl⟩

theorem witness_NvmWriteAbortsOnError :
    ∃ s : State, s.cfg.Legal ∧ s.buf.length = s.cfg.bufSize ∧ s.nvm.cycle = none ∧ Memory.wf s.mem = true ∧
      s.owner = .cu ∧ s.cuPhase = .execute ∧ classify s.cfg 0x8000 = .mainNonvolatile ∧
      AllIn s.cfg .mainNonvolatile 0x8000 ([1] ++ (2 : Byte) :: [3]).length ∧
      s.inputs = [(⟨false, true, []⟩ : NvmAnswer)].map .nvmStatus ++ .nvmStatus ⟨true, true, []⟩ :: [] :=
  ⟨executing [.nvmStatus ⟨false, true, []⟩, .nvmStatus ⟨true, true, []⟩], recT_legal, rfl, rfl, rfl, rfl, rfl,
    by decide, by unfold AllIn; decide, rfl⟩

/-- One answer that leaves the session open, and one that closes it. -/
theorem witness_LockExactlyOnce :
    (Inv (polling [1, 2] [.nvmStatus ⟨false, true, []⟩]) ∧
      ∃ t, run 1 (polling [1, 2] [.nvmStatus ⟨false, true, []⟩]) = .next t ∧ t.cuPhase = .execute) ∧
    (Inv (polling [1, 2] [.nvmStatus ⟨true, false, []⟩]) ∧
      ∃ t, run 1 (polling [1, 2] [.nvmStatus ⟨true, false, []⟩]) = .next t ∧ t.cuPhase = .respond) :=
  ⟨⟨inv_inSession _, _, rfl, rfl⟩, inv_inSession _, _, rfl, rfl⟩

theorem witness_ExecCallsThePayload :
    (executing []).cfg.Legal ∧ (executing []).buf.length = (executing []).cfg.bufSize ∧
      (List.replicate 64 (0x9D : Byte)).length ≤ recT.maxPayload := by decide

/-- The code stored into `buf` beside its first byte, into RAM, and left the rest. -/
theorem witness_ExecReturnAnswersSuccess :
    (outside .execWait [.execReturn busyWorld]).cfg.Legal ∧
      (outside .execWait [.execReturn busyWorld]).owner = .ext ∧
      (outside .execWait [.execReturn busyWorld]).cuPhase = .execWait ∧
      (outside .execWait [.execReturn busyWorld]).buf ≠ [] ∧
      (outside .execWait [.execReturn busyWorld]).buf.length = recT.bufSize ∧
      Memory.wf (outside .execWait [.execReturn busyWorld]).mem = true ∧
      (0x0302 ≠ recT.bufBase ∧ lastStore busyWorld.stores 0x0302 = some 7) ∧
      lastStore busyWorld.stores 0x0101 = none := by decide

/-- A READ in the receive state: the statement speaks of `exec`, in any state of the block. -/
theorem witness_ReadWriteReadGivesTheSame :
    Inv State.reset ∧ (2 : Byte).toNat ≤ State.reset.cfg.maxPayload ∧ State.reset.nvm.cycle = none ∧
      noAnswerPending State.reset.inputs = true ∧ classify recT 0x0100 = .ram ∧
      AllIn recT .ram 0x0100 (2 : Byte).toNat ∧ ClearOfBuf recT 0x0100 (2 : Byte).toNat ∧
      ∃ t1 t2 t3, exec (.read 0x0100 2) State.reset = .next t1 ∧
        exec (.writeRam 0x0100 (t1.buf.take (2 : Byte).toNat)) t1 = .next t2 ∧
        exec (.read 0x0100 2) t2 = .next t3 :=
  ⟨inv_reset, by decide, rfl, rfl, by decide, by unfold AllIn; decide, by unfold ClearOfBuf; decide,
    _, _, _, rfl, rfl, rfl⟩

theorem witness_SyncPatternIsSent :
    (shaking .sendSync0 [.txReady]).cfg.Legal ∧ (shaking .sendSync0 [.txReady]).owner = .hs ∧
      (shaking .sendSync0 [.txReady]).hsState = .sendSync0 ∧ (shaking .sendSync1 [.txReady]).hsState = .sendSync1 ∧
      (shaking .sendSync1 [.txReady]).inputs = [.txReady] := ⟨recT_legal, rfl, rfl, rfl, rfl⟩

theorem witness_AcknowledgeAndImageLength : (shaking .imgLen []).cfg.Legal ∧ (255 : Byte) ≠ 0 := by decide

/-- V83: two wrong bytes among the ticks. -/
theorem witness_WrongBytesDoNotTouchTheTimer :
    ∃ s : State, s.cfg.Legal ∧ s.owner = .hs ∧ s.hsState = .waitAck ∧ s.hsTimer = 3 ∧
      s.inputs = [.tick, .rxByte 0x00, .rxByte 0xFF, .tick] ++ [.tick] ∧
      [Event.tick, .rxByte 0x00, .rxByte 0xFF, .tick].countP (· == .tick) < s.hsTimer ∧
      ∀ e, e ∈ [Event.tick, .rxByte 0x00, .rxByte 0xFF, .tick] → e = .tick ∨ ∃ b, e = .rxByte b ∧ b ≠ s.cfg.ack :=
  ⟨{ shaking .waitAck [.tick, .rxByte 0x00, .rxByte 0xFF, .tick, .tick] with hsTimer := 3 }, recT_legal, rfl, rfl,
    rfl, rfl, by decide, by
      intro e h
      simp only [List.mem_cons, List.not_mem_nil, or_false] at h
      rcases h with rfl | rfl | rfl | rfl
      · exact .inl rfl
      · exact .inr ⟨_, rfl, by decide⟩
      · exact .inr ⟨_, rfl, by decide⟩
      · exact .inl rfl⟩

theorem witness_TimeoutBootsTheApplication :
    ∃ s : State, s.cfg.Legal ∧ s.owner = .hs ∧ s.hsState = .sendSync1 ∧
      s.inputs = .txReady :: (List.replicate s.cfg.tHs .tick ++ []) :=
  ⟨shaking .sendSync1 [.txReady, .tick, .tick, .tick], recT_legal, rfl, rfl, rfl⟩

/-- An image of one byte and one of 255. -/
theorem witness_ImageIsLoadedAndEntered :
    ∀ n ∈ [1, 255], ∃ s : State, s.cfg.Legal ∧ Memory.wf s.mem = true ∧ s.buf.length = s.cfg.bufSize ∧
      s.nvm.cycle = none ∧ s.owner = .hs ∧ s.hsState = .imgLen ∧
      1 ≤ (List.replicate n (0 : Byte)).length ∧ (List.replicate n (0 : Byte)).length ≤ 255 ∧
      s.inputs = .rxByte (lenByte (List.replicate n 0)) :: ((List.replicate n 0).map .rxByte ++ []) := by
  intro n h
  refine ⟨shaking .imgLen (.rxByte (lenByte (List.replicate n 0)) :: ((List.replicate n 0).map .rxByte ++ [])),
    recT_legal, rfl, rfl, rfl, rfl, rfl, ?_, ?_, rfl⟩
  all_goals
    rw [List.length_replicate]
    simp only [List.mem_cons, List.not_mem_nil, or_false] at h
    omega

/-- Fewer answers than bytes, over the end of `buf`: from 0x033F bytes 0 and 1 lie in `buf`, byte 2 takes the one
answer, byte 3 is left to the memory; from 0x02FF byte 1 lies at `buf[0]`, already copied into. -/
theorem witness_ReadEveryForm :
    (executing [.memData 9, .tick]).cfg.Legal ∧ (executing [.memData 9, .tick]).buf.length = recT.bufSize ∧
      (4 : Byte).toNat ≤ recT.maxPayload ∧ (executing [.memData 9, .tick]).nvm.cycle = none ∧
      (executing [.memData 9, .tick]).inputs = ([9] : List Byte).map .memData ++ [.tick] ∧
      noAnswerPending [.tick] = true ∧
      (inBuf recT (addrPlus 0x033F 1) = true ∧ 1 ≤ bufIndex recT (addrPlus 0x033F 1)) ∧
      (inBuf recT (addrPlus 0x033F 2) = false ∧ outsideBefore recT 0x033F 2 = 0) ∧
      (inBuf recT (addrPlus 0x033F 3) = false ∧ outsideBefore recT 0x033F 3 = 1) ∧
      (inBuf recT (addrPlus 0x02FF 1) = true ∧ bufIndex recT (addrPlus 0x02FF 1) < 1) := by decide

end Sys2Proof.Tests
end

section
/-!
PROOFS. The frame family (30_encoding.md, 40_frame_decoder.md): the rule of each decoder state on one byte, the
registers after part of a frame, and the claims O24, O18 and O23.
-/

namespace Sys2Proof.Machine

/-! ## One byte, by decoder state (R122 to R128) -/

/-- HUNT on a header, R122. -/
theorem decodeNextByte_hunt {s : State} (h : s.rxState = .hunt) :
    decodeNextByte s.cfg.cmdHeader s = ({ s with cks := s.cfg.cmdHeader, rxState := .cmd }, .incomplete) := by
  simp [decodeNextByte, h, rxHunt]

/-- CMD, R123. -/
theorem decodeNextByte_cmd {s : State} (b : Byte) (h : s.rxState = .cmd) :
    decodeNextByte b s = ({ s with cmd := b, cks := s.cks ^^^ b, rxState := .addrHi }, .incomplete) := by
  simp [decodeNextByte, h, rxCmd]

/-- ADDR_HI, R124. -/
theorem decodeNextByte_addrHi {s : State} (b : Byte) (h : s.rxState = .addrHi) :
    decodeNextByte b s =
      ({ s with addr := addrOf b (addrLo s.addr), cks := s.cks ^^^ b, rxState := .addrLo }, .incomplete) := by
  simp [decodeNextByte, h, rxAddrHi]

/-- ADDR_LO, R125. -/
theorem decodeNextByte_addrLo {s : State} (b : Byte) (h : s.rxState = .addrLo) :
    decodeNextByte b s =
      ({ s with addr := addrOf (addrHi s.addr) b, cks := s.cks ^^^ b, rxState := .len }, .incomplete) := by
  simp [decodeNextByte, h, rxAddrLo]

/-- LEN with a length that fits, R126. -/
theorem decodeNextByte_len {s : State} {b : Byte} (h : s.rxState = .len) (hb : b.toNat ≤ s.cfg.maxPayload) :
    decodeNextByte b s =
      ({ s with
          len := b
          cks := s.cks ^^^ b
          idx := 0
          rxState := if wireN s.cfg s.cmd b = 0 then .cksum else .payload },
        .incomplete) := by
  simp [decodeNextByte, h, rxLen, Nat.not_lt.mpr hb]

/-- LEN with an oversized length, R126, R284. -/
theorem decodeNextByte_oversized {s : State} {b : Byte} (h : s.rxState = .len) (hb : s.cfg.maxPayload < b.toNat) :
    decodeNextByte b s = ({ s with rxState := .hunt }, .resynchronizing) := by
  simp [decodeNextByte, h, rxLen, hb, raise]

/-- PAYLOAD, R127. -/
theorem decodeNextByte_payload {s : State} (b : Byte) (h : s.rxState = .payload) :
    decodeNextByte b s =
      ({ s with
          buf := s.buf.set s.idx b
          cks := s.cks ^^^ b
          idx := s.idx + 1
          rxState := if s.idx + 1 = s.len.toNat then .cksum else .payload },
        .incomplete) := by
  simp [decodeNextByte, h, rxPayload, setBuf]

/-- CKSUM, R128. -/
theorem decodeNextByte_cksum {s : State} (b : Byte) (h : s.rxState = .cksum) :
    decodeNextByte b s =
      ({ s with cksOk := b == s.cks, cuPhase := .execute }, .complete (heldFrame s) (b == s.cks)) := by
  simp [decodeNextByte, h, rxCksum, checksumVerdict]

/-- The decoder reads and writes no pending event (R120). -/
theorem decodeNextByte_inputs (b : Byte) (s : State) (l : List Event) :
    decodeNextByte b { s with inputs := l } =
      ({ (decodeNextByte b s).1 with inputs := l }, (decodeNextByte b s).2) := by
  cases h : s.rxState with
  | hunt => by_cases hb : b = s.cfg.cmdHeader <;> simp [decodeNextByte, h, rxHunt, hb]
  | len => by_cases hb : s.cfg.maxPayload < b.toNat <;> simp [decodeNextByte, h, rxLen, hb, raise]
  | cmd => simp [decodeNextByte_cmd, h]
  | addrHi => simp [decodeNextByte_addrHi, h]
  | addrLo => simp [decodeNextByte_addrLo, h]
  | payload => simp [decodeNextByte_payload, h]
  | cksum => simp [decodeNextByte_cksum, h, heldFrame]

/-- No byte moves the parameters or the owner, and one that completes nothing leaves the phase (R129). -/
theorem decodeNextByte_frame (b : Byte) (s : State) :
    (decodeNextByte b s).1.cfg = s.cfg ∧ (decodeNextByte b s).1.owner = s.owner ∧
      ((decodeNextByte b s).2 = .incomplete → (decodeNextByte b s).1.cuPhase = s.cuPhase) := by
  cases h : s.rxState with
  | hunt => by_cases hb : b = s.cfg.cmdHeader <;> simp [decodeNextByte, h, rxHunt, hb]
  | len => by_cases hb : s.cfg.maxPayload < b.toNat <;> simp [decodeNextByte, h, rxLen, hb, raise]
  | cmd => simp [decodeNextByte_cmd, h]
  | addrHi => simp [decodeNextByte_addrHi, h]
  | addrLo => simp [decodeNextByte_addrLo, h]
  | payload => simp [decodeNextByte_payload, h]
  | cksum => simp [decodeNextByte_cksum, h]

/-! ## Bytes inside a frame, and the steps that take them -/

/-- The decoder after `bytes`, if each of them is `Incomplete` (R129). -/
def takeBytes : List Byte → State → Option State
  | [], s => some s
  | b :: bytes, s =>
    match decodeNextByte b s with
    | (t, .incomplete) => takeBytes bytes t
    | _ => none

@[simp] theorem takeBytes_nil (s : State) : takeBytes [] s = some s := rfl

theorem takeBytes_cons {b : Byte} {s t : State} (h : decodeNextByte b s = (t, .incomplete)) (bytes : List Byte) :
    takeBytes (b :: bytes) s = takeBytes bytes t := by
  simp [takeBytes, h]

theorem takeBytes_cons_eq_some {b : Byte} {bytes : List Byte} {s t : State} :
    takeBytes (b :: bytes) s = some t ↔
      ∃ u, decodeNextByte b s = (u, .incomplete) ∧ takeBytes bytes u = some t := by
  rcases h : decodeNextByte b s with ⟨u, o⟩
  cases o <;> simp [takeBytes, h]

theorem takeBytes_append (l m : List Byte) (s : State) :
    takeBytes (l ++ m) s = (takeBytes l s).bind (takeBytes m) := by
  induction l generalizing s with
  | nil => rfl
  | cons b l ih =>
    rcases h : decodeNextByte b s with ⟨u, o⟩
    cases o <;> simp [takeBytes, h, ih]

/-- The step of a byte that is next on the link while the command unit receives. -/
theorem step_pendingByte {s : State} (b : Byte) (rest : List Event) (hl : s.cfg.Legal) (ho : s.owner = .cu)
    (hp : s.cuPhase = .receive) :
    step { s with inputs := .rxByte b :: rest } = receiveByte b { s with inputs := rest } :=
  step_serialByte hl ho hp rfl

/-- The steps of bytes that complete nothing: one byte a step (R120). -/
theorem run_takeBytes {bytes : List Byte} {s t : State} (rest : List Event) (hl : s.cfg.Legal) (ho : s.owner = .cu)
    (hp : s.cuPhase = .receive) (ht : takeBytes bytes s = some t) :
    run bytes.length { s with inputs := bytes.map .rxByte ++ rest } = .next { t with inputs := rest } := by
  induction bytes generalizing s with
  | nil => cases ht; rfl
  | cons b bytes ih =>
    obtain ⟨u, hd, ht⟩ := takeBytes_cons_eq_some.mp ht
    obtain ⟨hcfg, howner, hphase⟩ := hd ▸ decodeNextByte_frame b s
    have hstep : step { s with inputs := .rxByte b :: (bytes.map .rxByte ++ rest) } =
        .next { u with inputs := bytes.map .rxByte ++ rest } := by
      rw [step_pendingByte b _ hl ho hp, receiveByte, decodeNextByte_inputs, hd]
    exact (run_next hstep).trans (ih (hcfg ▸ hl) (howner.trans ho) ((hphase rfl).trans hp) ht)

/-! ## A frame in the course of acquisition (R130) -/

/-- The registers once a frame that began in HUNT has been taken up to the payload bytes `taken`. -/
def acquiring (f : CommandFrame) (taken : List Byte) (s : State) : State :=
  { s with
    cmd := f.cmd
    addr := f.addr
    len := f.len
    idx := taken.length
    cks := frameChecksum s.cfg f.cmd f.addr f.len taken
    buf := taken ++ s.buf.drop taken.length
    rxState := if taken.length = wireN s.cfg f.cmd f.len then .cksum else .payload }

/-- The five bytes before the payload (R122 to R126). -/
theorem takeBytes_framePrefix {s : State} {f : CommandFrame} (hx : s.rxState = .hunt)
    (hn : f.len.toNat ≤ s.cfg.maxPayload) :
    takeBytes (framePrefix s.cfg f.cmd f.addr f.len) s = some (acquiring f [] s) := by
  simp [framePrefix, takeBytes, decodeNextByte_hunt hx, decodeNextByte_cmd, decodeNextByte_addrHi,
    decodeNextByte_addrLo, decodeNextByte_len, hn, acquiring, frameChecksum, BitVec.xor_assoc, eq_comm]

/-- One payload byte extends the part taken (R127). -/
theorem decodeNextByte_acquiring {s : State} {f : CommandFrame} {taken : List Byte} (b : Byte)
    (hw : taken.length < wireN s.cfg f.cmd f.len) (hb : taken.length < s.buf.length) :
    decodeNextByte b (acquiring f taken s) = (acquiring f (taken ++ [b]) s, .incomplete) := by
  have hlen : wireN s.cfg f.cmd f.len = f.len.toNat :=
    wireN_other (fun hc => by simp [hc, wireN_read] at hw) _
  have hbuf : (taken ++ s.buf.drop taken.length).set taken.length b =
      taken ++ b :: s.buf.drop (taken.length + 1) := by
    rw [List.set_append_right _ _ le_rfl, Nat.sub_self, List.drop_eq_getElem_cons hb, List.set_cons_zero]
  rw [decodeNextByte_payload b (if_neg hw.ne)]
  simp [acquiring, hbuf, hlen, frameChecksum, BitVec.xor_assoc]

/-- The payload bytes, by induction on those still to come. -/
theorem takeBytes_payload {s : State} {f : CommandFrame} (todo taken : List Byte)
    (hw : (taken ++ todo).length ≤ wireN s.cfg f.cmd f.len) (hb : (taken ++ todo).length ≤ s.buf.length) :
    takeBytes todo (acquiring f taken s) = some (acquiring f (taken ++ todo) s) := by
  induction todo generalizing taken with
  | nil => simp
  | cons b todo ih =>
    have hlt : taken.length < (taken ++ b :: todo).length := by simp
    rw [takeBytes_cons (decodeNextByte_acquiring b (hlt.trans_le hw) (hlt.trans_le hb))]
    rw [List.append_cons taken b todo] at hw hb ⊢
    exact ih (taken ++ [b]) hw hb

/-- All of a frame but its last byte. -/
theorem takeBytes_frame {s : State} {f : CommandFrame} (hx : s.rxState = .hunt)
    (hn : f.len.toNat ≤ s.cfg.maxPayload) (hw : f.payload.length = wireN s.cfg f.cmd f.len)
    (hb : f.payload.length ≤ s.buf.length) :
    takeBytes (framePrefix s.cfg f.cmd f.addr f.len ++ f.payload) s = some (acquiring f f.payload s) := by
  rw [takeBytes_append, takeBytes_framePrefix hx hn]
  exact takeBytes_payload f.payload [] hw.le hb

/-- The last byte: the validator's verdict, and the frame executed in the same step (R128, R165). -/
theorem step_lastByte {s : State} {f : CommandFrame} (k : Byte) (rest : List Event) (hl : s.cfg.Legal)
    (ho : s.owner = .cu) (hp : s.cuPhase = .receive) (hw : f.payload.length = wireN s.cfg f.cmd f.len) :
    step { acquiring f f.payload s with inputs := .rxByte k :: rest } =
      exec (frameInstr s.cfg f k (k == frameChecksum s.cfg f.cmd f.addr f.len f.payload))
        (acquired f k { s with inputs := rest }) := by
  have hx : (acquiring f f.payload s).rxState = .cksum := if_pos hw
  rw [step_pendingByte (s := acquiring f f.payload s) k rest hl ho hp, receiveByte, decodeNextByte_inputs,
    decodeNextByte_cksum k hx]
  simp [acquiring, acquired, heldFrame, ← hw]

/-! ## The claims -/

/-- Settles O24: all bytes but the last are taken, then the last byte's step executes the frame. -/
theorem frameIsAcquiredAndExecuted : Obligations.FrameIsAcquiredAndExecuted := by
  intro s i f k rest hl hbuf ho hp hx hwf hparts hi
  obtain ⟨hn, hw, henc, hinstr, -⟩ := commandParts_spec hl hwf hparts
  have hroom : f.payload.length ≤ s.buf.length := by
    rw [hw, hbuf]
    exact ((wireN_le _ _ _).trans hn).trans Params.Legal.maxPayload_le_bufSize
  have htaken := run_takeBytes (.rxByte k :: rest) hl ho hp (takeBytes_frame hx hn hw hroom)
  have hbytes : s.inputs =
      (framePrefix s.cfg f.cmd f.addr f.len ++ f.payload).map .rxByte ++ .rxByte k :: rest := by
    simp [hi, henc]
  rw [← hbytes] at htaken
  rw [henc, List.length_append, ← hinstr, ← step_lastByte k rest hl ho hp hw, ← run_one]
  exact run_add htaken

/-- Settles O18: the frame is five bytes, the payload on the wire and the checksum. -/
theorem commandFrameLength : Obligations.CommandFrameLength := by
  intro p i f k hp hwf hparts
  obtain ⟨hn, hw, henc, -, -⟩ := commandParts_spec hp hwf hparts
  have hlen : (encode p i).length = 6 + wireN p f.cmd f.len := by
    rw [henc, ← hw]
    simp [framePrefix]
    omega
  have hle := wireN_le p f.cmd f.len
  exact ⟨hlen, by omega, by omega⟩

/-- Settles O23. -/
theorem oversizedLengthRestarts : Obligations.OversizedLengthRestarts := by
  intro s b rest hl ho hp hx hi hb
  rw [step_serialByte hl ho hp hi, receiveByte, decodeNextByte_inputs, decodeNextByte_oversized hx hb]

end Sys2Proof.Machine
end

section
/-!
PROOFS. The outcomes of the decoder (R129): which bytes restart the acquisition, which leave it incomplete, and the
claim O22.
-/

namespace Sys2Proof.Machine

/-- The bytes that restart the acquisition: noise in HUNT (R122) and an oversized length in LEN (R126). -/
def Restarts (b : Byte) (s : State) : Prop :=
  (s.rxState = .hunt ∧ b ≠ s.cfg.cmdHeader) ∨ (s.rxState = .len ∧ s.cfg.maxPayload < b.toNat)

/-- The checksum byte never restarts the acquisition (R128). -/
theorem not_restarts_of_cksum {b : Byte} {s : State} (h : s.rxState = .cksum) : ¬ Restarts b s := by
  simp [Restarts, h]

/-- HUNT on noise, R122. -/
theorem decodeNextByte_noise {s : State} {b : Byte} (h : s.rxState = .hunt) (hb : b ≠ s.cfg.cmdHeader) :
    decodeNextByte b s = (s, .resynchronizing) := by
  simp [decodeNextByte, h, rxHunt, hb]

/-- A restart leaves the decoder in HUNT and every other register as it was. -/
theorem decodeNextByte_restarts {b : Byte} {s : State} (h : Restarts b s) :
    decodeNextByte b s = ({ s with rxState := .hunt }, .resynchronizing) := by
  rcases h with ⟨hx, hb⟩ | ⟨hx, hb⟩
  · rw [decodeNextByte_noise hx hb, ← hx]
  · exact decodeNextByte_oversized hx hb

/-- A byte before the checksum that does not restart the acquisition continues it, and emits nothing. -/
theorem decodeNextByte_continues {b : Byte} {s : State} (hk : s.rxState ≠ .cksum) (hr : ¬ Restarts b s) :
    (decodeNextByte b s).2 = .incomplete ∧ (decodeNextByte b s).1.trace = s.trace := by
  cases h : s.rxState with
  | hunt =>
    obtain rfl : b = s.cfg.cmdHeader := by_contra fun hb => hr (.inl ⟨h, hb⟩)
    simp [decodeNextByte_hunt h]
  | cmd => simp [decodeNextByte_cmd b h]
  | addrHi => simp [decodeNextByte_addrHi b h]
  | addrLo => simp [decodeNextByte_addrLo b h]
  | len =>
    have hb : b.toNat ≤ s.cfg.maxPayload := Nat.le_of_not_lt fun hb => hr (.inr ⟨h, hb⟩)
    simp [decodeNextByte_len h hb]
  | payload => simp [decodeNextByte_payload b h]
  | cksum => exact absurd h hk

/-- Settles O22: a byte is the checksum byte, or restarts the acquisition, or continues it. -/
theorem decoderOutcomes : Obligations.DecoderOutcomes := by
  intro s b
  rw [← not_or, ← Restarts]
  by_cases hk : s.rxState = .cksum
  · simp [decodeNextByte_cksum b hk, hk, not_restarts_of_cksum hk, heldFrame, eq_comm, and_comm]
  by_cases hr : Restarts b s
  · simp [decodeNextByte_restarts hr, hk, hr]
  · obtain ⟨ho, ht⟩ := decodeNextByte_continues hk hr
    obtain ⟨-, -, hphase⟩ := decodeNextByte_frame b s
    simp [ho, ht, hphase ho, hk, hr]

end Sys2Proof.Machine
end

section
/-!
PROOFS. The response encoder (41_response_encoder.md): what `send_status` writes, the four status responses, and the
claim O28.
-/

namespace Sys2Proof.Machine

/-- `send_status(s)` as one update of the state: the registers not listed keep their values (R155, R150). -/
theorem sendStatus_eq (st : Byte) (s : State) :
    sendStatus st s =
      { s with
        status := st
        buf := s.buf.set 0 st
        txLen := 1
        txIdx := 0
        txState := .hdr
        cuPhase := .respond } := rfl

theorem exec_statusSuccess (s : State) : exec .statusSuccess s = .next (sendStatus s.cfg.stSuccess s) := rfl

theorem exec_statusChecksumError (s : State) :
    exec .statusChecksumError s = .next (sendStatus s.cfg.stChecksumError s) := rfl

theorem exec_statusInvalidCommand (s : State) :
    exec .statusInvalidCommand s = .next (sendStatus s.cfg.stInvalidCommand s) := rfl

theorem exec_statusProgrammingProtected (s : State) :
    exec .statusProgrammingProtected s = .next (sendStatus s.cfg.stProgrammingProtected s) := rfl

/-- Settles O28: each of the four is `send_status` of its own code. -/
theorem statusRepliesStartTheEncoder : Obligations.StatusRepliesStartTheEncoder := by
  intro s ist hist
  rw [← sendStatus_eq ist.2 s]
  simp only [List.mem_cons, List.not_mem_nil, or_false] at hist
  obtain rfl | rfl | rfl | rfl := hist
  · exact exec_statusSuccess s
  · exact exec_statusChecksumError s
  · exact exec_statusInvalidCommand s
  · exact exec_statusProgrammingProtected s

end Sys2Proof.Machine
end

section
/-!
PROOFS. The classifier and the write engine (43_region_write_engine.md): the three intervals of the address space, what
each poll answer does, the run of an answered session, and the claims O20, O39 and O40.
-/

namespace Sys2Proof

/-! ## The classifier (R200, R201) -/

theorem classify_config {p : Params} {a : Addr} :
    classify p a = .configNonvolatile ↔ p.configBase.toNat ≤ a.toNat ∧ a.toNat < p.mainBase.toNat := by
  simp only [classify, BitVec.lt_def]
  split_ifs <;> simp <;> omega

/-- The bases are in order (R9 (c)), so the second comparison alone decides. -/
theorem classify_main {p : Params} (hp : p.Legal) {a : Addr} :
    classify p a = .mainNonvolatile ↔ p.mainBase.toNat ≤ a.toNat := by
  have hbases := hp.regions.2
  simp only [classify, BitVec.lt_def]
  split_ifs <;> simp <;> omega

end Sys2Proof

namespace Sys2Proof.Machine

/-- Settles O20: the lowest address of each interval shows that it is not empty. -/
theorem classifierPartitionsTheSpace : Obligations.ClassifierPartitionsTheSpace := by
  intro p hp
  obtain ⟨hram, hbases⟩ := hp.regions
  refine ⟨fun a => classify_ram, fun a => classify_config, fun a => classify_main hp, fun r => ?_⟩
  cases r with
  | ram => exact ⟨0, classify_ram.mpr hram⟩
  | configNonvolatile => exact ⟨p.configBase, classify_config.mpr ⟨le_rfl, hbases⟩⟩
  | mainNonvolatile => exact ⟨p.mainBase, (classify_main hp).mpr le_rfl⟩

/-! ## Locking and storing -/

theorem lock_trace {s : State} (hr : s.region ≠ .ram) :
    (lock s).trace = s.trace ++ lockActions s.cfg s.region := by
  rw [lock_eq hr]; rfl

theorem lock_enabled {s : State} {r : Region} (h : s.region = r) (hr : r ≠ .ram) :
    (lock s).nvm.enabled r = false := by
  subst h
  rw [lock_eq hr]
  exact lockedNvm_enabled _ _ _

/-- A store and its poll, wherever the store falls: they keep the session's registers (R205). -/
theorem programNext_fields {s : State} (hr : s.rem ≠ 0) :
    (programNext s).owner = s.owner ∧ (programNext s).cuPhase = s.cuPhase ∧
    (programNext s).weState = .poll ∧ (programNext s).region = s.region ∧ (programNext s).dst = s.dst ∧
    (programNext s).src = s.src ∧ (programNext s).rem = s.rem ∧
    (programNext s).sessionOpen = s.sessionOpen ∧ (programNext s).status = s.status ∧
    (programNext s).inputs = s.inputs ∧
    (programNext s).trace = s.trace ++ [.memWrite s.dst (s.buf.getD s.src 0), .nvmPoll s.region] := by
  simp [programNext, hr]

theorem programNext_buf {s : State} (hr : s.rem ≠ 0) (hb : inBuf s.cfg s.dst = false) :
    (programNext s).buf = s.buf := by
  simpa [programNext, hr] using memWrite_buf_outside (s := { s with weState := .store }) (s.buf.getD s.src 0) hb

/-! ## One poll answer (R206) -/

/-- The session's registers after a byte is programmed (R206). -/
def byteDone (s : State) : State :=
  { commitCycle s with dst := addrPlus s.dst 1, src := s.src + 1, rem := s.rem - 1 }

@[simp] theorem byteDone_fields (s : State) :
    (byteDone s).cfg = s.cfg ∧ (byteDone s).owner = s.owner ∧ (byteDone s).cuPhase = s.cuPhase ∧
    (byteDone s).region = s.region ∧ (byteDone s).buf = s.buf ∧ (byteDone s).sessionOpen = s.sessionOpen ∧
    (byteDone s).status = s.status ∧ (byteDone s).inputs = s.inputs ∧ (byteDone s).trace = s.trace ∧
    (byteDone s).dst = addrPlus s.dst 1 ∧ (byteDone s).src = s.src + 1 ∧ (byteDone s).rem = s.rem - 1 := by
  simp [byteDone]

theorem pollAnswer_again {ans : NvmAnswer} (herr : ans.err = false) (heop : ans.eop = false) (s : State) :
    pollAnswer ans s = emit (.nvmPoll s.region) s := by
  simp [pollAnswer, pollVerdict, herr, heop]

theorem pollAnswer_err {ans : NvmAnswer} (herr : ans.err = true) (s : State) :
    pollAnswer ans s = lock { abandonCycle s with status := s.cfg.stProgrammingProtected } := by
  simp [pollAnswer, pollVerdict, herr, raise]

theorem pollAnswer_eop {ans : NvmAnswer} (h : isEop ans = true) (s : State) :
    pollAnswer ans s = programNext (byteDone s) := by
  obtain ⟨herr, heop⟩ : ans.err = false ∧ ans.eop = true := by simpa [isEop] using h
  simp [pollAnswer, pollVerdict, herr, heop, byteDone]

theorem Inv.owner_of_execute {s : State} (h : Inv s) (hp : s.cuPhase = .execute) : s.owner = .cu := by
  have hown := h.ownership
  cases ho : s.owner <;> simp_all [OwnershipFits]

/-- Settles O39: `ERR` locks at once; `EOP` alone locks after the last byte and stores the next one before it. -/
theorem pollAnswerDecides : Obligations.PollAnswerDecides := by
  intro s ans rest hinv hp hi
  obtain ⟨hopen, -, hsession⟩ := hinv.session
  obtain ⟨hw, -, -, hram, -, hst, -⟩ := hsession hp
  rw [step_nvmStatus hinv.legal (hinv.owner_of_execute hp) hp hw hi]
  refine ⟨fun herr heop => ?_, fun herr => ?_, fun heop hrem => ?_, fun heop hrem => ?_⟩
  · rw [pollAnswer_again herr heop]; rfl
  · exact ⟨_, congrArg _ (pollAnswer_err herr _), by simp [lock_trace, lock_enabled, hram]⟩
  · have hdone : (byteDone { s with inputs := rest }).rem = 0 := by simp [hrem]
    rw [pollAnswer_eop heop, programNext_done hdone]
    exact ⟨_, rfl, by simp [lock_trace, lock_enabled, hram, hst, hrem]⟩
  · have hmore : (byteDone { s with inputs := rest }).rem ≠ 0 := by simp; omega
    rw [pollAnswer_eop heop]
    exact ⟨_, rfl, by simpa [programNext_fields hmore] using And.intro (hopen.mpr hp) hp⟩

/-! ## The run of an answered session (R220) -/

/-- The session stands before the store of byte `k` of a transfer to `a`, with the bytes `l` still to program (R205). -/
structure AtByte (a : Addr) (k : Nat) (l : List Byte) (s : State) : Prop where
  legal : s.cfg.Legal
  owner : s.owner = .cu
  phase : s.cuPhase = .execute
  rem : s.rem = l.length
  dst : s.dst = addrPlus a k
  bytes : l <+: s.buf.drop s.src
  clear : ClearOfBuf s.cfg s.dst l.length

section
variable {a : Addr} {k : Nat} {b : Byte} {l : List Byte} {s : State}

theorem AtByte.rem_ne_zero (h : AtByte a k (b :: l) s) : s.rem ≠ 0 := by simp [h.rem]

theorem AtByte.next_byte (h : AtByte a k (b :: l) s) : s.buf[s.src]? = some b := by
  obtain ⟨d, hd⟩ := h.bytes
  rw [← List.head?_drop, ← hd]
  rfl

theorem AtByte.programNext_buf (h : AtByte a k (b :: l) s) : (programNext s).buf = s.buf :=
  Machine.programNext_buf h.rem_ne_zero (by simpa using h.clear 0 (by simp))

/-- The answer `EOP` to the poll of a byte leads to the next byte (R206). -/
theorem AtByte.step_programNext (h : AtByte a k (b :: l) s) {x : NvmAnswer} {es : List Event}
    (hx : isEop x = true) (hi : s.inputs = .nvmStatus x :: es) :
    step (programNext s) = .next (programNext (byteDone { programNext s with inputs := es })) := by
  obtain ⟨ho, hp, hw, -, -, -, -, -, -, hin, -⟩ := programNext_fields h.rem_ne_zero
  have hlegal : (programNext s).cfg.Legal := programNext_cfg s ▸ h.legal
  rw [step_nvmStatus hlegal (ho.trans h.owner) (hp.trans h.phase) hw (hin.trans hi), pollAnswer_eop hx]

theorem AtByte.next (h : AtByte a k (b :: l) s) (es : List Event) :
    AtByte a (k + 1) l (byteDone { programNext s with inputs := es }) := by
  obtain ⟨ho, hp, -, -, hdst, hsrc, hrem, -⟩ := programNext_fields h.rem_ne_zero
  obtain ⟨d, hd⟩ := h.bytes
  have hnext : addrPlus s.dst 1 = addrPlus a (k + 1) := by rw [h.dst, addrPlus_add]
  exact {
    legal := by simpa [programNext_cfg] using h.legal
    owner := by simp [ho, h.owner]
    phase := by simp [hp, h.phase]
    rem := by simp [hrem, h.rem]
    dst := by simp [hdst, hnext]
    bytes := ⟨d, by simp [h.programNext_buf, hsrc, ← List.tail_drop, ← hd]⟩
    clear := fun j hj => by
      have hj' := h.clear (j + 1) (by simpa using hj)
      simpa [programNext_cfg, hdst, addrPlus_add, Nat.add_comm] using hj' }

end

/-- Every poll answered with `EOP`: the bytes that remain are stored and polled, and then the session locks. -/
theorem run_programNext {a : Addr} {rest : List Event} (l : List Byte) (answers : List NvmAnswer)
    {k : Nat} {s : State} (h : AtByte a k l s) (hlen : answers.length = l.length)
    (heop : ∀ x, x ∈ answers → isEop x = true) (hi : s.inputs = answers.map .nvmStatus ++ rest) :
    ∃ t, run l.length (programNext s) = .next (lock t) ∧
      t.cfg = s.cfg ∧ t.owner = s.owner ∧ t.region = s.region ∧ t.status = s.status ∧ t.buf = s.buf ∧
      t.inputs = rest ∧ t.trace = s.trace ++ programActions s.region a k l := by
  induction l generalizing answers k s with
  | nil =>
    obtain rfl := List.length_eq_zero_iff.mp hlen
    exact ⟨s, by rw [programNext_done h.rem]; rfl, rfl, rfl, rfl, rfl, rfl, hi, by simp [programActions]⟩
  | cons b l ih =>
    obtain ⟨x, xs, rfl⟩ := List.exists_cons_of_length_eq_add_one hlen
    have hstep := h.step_programNext (heop x (by simp)) hi
    obtain ⟨t, hrun, ht⟩ := ih xs (h.next (xs.map .nvmStatus ++ rest)) (by simpa using hlen)
      (fun y hy => heop y (by simp [hy])) (by simp)
    rw [List.length_cons, run_next hstep]
    refine ⟨t, hrun, ?_⟩
    simpa [programNext_fields h.rem_ne_zero, programNext_cfg, h.programNext_buf, programActions, h.dst, h.next_byte]
      using ht

/-! ## A status response on the link -/

theorem run_txReady {k : Nat} {s : State} {es : List Event} {r : Result} (hl : s.cfg.Legal) (ho : s.owner = .cu)
    (hp : s.cuPhase = .respond) (hi : s.inputs = .txReady :: es)
    (hrest : run k (encodeNextByte { s with inputs := es }) = r) : run (k + 1) s = r := by
  rw [run_next (step_txReady hl ho hp hi), hrest]

/-- Four `TxReady` send a response of one byte (R150 to R155), and the command unit hunts again (R157). -/
theorem run_statusResponse {s : State} {st : Byte} {rest : List Event} (hl : s.cfg.Legal) (ho : s.owner = .cu)
    (hbuf : s.buf[0]? = some st) (hi : s.inputs = List.replicate 4 .txReady ++ rest) :
    run 4 (sendResponse 1 s) = .next { s with
      inputs := rest
      txLen := 1
      txState := .cks
      txIdx := 1
      txCks := xorBytes [s.cfg.respHeader, 1, st]
      rxState := .hunt
      cuPhase := .receive
      trace := s.trace ++ responseActions s.cfg [st] } := by
  refine run_txReady hl ho rfl hi ?_
  refine run_txReady hl ho rfl rfl ?_
  refine run_txReady hl ho rfl rfl ?_
  refine run_txReady hl ho rfl rfl ?_
  simp [encodeNextByte, txHdr, txLenByte, txPayloadByte, txCksByte, backToHunt, emit, sendResponse, hbuf,
    responseActions, encodeResponse, lenByte, BitVec.xor_assoc]

/-- Settles O40: the unlock, the stores with their polls, the lock, and only then the response. -/
theorem nvmWriteFullTrace : Obligations.NvmWriteFullTrace := by
  intro s a l answers rest hl hbuf hlen ho hp hram hclear hans heop hi
  have hroom : l.length ≤ s.buf.length := hbuf ▸ hlen.trans Params.Legal.maxPayload_le_bufSize
  have hstart : AtByte a 0 l (opened a l s) :=
    ⟨hl, ho, hp, rfl, (addrPlus_zero a).symm, ⟨_, rfl⟩, hclear⟩
  obtain ⟨t, hrun, (hcfg : t.cfg = s.cfg), (howner : t.owner = s.owner), (hregion : t.region = classify s.cfg a),
    (hstatus : t.status = s.cfg.stSuccess), (htbuf : t.buf = l ++ s.buf.drop l.length), hin,
    (htrace : t.trace = s.trace ++ unlockActions s.cfg (classify s.cfg a) ++
      programActions (classify s.cfg a) a 0 l)⟩ :=
    run_programNext l answers hstart hans heop hi
  have hbyte : (lock t).buf[0]? = some s.cfg.stSuccess := by
    have hpos : 0 < t.buf.length := by
      have hsize := hl.bufSize_pos
      rw [htbuf, List.length_append, List.length_drop]
      omega
    simp [hstatus, hpos]
  have hlock : (lock t).cfg = s.cfg := by simp [hcfg]
  have hsend := run_statusResponse (hlock ▸ hl) (by simp [howner, ho]) hbyte (by simpa using hin)
  refine ⟨_, _, exec_writeNvm_eq hroom, (run_add hrun).trans hsend, ?_⟩
  simp [lock_trace, htrace, hcfg, hregion, hram, hstatus]

end Sys2Proof.Machine
end

section
/-!
PROOFS. The handshake (44_handshake_timer.md): the sync bytes, the wait for the acknowledgement, the reset that leads
to them, and the claims O50, O1 and O48.
-/

namespace Sys2Proof.Machine

/-! ## The sync bytes (R245, R246) -/

theorem exec_sync0 (s : State) :
    exec .sync0 s = .next { s with hsState := .sendSync1, trace := s.trace ++ [.txByte s.cfg.sync0] } := rfl

theorem exec_sync1 (s : State) :
    exec .sync1 s =
      .next { s with hsState := .waitAck, hsTimer := s.cfg.tHs, trace := s.trace ++ [.txByte s.cfg.sync1] } := rfl

section
variable {s : State} {rest : List Event}

theorem step_sendSync0 (hl : s.cfg.Legal) (ho : s.owner = .hs) (hs : s.hsState = .sendSync0)
    (hi : s.inputs = .txReady :: rest) : step s = exec .sync0 { s with inputs := rest } :=
  (step_hsTxReady hl ho (.inl hs) hi).trans (hsTxReady_first hs)

theorem step_sendSync1 (hl : s.cfg.Legal) (ho : s.owner = .hs) (hs : s.hsState = .sendSync1)
    (hi : s.inputs = .txReady :: rest) : step s = exec .sync1 { s with inputs := rest } :=
  (step_hsTxReady hl ho (.inr hs) hi).trans (hsTxReady_second hs)

end

/-- Settles O48: the two meanings, and the step that runs each. -/
theorem syncPatternIsSent : Obligations.SyncPatternIsSent := by
  intro s
  refine ⟨exec_sync0 s, exec_sync1 s, fun rest hl ho hi => ⟨fun hs => ?_, fun hs => ?_⟩⟩
  · rw [step_sendSync0 hl ho hs hi, exec_sync0]
  · rw [step_sendSync1 hl ho hs hi, exec_sync1]

/-! ## The wait for the acknowledgement (R247, R250) -/

section
variable {s : State} {rest : List Event}

/-- A tick that is not the last one left, R247. -/
theorem step_tickRunning (hl : s.cfg.Legal) (ho : s.owner = .hs) (hs : s.hsState = .waitAck) (ht : 1 < s.hsTimer)
    (hi : s.inputs = .tick :: rest) : step s = .next { s with inputs := rest, hsTimer := s.hsTimer - 1 } :=
  (step_tick hl ho hs hi).trans (congrArg _ (tick_running (Nat.sub_ne_zero_of_lt ht)))

/-- A byte that is not `ACK`, R250. -/
theorem step_wrongByte {b : Byte} (hl : s.cfg.Legal) (ho : s.owner = .hs) (hs : s.hsState = .waitAck)
    (hb : b ≠ s.cfg.ack) (hi : s.inputs = .rxByte b :: rest) : step s = .next { s with inputs := rest } :=
  (step_hsByte hl ho (.inl hs) hi).trans (hsByte_discarded hs hb)

end

/-- Settles O50, by induction on the events: a tick takes one from the timer, a wrong byte nothing. -/
theorem wrongBytesDoNotTouchTheTimer : Obligations.WrongBytesDoNotTouchTheTimer := by
  intro s es rest hl ho hs hes ht hi
  induction es generalizing s with
  | nil => obtain rfl : s.inputs = rest := hi; rfl
  | cons e es ih =>
    have hes' := fun x hx => hes x (List.mem_cons_of_mem e hx)
    rw [List.length_cons]
    obtain rfl | ⟨b, rfl, hb⟩ := hes e List.mem_cons_self
    · have hcount : (Event.tick :: es).countP (· == .tick) = es.countP (· == .tick) + 1 := by simp
      rw [hcount] at ht ⊢
      rw [run_next (step_tickRunning hl ho hs (by omega) hi), Nat.add_comm _ 1, ← Nat.sub_sub]
      exact ih { s with inputs := es ++ rest, hsTimer := s.hsTimer - 1 } hl ho hs hes' (Nat.lt_sub_of_add_lt ht) rfl
    · have hcount : (Event.rxByte b :: es).countP (· == .tick) = es.countP (· == .tick) := by simp
      rw [hcount] at ht ⊢
      rw [run_next (step_wrongByte hl ho hs hb hi)]
      exact ih { s with inputs := es ++ rest } hl ho hs hes' ht rfl

/-! ## Reset (R241, R320, R321) -/

/-- The registers a reset fixes (R53), the parameters and pending events it keeps, and its one action (R323). -/
theorem resetEvent_fields (w : World) (s : State) :
    (resetEvent w s).owner = .hs ∧ (resetEvent w s).hsState = .sendSync0 ∧
    (resetEvent w s).cuPhase = .disabled ∧ (resetEvent w s).rxState = .hunt ∧
    (resetEvent w s).weState = .idle ∧ (resetEvent w s).sessionOpen = false ∧
    (resetEvent w s).trace = s.trace ++ [.serialConfig s.cfg.baudSeed] ∧
    (resetEvent w s).inputs = s.inputs ∧ (resetEvent w s).cfg = s.cfg := by
  rw [resetEvent, applyWorld_eq]
  exact ⟨rfl, rfl, rfl, rfl, rfl, rfl, rfl, rfl, rfl⟩

/-- Settles O1: the reset leads to SEND_SYNC0, whose step sends the first byte. -/
theorem resetTakenInEveryState : Obligations.ResetTakenInEveryState := by
  intro s w rest hl hi
  obtain ⟨ho, hs, hphase, hrx, hwe, hsession, htrace, hin, hcfg⟩ := resetEvent_fields w { s with inputs := rest }
  refine ⟨_, step_reset hl hi, ho, hs, hphase, hrx, hwe, hsession, htrace, hin, hcfg,
    waitPoint_wTx.mpr (.inl ⟨ho, .inl hs⟩), fun more hmore => ?_⟩
  have hsync := step_sendSync0 (by rwa [hcfg]) ho hs (hin.trans hmore)
  exact ⟨_, hsync.trans (exec_sync0 _), by simp [hcfg]⟩

end Sys2Proof.Machine
end

section
/-!
PROOFS. The encodings (30_encoding.md): decode and encode undo each other, what the exclusive or of a frame shows, and
the claims O14, O15, O17, O19 and O16.
-/

namespace Sys2Proof.Machine

/-! ## Decode of encode (R111) -/

theorem decode_encode_of_commandParts {p : Params} {i : Instr} {f : CommandFrame} {k : Byte} (hp : p.Legal)
    (hw : wellFormed p i = true) (h : commandParts p i = some (f, k)) (rest : List Byte) :
    decode p (streamOf i) (encode p i ++ rest) = .ok (i, rest) := by
  obtain ⟨hn, hl, henc, hinstr, hstream⟩ := commandParts_spec hp hw h
  rw [hstream, henc, decode, decodeCommand_complete p f.cmd f.addr f.len f.payload k rest hn hl, hinstr]

/-- A status response whose byte names `i` decodes to `i` (R100, R102). -/
theorem decode_encode_status {p : Params} {st : Byte} {i : Instr} (hp : p.Legal) (h : statusInstr p st = .ok i)
    (rest : List Byte) : decode p .statusReply (encodeResponse p [st] ++ rest) = .ok (i, rest) := by
  simp [decode, decodeStatus, decodeResponse_encode hp [st] rest (.inr rfl), h]

theorem decodeToken_cons (value : Byte) (i : Instr) (rest : List Byte) :
    decodeToken value i (value :: rest) = .ok (i, rest) := by simp [decodeToken]

/-- Settles O14: the command frames by their parts, the responses by their payload, the tokens by their byte. -/
theorem decodeOfEncodeIsIdentity : Obligations.DecodeOfEncodeIsIdentity := by
  intro p i rest hp hw
  obtain ⟨h12, h13, h14, h23, h24, h34⟩ := hp.statuses
  cases i with
  | read a n => exact decode_encode_of_commandParts hp hw rfl rest
  | writeRam a l => exact decode_encode_of_commandParts hp hw rfl rest
  | writeNvm a l => exact decode_encode_of_commandParts hp hw rfl rest
  | go a l => exact decode_encode_of_commandParts hp hw rfl rest
  | execPayload a l => exact decode_encode_of_commandParts hp hw rfl rest
  | invalid c a l => exact decode_encode_of_commandParts hp hw rfl rest
  | checksumError c a n l k => exact decode_encode_of_commandParts hp hw rfl rest
  | statusSuccess => exact decode_encode_status hp (by simp [statusInstr]) rest
  | statusChecksumError => exact decode_encode_status hp (by simp [statusInstr, h12.symm]) rest
  | statusInvalidCommand => exact decode_encode_status hp (by simp [statusInstr, h13.symm, h23.symm]) rest
  | statusProgrammingProtected =>
    exact decode_encode_status hp (by simp [statusInstr, h14.symm, h24.symm, h34.symm]) rest
  | data l =>
    have hl : l.length ≤ p.maxPayload := by simpa [wellFormed, lengthFits] using hw
    simp [streamOf, encode, decode, decodeData, decodeResponse_encode hp l rest (.inl hl)]
  | sync0 => exact decodeToken_cons ..
  | sync1 => exact decodeToken_cons ..
  | ack => exact decodeToken_cons ..
  | imgLen n =>
    have hn : n ≠ 0 := by simpa [wellFormed] using hw
    exact if_neg hn

/-! ## Encode of decode -/

/-- Where the decoder reads a command, the bytes are a whole frame, and the instruction is what the frame's fields and
its verdict select (R91, R166). -/
theorem decodeCommand_eq_ok {p : Params} {bytes rest : List Byte} {i : Instr}
    (h : decodeCommand p bytes = .ok (i, rest)) :
    ∃ c a n l k, n.toNat ≤ p.maxPayload ∧ l.length = wireN p c n ∧
      bytes = framePrefix p c a n ++ l ++ [k] ++ rest ∧
      i = frameInstr p ⟨c, a, n, l⟩ k (k == frameChecksum p c a n l) := by
  unfold decodeCommand at h
  split at h
  · rename_i hd c ah al n tail
    split_ifs at h with hhd hn
    obtain rfl : hd = p.cmdHeader := not_not.mp hhd
    simp only [decodeTail] at h
    split at h
    · cases h
    · rename_i k rest' hdrop
      cases h
      have hlen : wireN p c n ≤ tail.length := by
        by_contra hlt
        rw [List.drop_of_length_le (by omega)] at hdrop
        cases hdrop
      refine ⟨c, addrOf ah al, n, tail.take (wireN p c n), k, by omega, by simp [hlen], ?_, rfl⟩
      have htail : tail = tail.take (wireN p c n) ++ k :: rest := by rw [← hdrop, List.take_append_drop]
      simpa [framePrefix] using htail
  · split_ifs at h
  · cases h

/-- The sorting of a frame loses nothing: the instruction is well formed and encodes to the frame (R166, R110). -/
theorem encode_frameInstr {p : Params} {c : Byte} {a : Addr} {n : Byte} {l : List Byte} {k : Byte}
    (hn : n.toNat ≤ p.maxPayload) (hl : l.length = wireN p c n) :
    wellFormed p (frameInstr p ⟨c, a, n, l⟩ k (k == frameChecksum p c a n l)) = true ∧
    streamOf (frameInstr p ⟨c, a, n, l⟩ k (k == frameChecksum p c a n l)) = .command ∧
    encode p (frameInstr p ⟨c, a, n, l⟩ k (k == frameChecksum p c a n l)) = framePrefix p c a n ++ l ++ [k] := by
  by_cases hk : k = frameChecksum p c a n l
  · simp only [frameInstr, hk, beq_self_eq_true, Bool.true_eq_false, if_false]
    by_cases hread : c = p.opcRead
    · subst hread
      obtain rfl : l = [] := by simpa [wireN_read] using hl
      simp [wellFormed, streamOf, encode, encodeFrame, hn]
    · rw [wireN_other hread] at hl
      have hlen : lenByte l = n := by simp [lenByte, hl]
      have hfits : lengthFits p l = true := by simp [lengthFits, hl, hn]
      rw [if_neg hread]
      split_ifs with hwrite hram hgo hexec
      · simp [wellFormed, streamOf, encode, encodeFrame, hlen, hfits, hram, hwrite]
      · simp [wellFormed, streamOf, encode, encodeFrame, hlen, hfits, hram, hwrite]
      · simp [wellFormed, streamOf, encode, encodeFrame, hlen, hfits, hgo]
      · simp [wellFormed, streamOf, encode, encodeFrame, hlen, hfits, hexec]
      · simp [wellFormed, streamOf, encode, encodeFrame, hlen, hfits, assigned, hread, hwrite, hgo, hexec]
  · simp [frameInstr, hk, wellFormed, streamOf, encode, hn, hl]

/-- Settles O15. -/
theorem decodedCommandIsWellFormed : Obligations.DecodedCommandIsWellFormed := by
  intro p bytes i rest _ h
  obtain ⟨c, a, n, l, k, hn, hl, rfl, rfl⟩ := decodeCommand_eq_ok h
  obtain ⟨hw, hstream, henc⟩ := encode_frameInstr (a := a) (k := k) hn hl
  exact ⟨hw, hstream, by rw [henc]⟩

/-! ## The exclusive or of a frame (R97, R134, R159) -/

theorem xorBytes_encodeFrame (p : Params) (c : Byte) (a : Addr) (n : Byte) (l : List Byte) :
    xorBytes (encodeFrame p c a n l) = 0 := xorBytes_with_checksum _

theorem xorBytes_encodeResponse (p : Params) (l : List Byte) : xorBytes (encodeResponse p l) = 0 :=
  xorBytes_with_checksum _

/-- Settles O17. -/
theorem validFramesXorToZero : Obligations.ValidFramesXorToZero := by
  intro p i hstream hvalid
  cases i with
  | read a n => exact xorBytes_encodeFrame ..
  | writeRam a l => exact xorBytes_encodeFrame ..
  | writeNvm a l => exact xorBytes_encodeFrame ..
  | go a l => exact xorBytes_encodeFrame ..
  | execPayload a l => exact xorBytes_encodeFrame ..
  | invalid c a l => exact xorBytes_encodeFrame ..
  | checksumError c a n l k => exact absurd rfl (hvalid c a n l k)
  | statusSuccess => exact xorBytes_encodeResponse ..
  | statusChecksumError => exact xorBytes_encodeResponse ..
  | statusInvalidCommand => exact xorBytes_encodeResponse ..
  | statusProgrammingProtected => exact xorBytes_encodeResponse ..
  | data l => exact xorBytes_encodeResponse ..
  | sync0 => simp [streamOf] at hstream
  | sync1 => simp [streamOf] at hstream
  | ack => simp [streamOf] at hstream
  | imgLen n => simp [streamOf] at hstream

/-- A frame whose bytes do not cancel out is read as one with a wrong checksum (R97, R167). -/
theorem decode_of_xorBytes_ne_zero {p : Params} {c : Byte} {a : Addr} {n : Byte} {l : List Byte} {k : Byte}
    (hn : n.toNat ≤ p.maxPayload) (hl : l.length = wireN p c n)
    (hx : xorBytes (framePrefix p c a n ++ l ++ [k]) ≠ 0) :
    decode p .command (framePrefix p c a n ++ l ++ [k]) = .ok (.checksumError c a n l k, []) := by
  have hk : k ≠ frameChecksum p c a n l := by
    rintro rfl
    exact hx (xorBytes_with_checksum _)
  have hdecode := decodeCommand_complete p c a n l k [] hn hl
  rw [List.append_nil] at hdecode
  rw [decode, hdecode]
  simp [frameInstr, hk]

/-- A changed byte of a frame, header and length aside, gives a frame of the same length byte and as many payload
bytes (R134). -/
theorem exists_frame_set {p : Params} (f : CommandFrame) (k : Byte) {j : Nat} (b : Byte)
    (hj : j < (framePrefix p f.cmd f.addr f.len ++ f.payload ++ [k]).length)
    (hplace : (j = 2 ∨ j = 3 ∨ 5 ≤ j) ∨ (j = 1 ∧ wireN p b f.len = wireN p f.cmd f.len)) :
    ∃ c a l x, (framePrefix p f.cmd f.addr f.len ++ f.payload ++ [k]).set j b = framePrefix p c a f.len ++ l ++ [x] ∧
      wireN p c f.len = wireN p f.cmd f.len ∧ l.length = f.payload.length := by
  obtain ⟨rfl | rfl | hj5⟩ | ⟨rfl, hwire⟩ := hplace
  · exact ⟨f.cmd, addrOf b (addrLo f.addr), f.payload, k, by simp [framePrefix], rfl, rfl⟩
  · exact ⟨f.cmd, addrOf (addrHi f.addr) b, f.payload, k, by simp [framePrefix], rfl, rfl⟩
  · have hprefix : (framePrefix p f.cmd f.addr f.len).length ≤ j := hj5
    rw [List.append_assoc, List.set_append_right _ _ hprefix]
    by_cases hpay : j - (framePrefix p f.cmd f.addr f.len).length < f.payload.length
    · rw [List.set_append_left _ _ hpay]
      exact ⟨f.cmd, f.addr, _, k, (List.append_assoc ..).symm, rfl, List.length_set⟩
    · have hlast : j - (framePrefix p f.cmd f.addr f.len).length = f.payload.length := by
        simp only [List.length_append, List.length_singleton] at hj
        omega
      refine ⟨f.cmd, f.addr, f.payload, b, ?_, rfl, rfl⟩
      rw [List.set_append_right _ _ (by omega), hlast, Nat.sub_self, List.append_assoc]
      rfl
  · exact ⟨b, f.addr, f.payload, k, by simp [framePrefix], hwire, rfl⟩

/-- Settles O19: the changed byte moves the exclusive or away from 0, and the frame's shape stays. -/
theorem oneChangedByteIsDetected : Obligations.OneChangedByteIsDetected := by
  intro p i f k j b hp hw hparts hvalid hj hb hplace
  obtain ⟨hn, hl, henc, -, hstream⟩ := commandParts_spec hp hw hparts
  have hzero := validFramesXorToZero p i (.inl hstream) hvalid
  have hchanged : xorBytes ((encode p i).set j b) ≠ 0 := by
    rw [xorBytes_set _ _ _ hj, hzero]
    intro h
    rw [List.getElem?_eq_getElem hj] at hb
    exact hb (congrArg some (BitVec.xor_eq_zero_iff.mp (by simpa using h)))
  rw [henc] at hj hchanged ⊢
  obtain ⟨c, a, l, x, hset, hwire, hlen⟩ := exists_frame_set f k b hj hplace
  rw [hset] at hchanged ⊢
  exact ⟨c, a, f.len, l, x, decode_of_xorBytes_ne_zero hn (by rw [hlen, hl, hwire]) hchanged⟩

/-- Settles O16: the twelve words, evaluated. -/
theorem tableWordsDecode : Obligations.TableWordsDecode := by
  unfold Obligations.TableWordsDecode
  decide

end Sys2Proof.Machine
end

section
/-!
PROOFS. The invariant (10_state.md sections 2 to 4): what each phase asks for beside the parts that hold in every phase,
that every operation keeps those parts, and the claims O4 and O5.
-/

namespace Sys2Proof.Machine

/-! ## The parts that hold in every phase -/

/-- The invariant without its clauses on the owner, the session, the decoder and the encoder. -/
structure Sound (s : State) : Prop where
  legal : s.cfg.Legal
  memory : Memory.wf s.mem = true
  bufLength : s.buf.length = s.cfg.bufSize
  handshake : HandshakeFits s
  counts : CountsFit s

/-- The registers `Sound` speaks of, `buf` aside. -/
def soundRegisters (s : State) :=
  (s.cfg, s.hsState, s.hsTimer, s.imgLen, s.imgRem, s.imgPtr, s.loadAddr, s.idx, s.src, s.rem, s.txIdx)

theorem Sound.congr {s t : State} (h : Sound s) (hm : Memory.wf t.mem = true) (hb : t.buf.length = s.buf.length)
    (hr : soundRegisters t = soundRegisters s) : Sound t := by
  obtain ⟨hlegal, -, hbuf, hhs, hcounts⟩ := h
  simp only [soundRegisters, Prod.mk.injEq] at hr
  obtain ⟨h1, h2, h3, h4, h5, h6, h7, h8, h9, h10, h11⟩ := hr
  refine ⟨h1 ▸ hlegal, hm, by rw [hb, hbuf, h1], ?_, ?_⟩
  · simpa only [HandshakeFits, h1, h2, h3, h4, h5, h6, h7] using hhs
  · simpa only [CountsFit, h1, h5, h8, h9, h10, h11] using hcounts

theorem Inv.sound {s : State} (h : Inv s) : Sound s := ⟨h.legal, h.memory, h.bufLength, h.handshake, h.counts⟩

/-- Events and actions are no part of the invariant. -/
theorem Inv.with_events {s : State} (h : Inv s) (es : List Event) (as : List Action) :
    Inv { s with inputs := es, trace := as } :=
  ⟨h.legal, h.memory, h.bufLength, h.ownership, h.session, h.decoder, h.encoder, h.handshake, h.counts⟩

theorem Inv.closed {s : State} (h : Inv s) (hp : s.cuPhase ≠ .execute) :
    s.sessionOpen = false ∧ s.weState = .idle := by
  obtain ⟨hopen, hidle, -⟩ := h.session
  exact ⟨by simpa using mt hopen.mp hp, hidle hp⟩

/-- Outside EXECUTE the session clause says only that none is open. -/
theorem sessionFits_closed {s : State} (hp : s.cuPhase ≠ .execute) (ho : s.sessionOpen = false)
    (hw : s.weState = .idle) : SessionFits s :=
  ⟨by simp [ho, hp], fun _ => hw, fun h => absurd h hp⟩

/-! ## The handshake (R21 to R24) -/

/-- The handshake unit owns execution and the command unit is disabled. -/
structure Handshaking (s : State) : Prop extends Sound s where
  owner : s.owner = .hs
  phase : s.cuPhase = .disabled
  closed : s.sessionOpen = false
  idle : s.weState = .idle

theorem Inv.handshaking {s : State} (h : Inv s) (ho : s.owner = .hs) : Handshaking s := by
  have hown := h.ownership
  rw [OwnershipFits, ho] at hown
  have hclosed := h.closed (by simp [hown.1])
  exact { h.sound with owner := ho, phase := hown.1, closed := hclosed.1, idle := hclosed.2 }

theorem Handshaking.inv {s : State} (h : Handshaking s) (he : s.hsState ≠ .enteredImage)
    (hf : s.hsState ≠ .fellThrough) : Inv s where
  legal := h.legal
  memory := h.memory
  bufLength := h.bufLength
  ownership := by rw [OwnershipFits, h.owner]; exact ⟨h.phase, he, hf⟩
  session := sessionFits_closed (by simp [h.phase]) h.closed h.idle
  decoder := fun hp => by simp [h.phase] at hp
  encoder := fun hp => by simp [h.phase] at hp
  handshake := h.handshake
  counts := h.counts

/-- A step of the handshake that leaves the image registers alone and does not enter IMG_DATA. -/
theorem Handshaking.move {s : State} (h : Handshaking s) {x : HsState} {n : Nat} (hx : x ≠ .imgData)
    (hn : n ≤ s.cfg.tHs) (hwait : x = .waitAck → 1 ≤ n) : Handshaking { s with hsState := x, hsTimer := n } :=
  { legal := h.legal
    memory := h.memory
    bufLength := h.bufLength
    handshake := ⟨hn, hwait, fun he => absurd he hx⟩
    counts := h.counts
    owner := h.owner
    phase := h.phase
    closed := h.closed
    idle := h.idle }

theorem Handshaking.with_surroundings {s : State} (h : Handshaking s) (rate : Nat) (as : List Action) :
    Handshaking { s with serialRate := rate, trace := as } :=
  ⟨⟨h.legal, h.memory, h.bufLength, h.handshake, h.counts⟩, h.owner, h.phase, h.closed, h.idle⟩

/-! ## The command unit (R25) -/

/-- The command unit owns execution and no session is open. -/
structure Commanding (s : State) : Prop extends Sound s where
  owner : s.owner = .cu
  entered : s.hsState = .enteredImage
  closed : s.sessionOpen = false
  idle : s.weState = .idle

theorem Inv.entered {s : State} (h : Inv s) (ho : s.owner = .cu) : s.hsState = .enteredImage := by
  have hown := h.ownership
  rw [OwnershipFits, ho] at hown
  exact hown.1

theorem Inv.commanding {s : State} (h : Inv s) (ho : s.owner = .cu) (hp : s.cuPhase ≠ .execute) : Commanding s :=
  { h.sound with owner := ho, entered := h.entered ho, closed := (h.closed hp).1, idle := (h.closed hp).2 }

theorem Commanding.congr {s t : State} (h : Commanding s) (hm : Memory.wf t.mem = true)
    (hb : t.buf.length = s.buf.length) (hr : soundRegisters t = soundRegisters s)
    (ho : (t.owner, t.sessionOpen, t.weState) = (s.owner, s.sessionOpen, s.weState)) : Commanding t := by
  have hentered : t.hsState = s.hsState := congrArg (·.2.1) hr
  simp only [Prod.mk.injEq] at ho
  obtain ⟨howner, hopen, hwe⟩ := ho
  exact { h.toSound.congr hm hb hr with
    owner := howner.trans h.owner
    entered := hentered.trans h.entered
    closed := hopen.trans h.closed
    idle := hwe.trans h.idle }

/-- Out of RECEIVE, EXECUTE and RESPOND, the invariant asks for the owner only. -/
theorem Sound.inv_outside {s : State} (h : Sound s) (ho : s.owner = .ext) (hh : s.hsState = .enteredImage)
    (hp : s.cuPhase = .execWait ∨ s.cuPhase = .released) (hc : s.sessionOpen = false) (hw : s.weState = .idle) :
    Inv s where
  legal := h.legal
  memory := h.memory
  bufLength := h.bufLength
  ownership := by rw [OwnershipFits, ho]; exact .inr ⟨hh, hp⟩
  session := sessionFits_closed (by rcases hp with hp | hp <;> simp [hp]) hc hw
  decoder := fun hr => by rcases hp with hp | hp <;> simp [hp] at hr
  encoder := fun hr => by rcases hp with hp | hp <;> simp [hp] at hr
  handshake := h.handshake
  counts := h.counts

theorem Commanding.inv_receive {s : State} (h : Commanding s) (hp : s.cuPhase = .receive) (hd : DecoderFits s) :
    Inv s where
  legal := h.legal
  memory := h.memory
  bufLength := h.bufLength
  ownership := by rw [OwnershipFits, h.owner]; exact ⟨h.entered, .inl hp⟩
  session := sessionFits_closed (by simp [hp]) h.closed h.idle
  decoder := hd
  encoder := fun hr => by simp [hp] at hr
  handshake := h.handshake
  counts := h.counts

theorem Commanding.inv_respond {s : State} (h : Commanding s) (hp : s.cuPhase = .respond) (he : EncoderFits s) :
    Inv s where
  legal := h.legal
  memory := h.memory
  bufLength := h.bufLength
  ownership := by rw [OwnershipFits, h.owner]; exact ⟨h.entered, .inr (.inr hp)⟩
  session := sessionFits_closed (by simp [hp]) h.closed h.idle
  decoder := fun hr => by simp [hp] at hr
  encoder := he
  handshake := h.handshake
  counts := h.counts

/-- The way back to HUNT (R292). -/
theorem Commanding.inv_backToHunt {s : State} (h : Commanding s) : Inv (backToHunt s) :=
  Commanding.inv_receive
    (s := backToHunt s) (h.congr (by simpa using h.memory) rfl rfl rfl) rfl
    fun _ => ⟨fun hx => absurd rfl hx, nofun, nofun⟩

/-- The start of a response (R150). -/
theorem Commanding.inv_sendResponse {s : State} (h : Commanding s) {n : Byte} (hn : n.toNat ≤ s.cfg.bufSize) :
    Inv (sendResponse n s) := by
  obtain ⟨hidx, hsrc, hrem, -, himg⟩ := h.counts
  refine Commanding.inv_respond (s := sendResponse n s) ⟨⟨h.legal, h.memory, h.bufLength, h.handshake,
    hidx, hsrc, hrem, Nat.zero_le _, himg⟩, h.owner, h.entered, h.closed, h.idle⟩ rfl fun _ => ?_
  exact ⟨hn, fun hx => absurd rfl hx, fun _ => rfl, nofun, nofun⟩

/-- The start of a status response (R155). -/
theorem Commanding.inv_sendStatus {s : State} (h : Commanding s) (st : Byte) : Inv (sendStatus st s) :=
  Commanding.inv_sendResponse (s := setBuf 0 st { s with status := st })
    (h.congr h.memory (by simp) rfl rfl) h.legal.bufSize_pos

/-! ## The decoder (R122 to R127, R130) -/

/-- What a byte that completes no frame leaves. -/
def Acquiring (t : State) : Prop := Commanding t ∧ t.cuPhase = .receive ∧ DecoderFits t

theorem Acquiring.inv {t : State} (h : Acquiring t) : Inv t := by
  obtain ⟨hcu, hp, hd⟩ := h
  exact hcu.inv_receive hp hd

section
variable {s : State}

/-- A new place in the frame at or before the length byte: only the running checksum has to fit. -/
theorem Commanding.acquiring_header (h : Commanding s) (hp : s.cuPhase = .receive) {x : RxState} {c k : Byte} {a : Addr}
    (hx : x ≠ .payload ∧ x ≠ .cksum)
    (hk : x ≠ .hunt → k = xorBytes (frameSoFar { s with rxState := x, cmd := c, cks := k, addr := a })) :
    Acquiring { s with rxState := x, cmd := c, cks := k, addr := a } :=
  ⟨h.congr h.memory rfl rfl rfl, hp, fun _ => ⟨hk, fun he => absurd he hx.1, fun he => absurd he hx.2⟩⟩

/-- The length byte, R126. -/
theorem Commanding.acquiring_len (h : Commanding s) (hp : s.cuPhase = .receive) (hrx : s.rxState = .len)
    (hcks : s.cks = xorBytes (frameSoFar s)) {b : Byte} (hle : b.toNat ≤ s.cfg.maxPayload) :
    Acquiring (decodeNextByte b s).1 := by
  obtain ⟨-, hcounts⟩ := h.counts
  have hsum : s.cks ^^^ b = xorBytes (framePrefix s.cfg s.cmd s.addr b ++ s.buf.take 0) := by
    simp [hcks, frameSoFar, framePrefix, hrx, BitVec.xor_assoc]
  rw [decodeNextByte_len hrx hle]
  refine ⟨⟨⟨h.legal, h.memory, h.bufLength, h.handshake, Nat.zero_le _, hcounts⟩, h.owner, h.entered, h.closed,
    h.idle⟩, hp, fun _ => ?_⟩
  by_cases hw : wireN s.cfg s.cmd b = 0
  · rw [if_pos hw]
    exact ⟨fun _ => hsum, nofun, fun _ => ⟨hw.symm, hle⟩⟩
  · rw [if_neg hw]
    have hwire : wireN s.cfg s.cmd b = b.toNat := wireN_other (fun hc => hw (by rw [hc, wireN_read])) b
    exact ⟨fun _ => hsum, fun _ => ⟨Nat.pos_of_ne_zero (hwire ▸ hw), hle, hwire⟩, nofun⟩

/-- A payload byte, R127. -/
theorem Commanding.acquiring_payload (h : Commanding s) (hp : s.cuPhase = .receive) (hrx : s.rxState = .payload)
    (hcks : s.cks = xorBytes (frameSoFar s)) (hlt : s.idx < s.len.toNat) (hle : s.len.toNat ≤ s.cfg.maxPayload)
    (hwire : wireN s.cfg s.cmd s.len = s.len.toNat) (b : Byte) : Acquiring (decodeNextByte b s).1 := by
  obtain ⟨-, hcounts⟩ := h.counts
  have hroom : s.idx < s.buf.length :=
    h.bufLength ▸ (hlt.trans_le hle).trans_le Params.Legal.maxPayload_le_bufSize
  have hsum : s.cks ^^^ b =
      xorBytes (framePrefix s.cfg s.cmd s.addr s.len ++ (s.buf.set s.idx b).take (s.idx + 1)) := by
    rw [take_set_succ _ _ _ hroom, hcks, frameSoFar, hrx]
    simp [BitVec.xor_assoc]
  rw [decodeNextByte_payload b hrx]
  refine ⟨⟨⟨h.legal, h.memory, by simpa using h.bufLength, h.handshake, hlt.trans_le hle, hcounts⟩,
    h.owner, h.entered, h.closed, h.idle⟩, hp, fun _ => ?_⟩
  by_cases hlast : s.idx + 1 = s.len.toNat
  · rw [if_pos hlast]
    exact ⟨fun _ => hsum, nofun, fun _ => ⟨hlast.trans hwire.symm, hle⟩⟩
  · rw [if_neg hlast]
    exact ⟨fun _ => hsum, fun _ => ⟨Nat.lt_of_le_of_ne hlt hlast, hle, hwire⟩, nofun⟩

/-- One byte before the checksum, whatever it is. -/
theorem Commanding.acquiring_decodeNextByte (h : Commanding s) (hp : s.cuPhase = .receive) (hd : DecoderFits s)
    (hx : s.rxState ≠ .cksum) (b : Byte) : Acquiring (decodeNextByte b s).1 := by
  obtain ⟨hcks, hpay, -⟩ := hd hp
  cases hrx : s.rxState with
  | hunt =>
    by_cases hb : b = s.cfg.cmdHeader
    · subst hb
      rw [decodeNextByte_hunt hrx]
      exact h.acquiring_header hp ⟨nofun, nofun⟩ fun _ => by simp [frameSoFar]
    · rw [decodeNextByte_noise hrx hb]
      exact ⟨h, hp, hd⟩
  | cmd =>
    rw [decodeNextByte_cmd b hrx]
    exact h.acquiring_header hp ⟨nofun, nofun⟩ fun _ => by simp [hcks, frameSoFar, hrx]
  | addrHi =>
    rw [decodeNextByte_addrHi b hrx]
    exact h.acquiring_header hp ⟨nofun, nofun⟩ fun _ => by simp [hcks, frameSoFar, hrx, BitVec.xor_assoc]
  | addrLo =>
    rw [decodeNextByte_addrLo b hrx]
    exact h.acquiring_header hp ⟨nofun, nofun⟩ fun _ => by simp [hcks, frameSoFar, hrx, BitVec.xor_assoc]
  | len =>
    by_cases hb : s.cfg.maxPayload < b.toNat
    · rw [decodeNextByte_oversized hrx hb]
      exact h.acquiring_header hp ⟨nofun, nofun⟩ fun he => absurd rfl he
    · exact h.acquiring_len hp hrx (hcks (by simp [hrx])) (Nat.le_of_not_lt hb)
  | payload =>
    obtain ⟨hlt, hle, hwire⟩ := hpay hrx
    exact h.acquiring_payload hp hrx (hcks (by simp [hrx])) hlt hle hwire b
  | cksum => exact absurd hrx hx

end

/-! ## The encoder (R151 to R154) -/

theorem Commanding.inv_encodeNextByte {s : State} (h : Commanding s) (hp : s.cuPhase = .respond)
    (he : EncoderFits s) : Inv (encodeNextByte s) := by
  obtain ⟨hlen, hcks, hstart, hpay, -⟩ := he hp
  obtain ⟨hidx, hsrc, hrem, -, himg⟩ := h.counts
  cases htx : s.txState with
  | hdr =>
    have hzero := hstart (.inl htx)
    simp only [encodeNextByte, htx, txHdr]
    refine Commanding.inv_respond (h.congr h.memory rfl rfl rfl) hp fun _ => ⟨hlen, fun _ => ?_, fun _ => hzero, nofun, nofun⟩
    simp [responseSoFar, emit]
  | len =>
    have hzero := hstart (.inr htx)
    simp only [encodeNextByte, htx, txLenByte]
    refine Commanding.inv_respond (h.congr h.memory rfl rfl rfl) hp fun _ => ?_
    have hsum : s.txCks ^^^ s.txLen = xorBytes (s.cfg.respHeader :: s.txLen :: s.buf.take s.txIdx) := by
      simp [hcks (by simp [htx]), responseSoFar, htx, hzero]
    by_cases hn : s.txLen = 0
    · simp only [emit, hn, if_true]
      exact ⟨Nat.zero_le _, fun _ => hn ▸ hsum, nofun, nofun, fun _ => hzero⟩
    · simp only [emit, hn, if_false]
      have hpos : s.txLen.toNat ≠ 0 := fun h0 => hn (BitVec.eq_of_toNat_eq h0)
      refine ⟨hlen, fun _ => hsum, nofun, fun _ => ?_, nofun⟩
      show s.txIdx < s.txLen.toNat
      omega
  | payload =>
    have hlt := hpay htx
    have hroom : s.txIdx < s.buf.length := by rw [h.bufLength]; omega
    simp only [encodeNextByte, htx, txPayloadByte]
    have hbyte : s.buf.take (s.txIdx + 1) = s.buf.take s.txIdx ++ [s.buf.getD s.txIdx 0] := by
      simp [hroom]
    have hsum : s.txCks ^^^ s.buf.getD s.txIdx 0 =
        xorBytes (s.cfg.respHeader :: s.txLen :: s.buf.take (s.txIdx + 1)) := by
      rw [hbyte, hcks (by simp [htx]), responseSoFar, htx]
      generalize s.buf.getD s.txIdx 0 = b
      simp [BitVec.xor_assoc]
    refine Commanding.inv_respond ⟨⟨h.legal, h.memory, h.bufLength, h.handshake, hidx, hsrc, hrem,
      show s.txIdx + 1 ≤ _ from hlt.trans_le hlen, himg⟩, h.owner, h.entered, h.closed, h.idle⟩ hp fun _ => ?_
    by_cases hlast : s.txIdx + 1 = s.txLen.toNat
    · simp only [emit, if_pos hlast]
      exact ⟨hlen, fun _ => hsum, nofun, nofun, fun _ => hlast⟩
    · simp only [emit, if_neg hlast]
      exact ⟨hlen, fun _ => hsum, nofun, fun _ => Nat.lt_of_le_of_ne hlt hlast, nofun⟩
  | cks =>
    simp only [encodeNextByte, htx, txCksByte]
    exact Commanding.inv_backToHunt (h.congr h.memory rfl rfl rfl)

/-! ## Commands (R167 to R173) -/

section
variable {s : State}

theorem Commanding.inv_read (h : Commanding s) (a : Addr) {n : Byte} (hn : n.toNat ≤ s.cfg.maxPayload) :
    Inv (sendResponse n (copyIn a n.toNat 0 s)) := by
  have hcopy : Commanding (copyIn a n.toNat 0 s) :=
    h.congr (copyIn_wf _ _ _ h.memory) (copyIn_bufLength ..) (by simp [soundRegisters]) (by simp)
  refine hcopy.inv_sendResponse ?_
  rw [(copyIn_fields ..).1]
  exact hn.trans Params.Legal.maxPayload_le_bufSize

theorem Commanding.inv_writeRam (h : Commanding s) (r : Region) (a : Addr) (l : List Byte) (st : Byte) :
    Inv (sendStatus st (copyOut a l.length 0 (loadPayload l { s with region := r }))) := by
  have hload : Commanding (loadPayload l { s with region := r }) :=
    h.congr h.memory (loadPayload_bufLength ..) rfl rfl
  exact (hload.congr (copyOut_wf _ _ _ hload.memory) (copyOut_bufLength ..) (by simp [soundRegisters])
    (by simp)).inv_sendStatus st

/-- GO, R172. -/
theorem Commanding.inv_released (h : Commanding s) (as : List Action) :
    Inv { s with cuPhase := .released, owner := .ext, trace := as } :=
  Sound.inv_outside (h.toSound.congr h.memory rfl rfl) rfl h.entered (.inr rfl) h.closed h.idle

/-- EXEC, R173. -/
theorem Commanding.inv_called (h : Commanding s) {b : List Byte} (hb : b.length = s.buf.length) (as : List Action) :
    Inv { s with buf := b, cuPhase := .execWait, owner := .ext, trace := as } :=
  Sound.inv_outside (h.toSound.congr h.memory hb rfl) rfl h.entered (.inl rfl) h.closed h.idle

end

/-! ## The write engine (R204 to R211) -/

/-- An open session before the store of its byte number `src`, or before its lock if none remains (R205). -/
structure Programming (s : State) : Prop extends Sound s where
  owner : s.owner = .cu
  entered : s.hsState = .enteredImage
  opened : s.sessionOpen = true
  phase : s.cuPhase = .execute
  cmd : s.cmd = s.cfg.opcWrite
  region : s.region = classify s.cfg s.addr
  notRam : s.region ≠ .ram
  takes : takesStore s s.region = true
  status : s.status = s.cfg.stSuccess
  total : s.src + s.rem = s.len.toNat
  fits : s.len.toNat ≤ s.cfg.maxPayload
  dst : s.dst = addrPlus s.addr s.src

section
variable {s : State}

/-- Whether a store is taken does not depend on the program cycle (R47, R71). -/
theorem takesStore_congr {t : State} (hcfg : t.cfg = s.cfg) (hn : t.nvm = { s.nvm with cycle := t.nvm.cycle })
    (r : Region) : takesStore t r = takesStore s r := by
  have henabled : t.nvm.enabled r = s.nvm.enabled r := by rw [hn]; cases r <;> rfl
  have hmode : t.nvm.progMode = s.nvm.progMode := by rw [hn]
  rw [takesStore, takesStore, henabled, hmode, hcfg]

/-- The lock and its answer (R211). -/
theorem Sound.inv_lock (h : Sound s) (ho : s.owner = .cu) (hh : s.hsState = .enteredImage) (hr : s.region ≠ .ram) :
    Inv (lock s) := by
  have hcu : Commanding { s with
      weState := .idle
      nvm := lockedNvm s.cfg s.region s.nvm
      sessionOpen := false
      trace := s.trace ++ lockActions s.cfg s.region } :=
    { h.congr h.memory rfl rfl with owner := ho, entered := hh, closed := rfl, idle := rfl }
  rw [lock_eq hr]
  exact hcu.inv_sendStatus s.status

theorem programNext_nvm (hr : s.rem ≠ 0) : (programNext s).nvm = { s.nvm with cycle := (programNext s).nvm.cycle } := by
  simp only [programNext, if_neg hr, emit_fields]
  exact memWrite_nvm ..

theorem Programming.sound_programNext (h : Programming s) (hr : s.rem ≠ 0) : Sound (programNext s) := by
  refine h.toSound.congr ?_ ?_ (by simp [programNext, hr, soundRegisters])
  · simp only [programNext, if_neg hr, emit_fields]
    exact memWrite_wf (s := { s with weState := .store }) h.memory _ _
  · simp only [programNext, if_neg hr, emit_fields]
    exact memWrite_bufLength ..

/-- `program_next()` (R205): the session waits for the poll of its store, or is locked. -/
theorem Programming.inv_programNext (h : Programming s) : Inv (programNext s) := by
  by_cases hr : s.rem = 0
  · rw [programNext_done hr]
    exact h.toSound.inv_lock h.owner h.entered h.notRam
  · have hsound := h.sound_programNext hr
    have hcfg := programNext_cfg s
    have hpos := Nat.one_le_iff_ne_zero.mpr hr
    have hhs : (programNext s).hsState = .enteredImage := by simpa [programNext, hr] using h.entered
    have hframe : (programNext s).cmd = s.cmd ∧ (programNext s).addr = s.addr ∧ (programNext s).len = s.len := by
      simp [programNext, hr]
    obtain ⟨ho, hp, hw, hreg, hdst, hsrc, hrem, hopen, hst, -⟩ := programNext_fields hr
    obtain ⟨hcmd, haddr, hlen⟩ := hframe
    have hphase := hp.trans h.phase
    have htakes := takesStore_congr hcfg (programNext_nvm hr) s.region
    exact {
      legal := hsound.legal
      memory := hsound.memory
      bufLength := hsound.bufLength
      ownership := by
        rw [OwnershipFits, ho, h.owner]
        exact ⟨hhs, .inr (.inl hphase)⟩
      session := by
        rw [SessionFits, hw, hreg, htakes, hopen, hrem, hsrc, hdst, hst, hcmd, haddr, hlen, hcfg, hphase]
        exact ⟨⟨fun _ => rfl, fun _ => h.opened⟩, fun hne => absurd rfl hne, fun _ => ⟨rfl, h.cmd, h.region, h.notRam,
          h.takes, h.status, hpos, h.total, h.fits, h.dst⟩⟩
      decoder := fun he => by simp [hphase] at he
      encoder := fun he => by simp [hphase] at he
      handshake := hsound.handshake
      counts := hsound.counts }

/-- WRITE to a non-volatile region begins a session (R171, R204). -/
theorem Commanding.programming_opened (h : Commanding s) (hp : s.cuPhase = .execute) {l : List Byte}
    (hcmd : s.cmd = s.cfg.opcWrite) (hlen : l.length = s.len.toNat) (hfits : s.len.toNat ≤ s.cfg.maxPayload)
    (hram : classify s.cfg s.addr ≠ .ram) : Programming (opened s.addr l s) := by
  obtain ⟨hidx, -, -, hcounts⟩ := h.counts
  have hbuf : (l ++ s.buf.drop l.length).length = s.buf.length := by
    have hsize := Params.Legal.maxPayload_le_bufSize (p := s.cfg)
    have hlength := h.bufLength
    simp only [List.length_append, List.length_drop]
    omega
  exact {
    legal := h.legal
    memory := h.memory
    bufLength := hbuf.trans h.bufLength
    handshake := h.handshake
    counts := ⟨hidx, Nat.zero_le _, hlen.trans_le hfits, hcounts⟩
    owner := h.owner
    entered := h.entered
    opened := rfl
    phase := hp
    cmd := hcmd
    region := rfl
    notRam := hram
    takes := takesStore_opened l hram
    status := rfl
    total := (Nat.zero_add _).trans hlen
    fits := hfits
    dst := (addrPlus_zero _).symm }

/-- A confirmed byte leads to the next (R206). -/
theorem Inv.programming_byteDone (h : Inv s) (hp : s.cuPhase = .execute) : Programming (byteDone s) := by
  obtain ⟨hopen, -, hsession⟩ := h.session
  obtain ⟨-, hcmd, hreg, hram, htakes, hst, hpos, htotal, hfits, hdst⟩ := hsession hp
  have hcommit : Sound (commitCycle s) :=
    h.sound.congr (commitCycle_wf h.memory) (by simp) (by simp [soundRegisters])
  obtain ⟨hidx, hsrc, hrem, hcounts⟩ := hcommit.counts
  have ho := h.owner_of_execute hp
  have htotal' : s.src + 1 + (s.rem - 1) = s.len.toNat := by omega
  exact {
    legal := hcommit.legal
    memory := hcommit.memory
    bufLength := hcommit.bufLength
    handshake := hcommit.handshake
    counts := ⟨hidx, by simp; omega, by simp; omega, hcounts⟩
    owner := by simpa using ho
    entered := by simpa [byteDone] using h.entered ho
    opened := by simpa using hopen.mpr hp
    phase := by simpa using hp
    cmd := by simpa [byteDone] using hcmd
    region := by simpa [byteDone] using hreg
    notRam := by simpa using hram
    takes := by
      rw [show (byteDone s).region = s.region by simp, ← htakes]
      exact takesStore_congr (by simp) (by simp [byteDone, commitCycle_nvm]) s.region
    status := by simpa using hst
    total := by simpa [byteDone] using htotal'
    fits := by simpa [byteDone] using hfits
    dst := by simp [byteDone, hdst, addrPlus_add] }

/-- A poll answer, R206. -/
theorem Inv.inv_pollAnswer (h : Inv s) (hp : s.cuPhase = .execute) (ans : NvmAnswer) : Inv (pollAnswer ans s) := by
  obtain ⟨-, -, hsession⟩ := h.session
  obtain ⟨-, -, -, hram, -⟩ := hsession hp
  have ho := h.owner_of_execute hp
  cases herr : ans.err with
  | true =>
    rw [pollAnswer_err herr]
    have hcut : Sound { abandonCycle s with status := s.cfg.stProgrammingProtected } :=
      h.sound.congr (abandonCycle_wf h.memory) (by simp) (by simp [soundRegisters])
    exact hcut.inv_lock (by simpa using ho) (by simpa using h.entered ho) (by simpa using hram)
  | false =>
    cases heop : ans.eop with
    | true =>
      rw [pollAnswer_eop (by simp [isEop, herr, heop])]
      exact (h.programming_byteDone hp).inv_programNext
    | false =>
      rw [pollAnswer_again herr heop]
      exact h.with_events _ _

end

/-! ## A completed frame (R128, R165, R166) -/

/-- The frame in the registers, executed whatever its checksum says. -/
theorem Inv.inv_exec_heldFrame {s t : State} (h : Inv s) (ho : s.owner = .cu) (hp : s.cuPhase = .receive)
    (hx : s.rxState = .cksum) (b : Byte)
    (ht : exec (frameInstr s.cfg (heldFrame s) b (b == s.cks)) { s with cksOk := b == s.cks, cuPhase := .execute } =
      .next t) : Inv t := by
  obtain ⟨-, -, hcks⟩ := h.decoder hp
  obtain ⟨-, hfits⟩ := hcks hx
  have hcu : Commanding { s with cksOk := b == s.cks, cuPhase := .execute } :=
    (h.commanding ho (by simp [hp])).congr h.memory rfl rfl rfl
  generalize (b == s.cks) = ok at ht hcu
  unfold frameInstr at ht
  split_ifs at ht with hok hread hwrite hram hgo hexec
  · cases ht
    exact hcu.inv_sendStatus _
  · cases ht
    exact hcu.inv_read s.addr hfits
  · cases ht
    exact hcu.inv_writeRam ..
  · have hwire : wireN s.cfg s.cmd s.len = s.len.toNat := wireN_other hread _
    have hlen : (heldFrame s).payload.length = s.len.toNat := by
      have hsize := Params.Legal.maxPayload_le_bufSize (p := s.cfg)
      have hlength := h.bufLength
      simp only [heldFrame, hwire, List.length_take]
      omega
    have hroom : (heldFrame s).payload.length ≤ s.buf.length := by simp [heldFrame]
    rw [exec_writeNvm_eq (s := { s with cksOk := ok, cuPhase := .execute }) hroom] at ht
    cases ht
    exact (hcu.programming_opened rfl hwrite hlen hfits hram).inv_programNext
  · cases ht
    exact hcu.inv_released _
  · cases ht
    rw [appendSeq_eq]
    exact hcu.inv_called ((appendSeq_bufLength ..).trans (loadPayload_bufLength ..)) _
  · cases ht
    exact hcu.inv_sendStatus _

/-- Before the checksum byte a step of the receiver is the decoder's alone. -/
theorem receiveByte_of_not_cksum {s : State} (hx : s.rxState ≠ .cksum) (b : Byte) :
    receiveByte b s = .next (decodeNextByte b s).1 := by
  have hout : (decodeNextByte b s).2 = .incomplete ∨ (decodeNextByte b s).2 = .resynchronizing := by
    by_cases hr : Restarts b s
    · exact .inr (by rw [decodeNextByte_restarts hr])
    · exact .inl (decodeNextByte_continues hx hr).1
  unfold receiveByte
  rcases hd : decodeNextByte b s with ⟨u, o⟩
  rw [hd] at hout
  rcases hout with rfl | rfl <;> rfl

theorem Inv.inv_receiveByte {s t : State} (h : Inv s) (ho : s.owner = .cu) (hp : s.cuPhase = .receive) (b : Byte)
    (ht : receiveByte b s = .next t) : Inv t := by
  by_cases hx : s.rxState = .cksum
  · rw [receiveByte, decodeNextByte_cksum b hx] at ht
    exact h.inv_exec_heldFrame ho hp hx b ht
  · rw [receiveByte_of_not_cksum hx] at ht
    cases ht
    exact ((h.commanding ho (by simp [hp])).acquiring_decodeNextByte hp h.decoder hx b).inv

/-! ## The handshake's steps (R245 to R255) -/

section
variable {s : State}

/-- An image byte, R253: the next is awaited, or the image is entered. -/
theorem Handshaking.inv_imgByte (h : Handshaking s) (hs : s.hsState = .imgData) (b : Byte) : Inv (imgByte b s) := by
  obtain ⟨htimer, -, himage⟩ := h.handshake
  obtain ⟨hpos, hrem, hload, hptr⟩ := himage hs
  obtain ⟨hidx, hsrc, hremaining, htx, himg⟩ := h.counts
  set u := memWrite s.imgPtr b s with hu
  have hmem : Memory.wf u.mem = true := memWrite_wf h.memory _ _
  have hbuf : u.buf.length = u.cfg.bufSize := by simpa [hu, memWrite_bufLength] using h.bufLength
  have hcounts : ∀ n, n ≤ 255 → CountsFit { u with imgPtr := addrPlus u.imgPtr 1, imgRem := n } := fun n hn => by
    simpa [CountsFit, hu] using ⟨hidx, hsrc, hremaining, htx, hn⟩
  unfold imgByte
  rw [← hu]
  by_cases hlast : u.imgRem - 1 = 0
  · simp only [hlast, if_true]
    refine Commanding.inv_backToHunt ⟨⟨?_, hmem, hbuf, ⟨?_, nofun, nofun⟩, hcounts 0 (by omega)⟩, rfl, rfl, ?_, ?_⟩
    · simpa [hu] using h.legal
    · simpa [hu] using htimer
    · simpa [hu] using h.closed
    · simpa [hu] using h.idle
  · simp only [hlast, if_false]
    have hremEq : u.imgRem = s.imgRem := by simp [hu]
    refine Handshaking.inv ⟨⟨?_, hmem, hbuf, ⟨?_, ?_, fun _ => ?_⟩, hcounts _ (by omega)⟩, ?_, ?_, ?_, ?_⟩ ?_ ?_
    · simpa [hu] using h.legal
    · simpa [hu] using htimer
    · simp [hu, hs]
    · have htop := s.cfg.ramTop.isLt
      have hnext : (addrPlus s.imgPtr 1).toNat = s.imgPtr.toNat + 1 := by
        rw [addrPlus_toNat, Nat.mod_eq_of_lt (by omega)]
      refine ⟨by show 1 ≤ u.imgRem - 1; omega, by simp [hu]; omega, by simpa [hu] using hload, ?_⟩
      simp [hu, hnext]
      omega
    · simpa [hu] using h.owner
    · simpa [hu] using h.phase
    · simpa [hu] using h.closed
    · simpa [hu] using h.idle
    · simp [hu, hs]
    · simp [hu, hs]

/-- The image length, R251. -/
theorem Handshaking.inv_imgLen (h : Handshaking s) {n : Byte} (hn : n ≠ 0) :
    Inv { s with
      imgLen := n
      imgRem := n.toNat
      loadAddr := loadAddrOf s.cfg n
      imgPtr := loadAddrOf s.cfg n
      hsState := .imgData } := by
  have hload := loadAddrOf_toNat h.legal n
  have hpos : 1 ≤ n.toNat := Nat.one_le_iff_ne_zero.mpr fun h0 => hn (BitVec.eq_of_toNat_eq h0)
  obtain ⟨hidx, hsrc, hrem, htx, -⟩ := h.counts
  exact Handshaking.inv ⟨⟨h.legal, h.memory, h.bufLength, ⟨h.handshake.1, nofun, fun _ => ⟨hpos, le_rfl, hload, hload⟩⟩,
    hidx, hsrc, hrem, htx, Nat.le_of_lt_succ n.isLt⟩, h.owner, h.phase, h.closed, h.idle⟩ nofun nofun

/-- A tick, R247. -/
theorem Handshaking.inv_tick (h : Handshaking s) (hs : s.hsState = .waitAck) : Inv (tick s) := by
  obtain ⟨htimer, -, -⟩ := h.handshake
  by_cases hlast : s.hsTimer - 1 = 0
  · rw [tick_expired hlast]
    exact {
      legal := h.legal
      memory := h.memory
      bufLength := h.bufLength
      ownership := .inl ⟨rfl, h.phase⟩
      session := sessionFits_closed (by simp [raise, h.phase]) h.closed h.idle
      decoder := fun hp => by simp [raise, h.phase] at hp
      encoder := fun hp => by simp [raise, h.phase] at hp
      handshake := ⟨Nat.zero_le _, nofun, nofun⟩
      counts := h.counts }
  · rw [tick_running hlast]
    have hmove := h.move (x := .waitAck) (n := s.hsTimer - 1) nofun (by omega) (fun _ => by omega)
    rw [← hs] at hmove
    exact hmove.inv (by simp [hs]) (by simp [hs])

theorem Handshaking.inv_hsByte {t : State} (h : Handshaking s) {b : Byte}
    (hs : s.hsState = .waitAck ∨ s.hsState = .imgLen ∨ s.hsState = .imgData) (ht : hsByte b s = .next t) : Inv t := by
  rcases hs with hs | hs | hs
  · by_cases hb : b = s.cfg.ack
    · rw [hsByte_ack hs hb] at ht
      cases ht
      exact (h.move (x := .imgLen) nofun h.handshake.1 nofun).inv nofun nofun
    · rw [hsByte_discarded hs hb] at ht
      cases ht
      exact h.inv (by simp [hs]) (by simp [hs])
  · by_cases hb : b = 0
    · subst hb
      simp [hsByte, hs, takeToken, decode, decodeImgLen] at ht
    · rw [hsByte_length hs hb, execImgLen_eq hb] at ht
      cases ht
      exact h.inv_imgLen hb
  · rw [hsByte_image hs] at ht
    cases ht
    exact h.inv_imgByte hs b

theorem Handshaking.inv_hsTxReady {t : State} (h : Handshaking s)
    (hs : s.hsState = .sendSync0 ∨ s.hsState = .sendSync1) (ht : hsTxReady s = .next t) : Inv t := by
  rcases hs with hs | hs
  · rw [hsTxReady_first hs] at ht
    cases ht
    exact ((h.with_surroundings s.serialRate (s.trace ++ [.txByte s.cfg.sync0])).move (x := .sendSync1) nofun
      h.handshake.1 nofun).inv nofun nofun
  · rw [hsTxReady_second hs] at ht
    cases ht
    exact ((h.with_surroundings s.serialRate (s.trace ++ [.txByte s.cfg.sync1])).move (x := .waitAck) nofun
      le_rfl fun _ => h.legal.tHs_pos).inv nofun nofun

theorem Handshaking.inv_coldStart (h : Handshaking s) : Inv (coldStart s) := by
  have hmove := (h.with_surroundings s.cfg.baudSeed (s.trace ++ [.serialConfig s.cfg.baudSeed])).move
    (x := .sendSync0) nofun h.handshake.1 nofun
  have heq : coldStart s = { s with
      hsState := .sendSync0
      serialRate := s.cfg.baudSeed
      trace := s.trace ++ [.serialConfig s.cfg.baudSeed] } := by
    simp [coldStart, relocateSelf, serialConfig, emit, h.owner]
  rw [heq]
  exact hmove.inv nofun nofun

end

/-! ## Reset and the return from EXEC (R320, R174) -/

/-- The registers after reset meet the invariant, whatever the surroundings hold. -/
theorem handshaking_resetWith {p : Params} (hp : p.Legal) : Handshaking (State.resetWith p) where
  legal := hp
  memory := rfl
  bufLength := by simp [State.resetWith, Params.bufSize, Params.retLen]
  handshake := ⟨Nat.zero_le _, nofun, nofun⟩
  counts := ⟨Nat.zero_le _, Nat.zero_le _, Nat.zero_le _, Nat.zero_le _, Nat.zero_le _⟩
  owner := rfl
  phase := rfl
  closed := rfl
  idle := rfl

theorem inv_resetEvent {s : State} (hl : s.cfg.Legal) (hm : Memory.wf s.mem = true) (w : World) :
    Inv (resetEvent w s) := by
  have hreset := handshaking_resetWith hl
  have hbuf : (applyWorld w (resetRegisters s)).buf.length = s.cfg.bufSize :=
    (applyWorld_bufLength ..).trans hreset.bufLength
  have hmem : Memory.wf (applyWorld w (resetRegisters s)).mem = true := applyWorld_wf (s := resetRegisters s) hm w
  refine Handshaking.inv_coldStart ?_
  rw [applyWorld_eq]
  exact ⟨⟨hl, hmem, hbuf, hreset.handshake, hreset.counts⟩, rfl, rfl, rfl, rfl⟩

theorem Inv.inv_execReturn {s t : State} (h : Inv s) (ho : s.owner = .ext) (hp : s.cuPhase = .execWait) (w : World)
    (ht : execReturn w s = .next t) : Inv t := by
  have hown := h.ownership
  simp only [OwnershipFits, ho, hp] at hown
  have hentered : s.hsState = .enteredImage := by simpa using hown
  obtain ⟨hclosed, hidle⟩ := h.closed (by simp [hp])
  have hcu : Commanding { s with owner := .cu } :=
    { h.sound.congr h.memory rfl rfl with owner := rfl, entered := hentered, closed := hclosed, idle := hidle }
  have hworld : Commanding (applyWorld w { s with owner := .cu }) :=
    hcu.congr (applyWorld_wf hcu.memory w) (applyWorld_bufLength ..) (by rw [applyWorld_eq]; rfl)
      (by rw [applyWorld_eq])
  cases ht
  exact hworld.inv_sendStatus _

/-! ## The claims -/

/-- Settles O4. -/
theorem resetMeetsInvariant : Obligations.ResetMeetsInvariant := fun _ hp =>
  ⟨(handshaking_resetWith hp).inv nofun nofun, fun _ => ⟨rfl, rfl, rfl, rfl⟩, nofun⟩

theorem Inv.inv_takeEvent {s t : State} (h : Inv s) {e : Event} (ht : takeEvent e s = .next t) : Inv t := by
  rcases takeEvent_cases ht with ⟨w, -, rfl⟩ | ⟨b, -, ho, hs, ht⟩ | ⟨b, -, ho, hp, ht⟩ | ⟨-, ho, hs, ht⟩ |
    ⟨-, ho, hp, rfl⟩ | ⟨ans, -, -, hp, -, rfl⟩ | ⟨-, ho, hs, rfl⟩ | ⟨w, -, ho, hp, ht⟩
  · exact inv_resetEvent h.legal h.memory w
  · exact (h.handshaking ho).inv_hsByte hs ht
  · exact h.inv_receiveByte ho hp b ht
  · exact (h.handshaking ho).inv_hsTxReady hs ht
  · exact (h.commanding ho (by simp [hp])).inv_encodeNextByte hp h.encoder
  · exact h.inv_pollAnswer hp ans
  · exact (h.handshaking ho).inv_tick hs
  · exact h.inv_execReturn ho hp w ht

/-- Settles O5: an event is taken at its wait point, and what each does there keeps the invariant. -/
theorem stepKeepsInvariant : Obligations.StepKeepsInvariant := by
  intro s t h hstep
  rcases step_cases hstep with ⟨w, rest, -, rfl⟩ | ⟨hcold, rfl⟩ | ⟨-, -, rfl⟩ | ⟨e, rest, -, -, -, ht⟩
  · exact inv_resetEvent (s := { s with inputs := rest }) h.legal h.memory w
  · have ho : s.owner = .hs := by
      simp only [atColdStart, Bool.and_eq_true, beq_iff_eq] at hcold
      exact hcold.1
    exact (h.handshaking ho).inv_coldStart
  · exact h
  · exact (h.with_events rest s.trace).inv_takeEvent ht

end Sys2Proof.Machine
end

section
/-!
PROOFS. The lock state (R215, R296): what the key sequence and the lock leave of the controller, that nothing else the
block does unlocks a region, and the claim O6.
-/

namespace Sys2Proof.Machine

/-! ## The controller outside and inside a session -/

/-- Both regions locked, programming mode clear, no program cycle in progress (R296, R74). -/
def AllLocked (c : NvmController) : Prop :=
  c.config.enabled = false ∧ c.main.enabled = false ∧ c.progMode = false ∧ c.cycle = none

/-- At most region `r` unlocked, and programming mode set only if `r` needs it (R215). -/
def OnlyUnlocked (p : Params) (r : Region) (c : NvmController) : Prop :=
  (r ≠ .configNonvolatile → c.config.enabled = false) ∧ (r ≠ .mainNonvolatile → c.main.enabled = false) ∧
  (needsArm p r = false → c.progMode = false)

theorem lockedOutsideSession_iff {s : State} : LockedOutsideSession s ↔
    (s.sessionOpen = false → AllLocked s.nvm) ∧ (s.sessionOpen = true → OnlyUnlocked s.cfg s.region s.nvm) := Iff.rfl

theorem AllLocked.lockedOutsideSession {s : State} (h : AllLocked s.nvm) (ho : s.sessionOpen = false) :
    LockedOutsideSession s :=
  lockedOutsideSession_iff.mpr ⟨fun _ => h, fun he => by simp [ho] at he⟩

theorem OnlyUnlocked.lockedOutsideSession {s : State} (h : OnlyUnlocked s.cfg s.region s.nvm)
    (ho : s.sessionOpen = true) : LockedOutsideSession s :=
  lockedOutsideSession_iff.mpr ⟨fun he => by simp [ho] at he, fun _ => h⟩

theorem OnlyUnlocked.with_cycle {p : Params} {r : Region} {c : NvmController} (h : OnlyUnlocked p r c)
    (x : Option (Addr × Byte)) : OnlyUnlocked p r { c with cycle := x } := h

/-- The unlock bracket opens its own region (R204). -/
theorem AllLocked.onlyUnlocked_keyed {c : NvmController} (h : AllLocked c) (p : Params) (r : Region) :
    OnlyUnlocked p r { keyedNvm p r c with progMode := c.progMode || needsArm p r } := by
  obtain ⟨hconfig, hmain, hmode, -⟩ := h
  cases r <;> simp [OnlyUnlocked, keyedNvm, hconfig, hmain, hmode]

/-- The lock bracket closes what the session opened (R211). -/
theorem OnlyUnlocked.allLocked {p : Params} {r : Region} {c : NvmController} (h : OnlyUnlocked p r c) (hr : r ≠ .ram)
    (hc : c.cycle = none) : AllLocked (lockedNvm p r c) := by
  obtain ⟨hconfig, hmain, hmode⟩ := h
  cases r with
  | ram => exact absurd rfl hr
  | configNonvolatile =>
    have hmain' := hmain nofun
    cases harm : needsArm p .configNonvolatile with
    | true => simp [AllLocked, lockedNvm, hmain', hc, harm]
    | false => simp [AllLocked, lockedNvm, hmain', hc, hmode harm]
  | mainNonvolatile =>
    have hconfig' := hconfig nofun
    have hmode' := hmode rfl
    simp [AllLocked, lockedNvm, hconfig', hmode', hc]

/-! ## The commands that open no session -/

theorem AllLocked.memWrite {s : State} (h : AllLocked s.nvm) (a : Addr) (v : Byte) :
    (memWrite a v s).nvm = s.nvm := by
  obtain ⟨hconfig, hmain, -, hc⟩ := h
  rw [memWrite_allLocked v hc hconfig hmain]

theorem AllLocked.copyOut {a : Addr} (n : Nat) {k : Nat} {s : State} (h : AllLocked s.nvm) :
    (copyOut a n k s).nvm = s.nvm := by
  induction n generalizing k s with
  | zero => rfl
  | succ n ih =>
    have hnvm := h.memWrite (addrPlus a k) (s.buf.getD k 0)
    exact (ih (hnvm ▸ h)).trans hnvm

theorem AllLocked.copyIn {s : State} (h : AllLocked s.nvm) (a : Addr) (n k : Nat) : (copyIn a n k s).nvm = s.nvm := by
  obtain ⟨-, -, -, hc⟩ := h
  rw [copyIn_nvm, copyIn_cycle a n k hc, ← hc]

/-- The decoder does not touch the controller or the session (R120). -/
theorem decodeNextByte_nvm (b : Byte) (s : State) :
    (decodeNextByte b s).1.nvm = s.nvm ∧ (decodeNextByte b s).1.sessionOpen = s.sessionOpen := by
  by_cases hr : Restarts b s
  · rw [decodeNextByte_restarts hr]
    exact ⟨rfl, rfl⟩
  · cases h : s.rxState with
    | hunt =>
      obtain rfl : b = s.cfg.cmdHeader := by_contra fun hb => hr (.inl ⟨h, hb⟩)
      simp [decodeNextByte_hunt h]
    | cmd => simp [decodeNextByte_cmd b h]
    | addrHi => simp [decodeNextByte_addrHi b h]
    | addrLo => simp [decodeNextByte_addrLo b h]
    | len =>
      have hb : b.toNat ≤ s.cfg.maxPayload := Nat.le_of_not_lt fun hb => hr (.inr ⟨h, hb⟩)
      simp [decodeNextByte_len h hb]
    | payload => simp [decodeNextByte_payload b h]
    | cksum => simp [decodeNextByte_cksum b h]

/-! ## The write engine -/

/-- A store keeps the other region locked; the lock at the end locks its own (R205, R211). -/
theorem lockedOutsideSession_programNext {s : State} (h : OnlyUnlocked s.cfg s.region s.nvm)
    (hr : s.region ≠ .ram) (hc : s.nvm.cycle = none) (ho : s.sessionOpen = true) :
    LockedOutsideSession (programNext s) := by
  by_cases hrem : s.rem = 0
  · rw [programNext_done hrem, lock_eq hr]
    exact AllLocked.lockedOutsideSession (h.allLocked hr hc) rfl
  · obtain ⟨-, -, -, hreg, -, -, -, hopen, -⟩ := programNext_fields hrem
    refine OnlyUnlocked.lockedOutsideSession ?_ (hopen.trans ho)
    rw [programNext_cfg, hreg, programNext_nvm hrem]
    exact h.with_cycle _

theorem Inv.lockedOutsideSession_pollAnswer {s : State} (h : Inv s) (hlock : LockedOutsideSession s)
    (hp : s.cuPhase = .execute) (ans : NvmAnswer) : LockedOutsideSession (pollAnswer ans s) := by
  obtain ⟨hopen, -, hsession⟩ := h.session
  obtain ⟨-, -, -, hram, -⟩ := hsession hp
  have ho := hopen.mpr hp
  have hunlocked : OnlyUnlocked s.cfg s.region s.nvm := (lockedOutsideSession_iff.mp hlock).2 ho
  cases herr : ans.err with
  | true =>
    rw [pollAnswer_err herr, lock_eq (by simpa using hram)]
    refine AllLocked.lockedOutsideSession ?_ rfl
    simp only [abandonCycle_fields, abandonCycle_nvm]
    exact (hunlocked.with_cycle none).allLocked hram rfl
  | false =>
    cases heop : ans.eop with
    | true =>
      rw [pollAnswer_eop (by simp [isEop, herr, heop])]
      refine lockedOutsideSession_programNext ?_ (by simpa using hram) (by simp [byteDone, commitCycle_nvm])
        (by simpa using ho)
      simp only [byteDone, commitCycle_fields, commitCycle_nvm]
      exact hunlocked.with_cycle none
    | false =>
      rw [pollAnswer_again herr heop]
      exact hlock

/-! ## One step -/

/-- A completed frame, whatever command it carries. -/
theorem AllLocked.lockedOutsideSession_exec_frameInstr {s t : State} {f : CommandFrame} {k : Byte} {ok : Bool}
    (h : AllLocked s.nvm) (ho : s.sessionOpen = false) (hroom : f.payload.length ≤ s.buf.length)
    (ht : exec (frameInstr s.cfg f k ok) s = .next t) : LockedOutsideSession t := by
  unfold frameInstr at ht
  split_ifs at ht with hok hread hwrite hram hgo hexec
  · cases ht
    exact AllLocked.lockedOutsideSession h ho
  · cases ht
    exact AllLocked.lockedOutsideSession ((h.copyIn ..).symm ▸ h) (by simpa using ho)
  · cases ht
    refine AllLocked.lockedOutsideSession ?_ (by simpa using ho)
    have hcopy := AllLocked.copyOut (s := loadPayload f.payload { s with region := classify s.cfg f.addr })
      (a := f.addr) (k := 0) f.payload.length h
    simpa [hcopy] using h
  · rw [exec_writeNvm_eq hroom] at ht
    cases ht
    have hkeyed := h.onlyUnlocked_keyed s.cfg (classify s.cfg f.addr)
    obtain ⟨-, -, -, hc⟩ := h
    exact lockedOutsideSession_programNext hkeyed hram ((keyedNvm_cycle ..).trans hc) rfl
  · cases ht
    exact AllLocked.lockedOutsideSession h ho
  · cases ht
    rw [appendSeq_eq]
    exact AllLocked.lockedOutsideSession h ho
  · cases ht
    exact AllLocked.lockedOutsideSession h ho

theorem AllLocked.lockedOutsideSession_receiveByte {s t : State} (h : AllLocked s.nvm) (ho : s.sessionOpen = false)
    (b : Byte) (ht : receiveByte b s = .next t) : LockedOutsideSession t := by
  by_cases hx : s.rxState = .cksum
  · rw [receiveByte, decodeNextByte_cksum b hx] at ht
    exact AllLocked.lockedOutsideSession_exec_frameInstr
      (s := { s with cksOk := b == s.cks, cuPhase := .execute }) h ho (by simp [heldFrame]) ht
  · obtain ⟨hnvm, hopen⟩ := decodeNextByte_nvm b s
    rw [receiveByte_of_not_cksum hx] at ht
    cases ht
    exact AllLocked.lockedOutsideSession (hnvm ▸ h) (hopen.trans ho)

/-- The handshake reaches the controller by no action but the stores of the image (R253). -/
theorem AllLocked.lockedOutsideSession_hsByte {s t : State} (h : AllLocked s.nvm) (ho : s.sessionOpen = false)
    {b : Byte} (hs : s.hsState = .waitAck ∨ s.hsState = .imgLen ∨ s.hsState = .imgData) (ht : hsByte b s = .next t) :
    LockedOutsideSession t := by
  have hself := AllLocked.lockedOutsideSession h ho
  rcases hs with hs | hs | hs
  · by_cases hb : b = s.cfg.ack
    · rw [hsByte_ack hs hb] at ht
      cases ht
      exact hself
    · rw [hsByte_discarded hs hb] at ht
      cases ht
      exact hself
  · by_cases hb : b = 0
    · subst hb
      simp [hsByte, hs, takeToken, decode, decodeImgLen] at ht
    · rw [hsByte_length hs hb, execImgLen_eq hb] at ht
      cases ht
      exact hself
  · rw [hsByte_image hs] at ht
    cases ht
    have hstore := h.memWrite s.imgPtr b
    unfold imgByte enterImage enableCommandUnit
    simp only []
    split
    · exact AllLocked.lockedOutsideSession (by simpa [hstore] using h) (by simpa using ho)
    · exact AllLocked.lockedOutsideSession (hstore.symm ▸ h) (by simpa using ho)

theorem encodeNextByte_nvm (s : State) :
    (encodeNextByte s).nvm = s.nvm ∧ (encodeNextByte s).sessionOpen = s.sessionOpen := by
  unfold encodeNextByte
  cases s.txState <;> exact ⟨rfl, rfl⟩

theorem Inv.lockedOutsideSession_takeEvent {s t : State} (h : Inv s) (hlock : LockedOutsideSession s) {e : Event}
    (hreset : ∀ w, e ≠ .reset w) (hreturn : ∀ w, e ≠ .execReturn w) (ht : takeEvent e s = .next t) :
    LockedOutsideSession t := by
  have hquiet : s.cuPhase ≠ .execute → AllLocked s.nvm ∧ s.sessionOpen = false := fun hp =>
    ⟨(lockedOutsideSession_iff.mp hlock).1 (h.closed hp).1, (h.closed hp).1⟩
  rcases takeEvent_cases ht with ⟨w, he, -⟩ | ⟨b, -, ho, hs, ht⟩ | ⟨b, -, ho, hp, ht⟩ | ⟨-, ho, hs, ht⟩ |
    ⟨-, ho, hp, rfl⟩ | ⟨ans, -, -, hp, -, rfl⟩ | ⟨-, ho, hs, rfl⟩ | ⟨w, he, -⟩
  · exact absurd he (hreset w)
  · obtain ⟨hall, hopen⟩ := hquiet (by simp [(h.handshaking ho).phase])
    exact hall.lockedOutsideSession_hsByte hopen hs ht
  · obtain ⟨hall, hopen⟩ := hquiet (by simp [hp])
    exact hall.lockedOutsideSession_receiveByte hopen b ht
  · rcases hs with hs | hs
    · rw [hsTxReady_first hs] at ht
      cases ht
      exact hlock
    · rw [hsTxReady_second hs] at ht
      cases ht
      exact hlock
  · obtain ⟨hall, hopen⟩ := hquiet (by simp [hp])
    obtain ⟨hnvm, hopen'⟩ := encodeNextByte_nvm s
    exact AllLocked.lockedOutsideSession (hnvm ▸ hall) (hopen'.trans hopen)
  · exact h.lockedOutsideSession_pollAnswer hlock hp ans
  · by_cases hlast : s.hsTimer - 1 = 0
    · rw [tick_expired hlast]
      exact hlock
    · rw [tick_running hlast]
      exact hlock
  · exact absurd he (hreturn w)

/-- Settles O6. -/
theorem stepKeepsRegionsLocked : Obligations.StepKeepsRegionsLocked := by
  intro s t h hlock hreset hreturn hstep
  rcases step_cases hstep with ⟨w, rest, hi, -⟩ | ⟨-, rfl⟩ | ⟨-, -, rfl⟩ | ⟨e, rest, he, -, hi, ht⟩
  · exact absurd hi (hreset w rest)
  · exact hlock
  · exact hlock
  · exact (h.with_events rest s.trace).lockedOutsideSession_takeEvent hlock he
      (fun w hw => hreturn w rest (hw ▸ hi)) ht

end Sys2Proof.Machine
end

section
/-!
PROOFS. The parameters no step changes (R8), the one lock of a session (R212, R213), and the claims O7 and O43.
-/

namespace Sys2Proof.Machine

/-! ## The parameter record is fixed (R8) -/

/-- No meaning of an instruction touches the parameter record. -/
theorem exec_cfg {i : Instr} {s t : State} (h : exec i s = .next t) : t.cfg = s.cfg := by
  cases i with
  | read a n => cases h; simp
  | writeRam a l => cases h; simp
  | writeNvm a l =>
    cases h
    rw [writeEngine, programNext_cfg, unlock_eq]
    rfl
  | go a l => cases h; rfl
  | execPayload a l =>
    cases h
    rw [appendSeq_eq]
    rfl
  | invalid c a l => cases h; rfl
  | checksumError c a n l k => cases h; rfl
  | statusSuccess => cases h; rfl
  | statusChecksumError => cases h; rfl
  | statusInvalidCommand => cases h; rfl
  | statusProgrammingProtected => cases h; rfl
  | data l => cases h; rfl
  | sync0 => cases h; rfl
  | sync1 => cases h; rfl
  | ack => cases h; rfl
  | imgLen n =>
    by_cases hn : n = 0
    · simp [exec, execImgLen, hn] at h
    · rw [execImgLen_eq hn] at h
      cases h
      rfl

theorem pollAnswer_cfg (ans : NvmAnswer) (s : State) : (pollAnswer ans s).cfg = s.cfg := by
  cases herr : ans.err with
  | true => simp [pollAnswer_err herr]
  | false =>
    cases heop : ans.eop with
    | true => rw [pollAnswer_eop (by simp [isEop, herr, heop]), programNext_cfg, (byteDone_fields s).1]
    | false => rw [pollAnswer_again herr heop]; rfl

theorem receiveByte_cfg {b : Byte} {s t : State} (h : receiveByte b s = .next t) : t.cfg = s.cfg := by
  by_cases hx : s.rxState = .cksum
  · rw [receiveByte, decodeNextByte_cksum b hx] at h
    exact exec_cfg (s := { s with cksOk := b == s.cks, cuPhase := .execute }) h
  · rw [receiveByte_of_not_cksum hx] at h
    cases h
    exact (decodeNextByte_frame b s).1

theorem imgByte_cfg (b : Byte) (s : State) : (imgByte b s).cfg = s.cfg := by
  unfold imgByte enterImage enableCommandUnit
  simp only []
  split <;> simp

theorem hsByte_cfg {b : Byte} {s t : State}
    (hs : s.hsState = .waitAck ∨ s.hsState = .imgLen ∨ s.hsState = .imgData) (h : hsByte b s = .next t) :
    t.cfg = s.cfg := by
  rcases hs with hs | hs | hs
  · by_cases hb : b = s.cfg.ack
    · exact exec_cfg (hsByte_ack hs hb ▸ h)
    · rw [hsByte_discarded hs hb] at h
      cases h
      rfl
  · by_cases hb : b = 0
    · subst hb
      simp [hsByte, hs, takeToken, decode, decodeImgLen] at h
    · exact exec_cfg (hsByte_length hs hb ▸ h)
  · rw [hsByte_image hs] at h
    cases h
    exact imgByte_cfg b s

theorem takeEvent_cfg {e : Event} {s t : State} (h : takeEvent e s = .next t) : t.cfg = s.cfg := by
  rcases takeEvent_cases h with ⟨w, -, rfl⟩ | ⟨b, -, -, hs, h⟩ | ⟨b, -, -, -, h⟩ | ⟨-, -, hs, h⟩ |
    ⟨-, -, -, rfl⟩ | ⟨ans, -, -, -, -, rfl⟩ | ⟨-, -, -, rfl⟩ | ⟨w, -, -, -, h⟩
  · obtain ⟨-, -, -, -, -, -, -, -, hcfg⟩ := resetEvent_fields w s
    exact hcfg
  · exact hsByte_cfg hs h
  · exact receiveByte_cfg h
  · rcases hs with hs | hs
    · exact exec_cfg (hsTxReady_first hs ▸ h)
    · exact exec_cfg (hsTxReady_second hs ▸ h)
  · unfold encodeNextByte
    cases s.txState <;> rfl
  · exact pollAnswer_cfg ans s
  · unfold tick
    simp only []
    split <;> rfl
  · rw [exec_cfg h, applyWorld_eq]

/-- Settles O7. -/
theorem parametersAreFixed : Obligations.ParametersAreFixed := by
  refine ⟨fun s t h => ?_, fun s hl => if_neg hl⟩
  rcases step_cases h with ⟨w, rest, -, rfl⟩ | ⟨-, rfl⟩ | ⟨-, -, rfl⟩ | ⟨e, rest, -, -, -, h⟩
  · obtain ⟨-, -, -, -, -, -, -, -, hcfg⟩ := resetEvent_fields w { s with inputs := rest }
    exact hcfg
  · rfl
  · rfl
  · exact takeEvent_cfg (s := { s with inputs := rest }) h

/-! ## One lock a session (R212, R213) -/

/-- `t` comes after the poll answers `answers` from a point `s` of a session, still open and without an error so far. -/
def StillOpen (s t : State) (answers : List NvmAnswer) : Prop :=
  t.cuPhase = .execute ∧ t.sessionOpen = true ∧
    (∃ before, t.trace = s.trace ++ before ∧ ∀ x, x ∈ before → isLock x = false) ∧
    (∀ x, x ∈ answers → x.err = false)

/-- `t` comes after the poll answers `answers` from a point `s` of a session that they ended. -/
def LockedOnce (s t : State) (answers : List NvmAnswer) : Prop :=
  t.cuPhase = .respond ∧ t.sessionOpen = false ∧ t.inputs = [] ∧
    (∃ before, t.trace = s.trace ++ before ++ lockActions s.cfg s.region ∧ ∀ x, x ∈ before → isLock x = false) ∧
    (t.status = s.cfg.stProgrammingProtected ↔ ∃ x, x ∈ answers ∧ x.err = true) ∧
    (t.status = s.cfg.stSuccess ↔ ∀ x, x ∈ answers → x.err = false)

section
variable {s t u : State} {x : NvmAnswer} {xs : List NvmAnswer} {quiet : List Action}

/-- An answer that leaves the session open moves the point it is looked at from. -/
theorem sessionRun_cons (htrace : u.trace = s.trace ++ quiet) (hquiet : ∀ a, a ∈ quiet → isLock a = false)
    (hcfg : u.cfg = s.cfg) (hreg : u.region = s.region) (hx : x.err = false)
    (h : StillOpen u t xs ∨ LockedOnce u t xs) : StillOpen s t (x :: xs) ∨ LockedOnce s t (x :: xs) := by
  have hlocks : ∀ before : List Action, (∀ a, a ∈ before → isLock a = false) →
      ∀ a, a ∈ quiet ++ before → isLock a = false := fun before hb a ha =>
    (List.mem_append.mp ha).elim (hquiet a) (hb a)
  rcases h with ⟨hp, ho, ⟨before, hb, hl⟩, herr⟩ | ⟨hp, ho, hi, ⟨before, hb, hl⟩, hbad, hgood⟩
  · exact .inl ⟨hp, ho, ⟨quiet ++ before, by rw [hb, htrace, List.append_assoc], hlocks before hl⟩, by simpa [hx] using herr⟩
  · rw [hcfg] at hb hbad hgood
    rw [hreg] at hb
    exact .inr ⟨hp, ho, hi, ⟨quiet ++ before, by rw [hb, htrace]; simp, hlocks before hl⟩,
      by simpa [hx] using hbad, by simpa [hx] using hgood⟩

theorem Inv.owner_of_respond (h : Inv u) (hp : u.cuPhase = .respond) : u.owner = .cu := by
  have hown := h.ownership
  cases ho : u.owner <;> simp_all [OwnershipFits]

/-- After the lock no poll answer is awaited, so the answer that locks is the last. -/
theorem Inv.no_answer_left (h : Inv u) (hp : u.cuPhase = .respond) (hi : u.inputs = xs.map .nvmStatus)
    (hrun : run xs.length u = .next t) : xs = [] ∧ t = u := by
  cases xs with
  | nil =>
    cases hrun
    exact ⟨rfl, rfl⟩
  | cons y ys =>
    have ho := h.owner_of_respond hp
    have hstep : step u = .refused .notAwaited := by
      rw [step_event h.legal (atColdStart_cu ho) hi]
      simp [takeEvent, waitPoint, ho, hp]
    rw [List.length_cons, run_refused hstep] at hrun
    cases hrun

/-- The answer that locks the session ends the run (R211): the status is the error's exactly if it showed one. -/
theorem Inv.lockedOnce (h : Inv u) (hp : u.cuPhase = .respond) (ho : u.sessionOpen = false)
    (hi : u.inputs = xs.map .nvmStatus) (htrace : u.trace = s.trace ++ lockActions s.cfg s.region)
    (hst : u.status = if x.err then s.cfg.stProgrammingProtected else s.cfg.stSuccess) (hs : s.cfg.Legal)
    (hrun : run xs.length u = .next t) : LockedOnce s t (x :: xs) := by
  obtain ⟨rfl, rfl⟩ := h.no_answer_left hp hi hrun
  obtain ⟨-, -, hne, -⟩ := hs.statuses
  refine ⟨hp, ho, hi, ⟨[], by simp [htrace]⟩, ?_⟩
  cases hx : x.err <;> simp [hst, hx, hne, hne.symm]

end

/-- Settles O43, by induction on the answers: each leaves the session open, or locks it and is the last. -/
theorem lockExactlyOnce : Obligations.LockExactlyOnce := by
  intro s t answers h hp hi hrun
  show StillOpen s t answers ∨ LockedOnce s t answers
  induction answers generalizing s with
  | nil =>
    obtain ⟨hopen, -⟩ := h.session
    cases hrun
    exact .inl ⟨hp, hopen.mpr hp, ⟨[], by simp⟩, by simp⟩
  | cons x xs ih =>
    obtain ⟨hagain, herror, hlast, hmore⟩ := pollAnswerDecides s x (xs.map .nvmStatus) h hp hi
    have hnext : ∀ u, step s = .next u → Inv u ∧ u.cfg = s.cfg ∧ run xs.length u = .next t := fun u hu =>
      ⟨stepKeepsInvariant s u h hu, parametersAreFixed.1 s u hu, by rwa [List.length_cons, run_next hu] at hrun⟩
    cases herr : x.err with
    | true =>
      obtain ⟨u, hu, hst, htrace, hopen, -, -, hphase, -, -, -, hin, -⟩ := herror herr
      obtain ⟨hinv, -, hrest⟩ := hnext u hu
      exact .inr (hinv.lockedOnce hphase hopen hin htrace (by simp [hst, herr]) h.legal hrest)
    | false =>
      cases heop : x.eop with
      | true =>
        have hgood : isEop x = true := by simp [isEop, herr, heop]
        by_cases hrem : s.rem = 1
        · obtain ⟨u, hu, hst, htrace, hopen, -, -, hphase, -, -, -, hin, -⟩ := hlast hgood hrem
          obtain ⟨hinv, -, hrest⟩ := hnext u hu
          exact .inr (hinv.lockedOnce hphase hopen hin htrace (by simp [hst, herr]) h.legal hrest)
        · obtain ⟨-, -, hsession⟩ := h.session
          obtain ⟨-, -, -, -, -, -, hpos, -⟩ := hsession hp
          obtain ⟨u, hu, -, htrace, -, -, -, -, -, hphase, hreg, hin⟩ := hmore hgood (by omega)
          obtain ⟨hinv, hcfg, hrest⟩ := hnext u hu
          exact sessionRun_cons htrace (by simp [isLock]) hcfg hreg herr (ih u hinv hphase hin hrest)
      | false =>
        obtain ⟨hinv, -, hrest⟩ := hnext _ (hagain herr heop)
        exact sessionRun_cons (u := { s with inputs := xs.map .nvmStatus, trace := s.trace ++ [.nvmPoll s.region] })
          rfl (by simp [isLock]) rfl rfl herr (ih _ hinv hp rfl hrest)

end Sys2Proof.Machine
end

section
/-!
PROOFS. Dead registers (R53, R54): two states that differ in dead registers are one state and the same state with other
values in the registers `scrub` may blank; every operation either does not read those or reads them where they are
live. The claim O12.
-/

namespace Sys2Proof.Machine

/-! ## Registers taken from another state -/

/-- `s` with the registers that `scrub` may blank as `d` has them. -/
def withDead (d s : State) : State :=
  { s with
    hsTimer := d.hsTimer
    imgLen := d.imgLen
    imgRem := d.imgRem
    imgPtr := d.imgPtr
    loadAddr := d.loadAddr
    rxState := d.rxState
    cmd := d.cmd
    addr := d.addr
    len := d.len
    idx := d.idx
    cks := d.cks
    cksOk := d.cksOk
    region := d.region
    dst := d.dst
    src := d.src
    rem := d.rem
    status := d.status
    txState := d.txState
    txLen := d.txLen
    txIdx := d.txIdx
    txCks := d.txCks }

/-- `d` agrees with `s` on the registers of the handshake that are live at `s`. -/
structure LiveHandshake (d s : State) : Prop where
  timer : s.owner = .hs → s.hsState = .waitAck → d.hsTimer = s.hsTimer
  image : s.owner = .hs → s.hsState = .imgData →
    d.imgLen = s.imgLen ∧ d.imgRem = s.imgRem ∧ d.imgPtr = s.imgPtr ∧ d.loadAddr = s.loadAddr

/-- `d` agrees with `s` on the registers of the command unit that are live at `s`. -/
structure LiveCommand (d s : State) : Prop where
  decoder : s.cuPhase = .receive →
    d.rxState = s.rxState ∧ (pastCmd s.rxState = true → d.cmd = s.cmd) ∧
    addrTaken d.addr s.rxState = addrTaken s.addr s.rxState ∧
    (s.rxState = .payload ∨ s.rxState = .cksum → d.len = s.len) ∧
    (s.rxState = .payload → d.idx = s.idx) ∧ (s.rxState ≠ .hunt → d.cks = s.cks)
  session : s.cuPhase = .execute →
    d.region = s.region ∧ d.dst = s.dst ∧ d.src = s.src ∧ d.rem = s.rem ∧ d.status = s.status
  encoder : s.cuPhase = .respond →
    d.txState = s.txState ∧ d.txLen = s.txLen ∧ d.txIdx = s.txIdx ∧ (s.txState ≠ .hdr → d.txCks = s.txCks)

/-- Two states that differ in dead registers at most. -/
structure Alike (s t : State) : Prop where
  fixed : t = withDead t s
  handshake : LiveHandshake t s
  command : LiveCommand t s

theorem Alike.scrub_eq {s t : State} (h : Alike s t) : scrub s = scrub t := by
  obtain ⟨hfixed, ⟨htimer, himage⟩, ⟨hdecoder, hsession, hencoder⟩⟩ := h
  rw [hfixed]
  clear hfixed
  simp only [scrub, withDead, State.mk.injEq, true_and, and_true]
  refine ⟨ite_congr rfl (fun ⟨ho, hs⟩ => (htimer ho hs).symm) fun _ => rfl,
    ite_congr rfl (fun ⟨ho, hs⟩ => (himage ho hs).1.symm) fun _ => rfl,
    ite_congr rfl (fun ⟨ho, hs⟩ => (himage ho hs).2.1.symm) fun _ => rfl,
    ite_congr rfl (fun ⟨ho, hs⟩ => (himage ho hs).2.2.1.symm) fun _ => rfl,
    ite_congr rfl (fun ⟨ho, hs⟩ => (himage ho hs).2.2.2.symm) fun _ => rfl, ?_⟩
  by_cases hr : s.cuPhase = .receive
  · obtain ⟨hx, hcmd, haddr, hlen, hidx, hcks⟩ := hdecoder hr
    cases hrx : s.rxState <;> simp_all [pastCmd]
  by_cases he : s.cuPhase = .execute
  · simp [he, hsession he]
  by_cases ht : s.cuPhase = .respond
  · obtain ⟨hx, hlen, hidx, hcks⟩ := hencoder ht
    cases htx : s.txState <;> simp_all
  · simp [hr, he, ht]

theorem alike_of_scrub_eq {s t : State} (h : scrub s = scrub t) : Alike s t := by
  simp only [scrub, State.mk.injEq] at h
  obtain ⟨hcfg, howner, hhs, htimer, hilen, hirem, hiptr, hload, hphase, hrx, hwe, htx, hcmd, haddr, hlen, hidx, hcks, -,
    hbuf, hreg, hdst, hsrc, hrem, hopen, hst, htlen, htidx, htcks, hnvm, hrate, hmem, hin, htrace, hfree⟩ := h
  have hfixed : t = withDead t s := by
    rw [withDead, hcfg, howner, hhs, hphase, hwe, hbuf, hopen, hnvm, hrate, hmem, hin, htrace, hfree]
  rw [← howner, ← hhs] at htimer hilen hirem hiptr hload
  rw [← hphase] at hrx htx hcmd haddr hlen hidx hcks hreg hdst hsrc hrem hst htlen htidx htcks
  refine ⟨hfixed, ⟨fun ho hs => ?_, fun ho hs => ?_⟩, ⟨fun hp => ?_, fun hp => ?_, fun hp => ?_⟩⟩
  · simpa [ho, hs, eq_comm] using htimer
  · simp only [ho, hs, and_self, if_true] at hilen hirem hiptr hload
    exact ⟨hilen.symm, hirem.symm, hiptr.symm, hload.symm⟩
  · simp only [hp, if_true, true_and] at hrx hcmd haddr hlen hidx hcks
    rw [← hrx] at hcmd haddr hlen hidx hcks
    refine ⟨hrx.symm, fun hx => ?_, haddr.symm, fun hx => ?_, fun hx => ?_, fun hx => ?_⟩
    · simpa [hx, eq_comm] using hcmd
    · rw [if_pos hx, if_pos hx] at hlen
      exact hlen.symm
    · simpa [hx, eq_comm] using hidx
    · simpa [hx, eq_comm] using hcks
  · simp only [hp, if_true] at hreg hdst hsrc hrem hst
    exact ⟨hreg.symm, hdst.symm, hsrc.symm, hrem.symm, hst.symm⟩
  · simp only [hp, if_true, true_and] at htx htlen htidx htcks
    rw [← htx] at htcks
    exact ⟨htx.symm, htlen.symm, htidx.symm, fun hx => by simpa [hx, eq_comm] using htcks⟩

/-- A state and the same with another state's registers, where that agrees on the live ones. -/
theorem alike_withDead {d s : State} (h : LiveHandshake d s) (hc : LiveCommand d s) : Alike s (withDead d s) :=
  ⟨rfl, ⟨h.timer, h.image⟩, ⟨hc.decoder, hc.session, hc.encoder⟩⟩

theorem liveHandshake_of_owner {d s : State} (ho : s.owner ≠ .hs) : LiveHandshake d s :=
  ⟨fun he => absurd he ho, fun he => absurd he ho⟩

theorem liveCommand_receive {d s : State} (hp : s.cuPhase = .receive) (hx : d.rxState = s.rxState)
    (hcmd : pastCmd s.rxState = true → d.cmd = s.cmd)
    (haddr : addrTaken d.addr s.rxState = addrTaken s.addr s.rxState)
    (hlen : s.rxState = .payload ∨ s.rxState = .cksum → d.len = s.len) (hidx : s.rxState = .payload → d.idx = s.idx)
    (hcks : s.rxState ≠ .hunt → d.cks = s.cks) : LiveCommand d s :=
  ⟨fun _ => ⟨hx, hcmd, haddr, hlen, hidx, hcks⟩, fun he => by simp [hp] at he, fun he => by simp [hp] at he⟩

theorem liveCommand_hunt {d s : State} (hp : s.cuPhase = .receive) (hx : s.rxState = .hunt) (hd : d.rxState = .hunt) :
    LiveCommand d s := by
  refine liveCommand_receive hp (hd.trans hx.symm) ?_ ?_ ?_ ?_ ?_ <;> simp [hx, pastCmd, addrTaken]

theorem liveCommand_respond {d s : State} (hp : s.cuPhase = .respond) (hx : d.txState = s.txState)
    (hlen : d.txLen = s.txLen) (hidx : d.txIdx = s.txIdx) (hcks : s.txState ≠ .hdr → d.txCks = s.txCks) :
    LiveCommand d s :=
  ⟨fun he => by simp [hp] at he, fun he => by simp [hp] at he, fun _ => ⟨hx, hlen, hidx, hcks⟩⟩

/-! ## Operations that read no such register -/

section
variable (d s : State)

theorem abandonCycle_withDead : abandonCycle (withDead d s) = withDead d (abandonCycle s) := by
  simp only [abandonCycle, withDead]
  split <;> rfl

theorem commitCycle_withDead : commitCycle (withDead d s) = withDead d (commitCycle s) := by
  simp only [commitCycle, withDead]
  split <;> rfl

theorem memRead_withDead (a : Addr) : memRead a (withDead d s) = ((memRead a s).1, withDead d (memRead a s).2) := by
  simp only [memRead, abandonCycle_withDead]
  generalize abandonCycle s = u
  cases hb : inBuf u.cfg a with
  | true => simp [withDead, emit, hb, peek]
  | false =>
    simp only [withDead, emit, hb, Bool.false_eq_true, if_false]
    split <;> rfl

theorem memWrite_withDead (a : Addr) (v : Byte) : memWrite a v (withDead d s) = withDead d (memWrite a v s) := by
  simp only [memWrite, abandonCycle_withDead]
  generalize abandonCycle s = u
  cases hb : inBuf u.cfg a with
  | true => simp [withDead, emit, hb, setBuf]
  | false =>
    simp only [withDead, emit, hb, Bool.false_eq_true, if_false]
    split
    · rfl
    · simp only [takesStore]
      obtain ht | ht := Bool.eq_false_or_eq_true
        (u.nvm.enabled (classify u.cfg a) && (!needsArm u.cfg (classify u.cfg a) || u.nvm.progMode)) <;>
      simp only [ht, Bool.false_eq_true, if_true, if_false]

theorem copyIn_withDead (a : Addr) (n k : Nat) : copyIn a n k (withDead d s) = withDead d (copyIn a n k s) := by
  induction n generalizing k s with
  | zero => rfl
  | succ n ih =>
    simp only [copyIn, memRead_withDead]
    exact ih (setBuf k (memRead (addrPlus a k) s).1 (memRead (addrPlus a k) s).2) (k + 1)

theorem copyOut_withDead (a : Addr) (n k : Nat) : copyOut a n k (withDead d s) = withDead d (copyOut a n k s) := by
  induction n generalizing k s with
  | zero => rfl
  | succ n ih =>
    simp only [copyOut, memWrite_withDead]
    exact ih (memWrite (addrPlus a k) (s.buf.getD k 0) s) (k + 1)

theorem appendSeq_withDead (l : List Byte) (i : Nat) : appendSeq l i (withDead d s) = withDead d (appendSeq l i s) := by
  induction l generalizing i s with
  | nil => rfl
  | cons b l ih => exact ih (setBuf i b s) (i + 1)

theorem foldl_rawStore_withDead (l : List (Addr × Byte)) :
    l.foldl rawStore (withDead d s) = withDead d (l.foldl rawStore s) := by
  induction l generalizing s with
  | nil => rfl
  | cons c l ih =>
    have hstore : rawStore (withDead d s) c = withDead d (rawStore s c) := by
      by_cases hb : inBuf s.cfg c.1 = true
      · rw [rawStore, rawStore, if_pos hb, if_pos (show inBuf (withDead d s).cfg c.1 = true from hb)]
        rfl
      · rw [rawStore, rawStore, if_neg hb, if_neg (show ¬ inBuf (withDead d s).cfg c.1 = true from hb)]
        rfl
    rw [List.foldl_cons, hstore, ih]
    rfl

theorem applyWorld_withDead (w : World) : applyWorld w (withDead d s) = withDead d (applyWorld w s) := by
  simp only [applyWorld, abandonCycle_withDead, foldl_rawStore_withDead]
  rfl

end

/-! ## The start of a response, the lock and the next store -/

section
variable {d s : State}

theorem alike_sendResponse (ho : s.owner ≠ .hs) (n : Byte) :
    Alike (sendResponse n s) (sendResponse n (withDead d s)) :=
  ⟨rfl, liveHandshake_of_owner ho, liveCommand_respond rfl rfl rfl rfl fun hx => absurd rfl hx⟩

theorem alike_sendStatus (ho : s.owner ≠ .hs) (st : Byte) : Alike (sendStatus st s) (sendStatus st (withDead d s)) :=
  ⟨rfl, liveHandshake_of_owner ho, liveCommand_respond rfl rfl rfl rfl fun hx => absurd rfl hx⟩

/-- `lock()` reads the region and the status (R211). -/
theorem alike_lock (ho : s.owner ≠ .hs) (hreg : d.region = s.region) (hst : d.status = s.status) :
    Alike (lock s) (lock (withDead d s)) := by
  by_cases hr : s.region = .ram
  · have hlock : ∀ u : State, u.region = .ram →
        lock u = sendStatus u.status { u with weState := .idle, sessionOpen := false } := fun u hu => by
      simp [lock, hu, needsArm, nvmLock, closeSession]
    rw [hlock s hr, hlock (withDead d s) (hreg.trans hr), show (withDead d s).status = s.status from hst]
    exact alike_sendStatus (s := { s with weState := .idle, sessionOpen := false }) ho s.status
  · have hlock : ∀ u : State, u.region = s.region → lock u = sendStatus u.status { u with
        weState := .idle
        nvm := lockedNvm u.cfg s.region u.nvm
        sessionOpen := false
        trace := u.trace ++ lockActions u.cfg s.region } := fun u hu => by
      rw [lock_eq (hu ▸ hr), hu]
      rfl
    rw [hlock s rfl, hlock (withDead d s) hreg, show (withDead d s).status = s.status from hst]
    exact alike_sendStatus (s := { s with
        weState := .idle
        nvm := lockedNvm s.cfg s.region s.nvm
        sessionOpen := false
        trace := s.trace ++ lockActions s.cfg s.region }) ho s.status

/-- `program_next()` reads the session's registers (R205). -/
theorem alike_programNext (ho : s.owner ≠ .hs) (hp : s.cuPhase = .execute) (hreg : d.region = s.region)
    (hdst : d.dst = s.dst) (hsrc : d.src = s.src) (hrem : d.rem = s.rem) (hst : d.status = s.status) :
    Alike (programNext s) (programNext (withDead d s)) := by
  by_cases hr : s.rem = 0
  · rw [programNext_done hr, programNext_done (s := withDead d s) (hrem.trans hr)]
    exact alike_lock ho hreg hst
  · have hnext : programNext (withDead d s) = withDead d (programNext s) := by
      have hr' : (withDead d s).rem ≠ 0 := fun h0 => hr (hrem.symm.trans h0)
      have hstore : memWrite d.dst (s.buf.getD d.src 0) (withDead d { s with weState := .store }) =
          withDead d (memWrite s.dst (s.buf.getD s.src 0) { s with weState := .store }) := by
        rw [memWrite_withDead, hdst, hsrc]
      have hpoll : d.region = (memWrite s.dst (s.buf.getD s.src 0) { s with weState := .store }).region := by
        simpa using hreg
      rw [programNext, programNext, if_neg hr, if_neg hr']
      generalize memWrite s.dst (s.buf.getD s.src 0) { s with weState := .store } = u at hstore hpoll
      show emit (.nvmPoll (memWrite d.dst (s.buf.getD d.src 0) (withDead d { s with weState := .store })).region)
        { memWrite d.dst (s.buf.getD d.src 0) (withDead d { s with weState := .store }) with weState := .poll } = _
      rw [hstore]
      show emit (.nvmPoll d.region) { withDead d u with weState := .poll } = _
      rw [hpoll]
      rfl
    obtain ⟨ho', hp', -, hreg', hdst', hsrc', hrem', -, hst', -⟩ := programNext_fields hr
    rw [hnext]
    refine alike_withDead (liveHandshake_of_owner (ho' ▸ ho)) ⟨fun he => ?_, fun _ => ?_, fun he => ?_⟩
    · simp [hp', hp] at he
    · rw [hreg', hdst', hsrc', hrem', hst']
      exact ⟨hreg, hdst, hsrc, hrem, hst⟩
    · simp [hp', hp] at he

end

/-! ## The receiver and the transmitter -/

section
variable {d s : State}

/-- One byte before the checksum (R122 to R127). -/
theorem alike_decodeNextByte (ho : s.owner ≠ .hs) (hp : s.cuPhase = .receive) (hc : LiveCommand d s)
    (hk : s.rxState ≠ .cksum) (b : Byte) : Alike (decodeNextByte b s).1 (decodeNextByte b (withDead d s)).1 := by
  obtain ⟨hx, hcmd, haddr, hlen, hidx, hcks⟩ := hc.decoder hp
  have hxd : ∀ {x : RxState}, s.rxState = x → (withDead d s).rxState = x := fun h => hx.trans h
  cases hrx : s.rxState with
  | hunt =>
    by_cases hb : b = s.cfg.cmdHeader
    · subst hb
      rw [decodeNextByte_hunt hrx, show s.cfg.cmdHeader = (withDead d s).cfg.cmdHeader from rfl,
        decodeNextByte_hunt (hxd hrx)]
      exact ⟨rfl, liveHandshake_of_owner ho, liveCommand_receive hp rfl nofun rfl nofun nofun fun _ => rfl⟩
    · rw [decodeNextByte_noise hrx hb, decodeNextByte_noise (s := withDead d s) (hxd hrx) hb]
      exact alike_withDead (liveHandshake_of_owner ho) hc
  | cmd =>
    have hcks' := hcks (by simp [hrx])
    rw [decodeNextByte_cmd b hrx, decodeNextByte_cmd b (hxd hrx)]
    exact ⟨rfl, liveHandshake_of_owner ho, liveCommand_receive hp rfl (fun _ => rfl) rfl nofun nofun
      fun _ => congrArg (· ^^^ b) hcks'⟩
  | addrHi =>
    have hcks' := hcks (by simp [hrx])
    have hcmd' := hcmd (by simp [hrx, pastCmd])
    rw [decodeNextByte_addrHi b hrx, decodeNextByte_addrHi b (hxd hrx)]
    exact ⟨rfl, liveHandshake_of_owner ho, liveCommand_receive hp rfl (fun _ => hcmd') (by simp [addrTaken]) nofun nofun
      fun _ => congrArg (· ^^^ b) hcks'⟩
  | addrLo =>
    have hcks' := hcks (by simp [hrx])
    have hcmd' := hcmd (by simp [hrx, pastCmd])
    have hhigh : addrHi d.addr = addrHi s.addr := by simpa [hrx, addrTaken] using congrArg addrHi haddr
    rw [decodeNextByte_addrLo b hrx, decodeNextByte_addrLo b (hxd hrx)]
    exact ⟨rfl, liveHandshake_of_owner ho, liveCommand_receive hp rfl (fun _ => hcmd')
      (congrArg (addrOf · b) hhigh) nofun nofun fun _ => congrArg (· ^^^ b) hcks'⟩
  | len =>
    have hcks' := hcks (by simp [hrx])
    have hcmd' := hcmd (by simp [hrx, pastCmd])
    have haddr' : d.addr = s.addr := by simpa [hrx, addrTaken] using haddr
    by_cases hb : b.toNat ≤ s.cfg.maxPayload
    · rw [decodeNextByte_len hrx hb, decodeNextByte_len (s := withDead d s) (hxd hrx) hb]
      refine ⟨rfl, liveHandshake_of_owner ho, liveCommand_receive hp ?_ (fun _ => hcmd') ?_ (fun _ => rfl) (fun _ => rfl)
        fun _ => congrArg (· ^^^ b) hcks'⟩
      · show (if wireN s.cfg d.cmd b = 0 then _ else _) = _
        rw [hcmd']
      · show addrTaken d.addr _ = addrTaken s.addr _
        rw [haddr']
    · rw [decodeNextByte_oversized hrx (Nat.lt_of_not_le hb),
        decodeNextByte_oversized (s := withDead d s) (hxd hrx) (Nat.lt_of_not_le hb)]
      exact ⟨rfl, liveHandshake_of_owner ho, liveCommand_hunt hp rfl rfl⟩
  | payload =>
    have hcks' := hcks (by simp [hrx])
    have hcmd' := hcmd (by simp [hrx, pastCmd])
    have haddr' : d.addr = s.addr := by simpa [hrx, addrTaken] using haddr
    have hlen' := hlen (.inl hrx)
    have hidx' := hidx hrx
    have hsame : (withDead d s).idx = s.idx ∧ (withDead d s).len = s.len ∧ (withDead d s).cks = s.cks :=
      ⟨hidx', hlen', hcks'⟩
    obtain ⟨hi, hl, hk'⟩ := hsame
    rw [decodeNextByte_payload b hrx, decodeNextByte_payload b (hxd hrx), hi, hl, hk']
    refine ⟨rfl, liveHandshake_of_owner ho, liveCommand_receive hp rfl (fun _ => hcmd') ?_ (fun _ => rfl)
      (fun _ => rfl) fun _ => rfl⟩
    show addrTaken d.addr _ = addrTaken s.addr _
    rw [haddr']
  | cksum => exact absurd hrx hk

/-- One byte of a response (R151 to R154). -/
theorem alike_encodeNextByte (ho : s.owner ≠ .hs) (hp : s.cuPhase = .respond) (hc : LiveCommand d s) :
    Alike (encodeNextByte s) (encodeNextByte (withDead d s)) := by
  obtain ⟨hx, hlen, hidx, hcks⟩ := hc.encoder hp
  have hsame : (withDead d s).txState = s.txState ∧ (withDead d s).txLen = s.txLen ∧ (withDead d s).txIdx = s.txIdx :=
    ⟨hx, hlen, hidx⟩
  obtain ⟨hx', hlen', hidx'⟩ := hsame
  unfold encodeNextByte
  rw [hx']
  cases htx : s.txState with
  | hdr => exact ⟨rfl, liveHandshake_of_owner ho, liveCommand_respond hp rfl hlen hidx fun _ => rfl⟩
  | len =>
    have hk : (withDead d s).txCks = s.txCks := hcks (by simp [htx])
    simp only [txLenByte, hlen', hk]
    exact ⟨rfl, liveHandshake_of_owner ho, liveCommand_respond hp rfl rfl hidx fun _ => rfl⟩
  | payload =>
    have hk : (withDead d s).txCks = s.txCks := hcks (by simp [htx])
    simp only [txPayloadByte, hlen', hidx', hk]
    exact ⟨rfl, liveHandshake_of_owner ho, liveCommand_respond hp rfl rfl rfl fun _ => rfl⟩
  | cks =>
    have hk : (withDead d s).txCks = s.txCks := hcks (by simp [htx])
    simp only [txCksByte, hk]
    exact ⟨rfl, liveHandshake_of_owner ho, liveCommand_hunt rfl rfl rfl⟩

/-! ## A completed frame -/

theorem sameButDead_next {t u : State} (h : Alike t u) : sameButDead (.next t) (.next u) := h.scrub_eq

/-- A command reads no register but those of its frame, which are its operands here (R166 to R173). -/
theorem sameButDead_exec_frameInstr (p : Params) (f : CommandFrame) (k : Byte) (ok : Bool) (ho : s.owner ≠ .hs)
    (hp : s.cuPhase = .execute) (hroom : f.payload.length ≤ s.buf.length) :
    sameButDead (exec (frameInstr p f k ok) s) (exec (frameInstr p f k ok) (withDead d s)) := by
  unfold frameInstr
  split_ifs with hok hread hwrite hram hgo hexec
  · exact sameButDead_next (alike_sendStatus ho _)
  · refine sameButDead_next ?_
    rw [copyIn_withDead]
    exact alike_sendResponse (by simpa using ho) _
  · refine sameButDead_next ?_
    rw [show loadPayload f.payload { withDead d s with region := classify (withDead d s).cfg f.addr } =
        withDead { d with region := classify s.cfg f.addr }
          (loadPayload f.payload { s with region := classify s.cfg f.addr }) from rfl, copyOut_withDead]
    exact alike_sendStatus (by simpa using ho) _
  · rw [exec_writeNvm_eq hroom, exec_writeNvm_eq (s := withDead d s) hroom]
    exact sameButDead_next (alike_programNext (s := opened f.addr f.payload s)
      (d := opened f.addr f.payload (withDead d s)) ho hp rfl rfl rfl rfl rfl)
  · exact sameButDead_next ⟨rfl, liveHandshake_of_owner nofun, ⟨nofun, nofun, nofun⟩⟩
  · refine sameButDead_next ?_
    rw [show loadPayload f.payload (withDead d s) = withDead d (loadPayload f.payload s) from rfl,
      appendSeq_withDead]
    exact ⟨rfl, liveHandshake_of_owner nofun, ⟨nofun, nofun, nofun⟩⟩
  · exact sameButDead_next (alike_sendStatus ho _)

theorem sameButDead_receiveByte (ho : s.owner ≠ .hs) (hp : s.cuPhase = .receive) (hc : LiveCommand d s) (b : Byte) :
    sameButDead (receiveByte b s) (receiveByte b (withDead d s)) := by
  obtain ⟨hx, hcmd, haddr, hlen, -, hcks⟩ := hc.decoder hp
  by_cases hk : s.rxState = .cksum
  · have hframe : heldFrame (withDead d s) = heldFrame s := by
      have hcmd' := hcmd (by simp [hk, pastCmd])
      have haddr' : d.addr = s.addr := by simpa [hk, addrTaken] using haddr
      simp [heldFrame, withDead, hcmd', haddr', hlen (.inr hk)]
    have hcks' : (withDead d s).cks = s.cks := hcks (by simp [hk])
    rw [receiveByte, decodeNextByte_cksum b hk, receiveByte, decodeNextByte_cksum (s := withDead d s) b (hx.trans hk),
      hframe, hcks']
    exact sameButDead_exec_frameInstr (s := { s with cksOk := b == s.cks, cuPhase := .execute })
      (d := { d with cks := s.cks, cksOk := b == s.cks }) s.cfg (heldFrame s) b (b == s.cks) ho rfl (by simp [heldFrame])
  · rw [receiveByte_of_not_cksum hk, receiveByte_of_not_cksum (s := withDead d s) (fun h => hk (hx.symm.trans h))]
    exact sameButDead_next (alike_decodeNextByte ho hp hc hk b)

/-- A poll answer (R206). -/
theorem alike_pollAnswer (ho : s.owner = .cu) (hp : s.cuPhase = .execute) (hc : LiveCommand d s) (ans : NvmAnswer) :
    Alike (pollAnswer ans s) (pollAnswer ans (withDead d s)) := by
  obtain ⟨hreg, hdst, hsrc, hrem, hst⟩ := hc.session hp
  cases herr : ans.err with
  | true =>
    rw [pollAnswer_err herr, pollAnswer_err herr, abandonCycle_withDead]
    exact alike_lock (s := { abandonCycle s with status := s.cfg.stProgrammingProtected })
      (d := { d with status := s.cfg.stProgrammingProtected }) (by simp [ho]) (by simpa using hreg) rfl
  | false =>
    cases heop : ans.eop with
    | true =>
      have hgood : isEop ans = true := by simp [isEop, herr, heop]
      have hdone : byteDone (withDead d s) =
          withDead { d with dst := addrPlus d.dst 1, src := d.src + 1, rem := d.rem - 1 } (byteDone s) := by
        rw [byteDone, commitCycle_withDead]
        rfl
      rw [pollAnswer_eop hgood, pollAnswer_eop hgood, hdone]
      exact alike_programNext (by simp [ho]) (by simpa using hp) (by simpa using hreg) (by simp [hdst])
        (by simp [hsrc]) (by simp [hrem]) (by simpa using hst)
    | false =>
      rw [pollAnswer_again herr heop, pollAnswer_again herr heop, show (withDead d s).region = s.region from hreg]
      exact alike_withDead (s := emit (.nvmPoll s.region) s) (liveHandshake_of_owner (by simp [ho]))
        ⟨hc.decoder, hc.session, hc.encoder⟩

/-! ## The handshake -/

/-- The entry reads the load address and the length (R254). -/
theorem alike_enterImage (hlen : d.imgLen = s.imgLen) (hload : d.loadAddr = s.loadAddr) :
    Alike (enterImage s) (enterImage (withDead d s)) := by
  have hd : withDead d s = withDead { d with imgLen := s.imgLen, loadAddr := s.loadAddr } s := by rw [← hlen, ← hload]
  rw [hd]
  exact ⟨rfl, liveHandshake_of_owner nofun, liveCommand_hunt rfl rfl rfl⟩

/-- An image byte (R253). -/
theorem alike_imgByte (ho : s.owner = .hs) (hs : s.hsState = .imgData) (h : LiveHandshake d s) (hc : LiveCommand d s)
    (b : Byte) : Alike (imgByte b s) (imgByte b (withDead d s)) := by
  obtain ⟨hlen, hrem, hptr, hload⟩ := h.image ho hs
  have hstore : memWrite d.imgPtr b (withDead d s) = withDead d (memWrite s.imgPtr b s) := by
    rw [memWrite_withDead, hptr]
  have hfields : memWrite s.imgPtr b s = withDead s (memWrite s.imgPtr b s) := memWrite_withDead s s s.imgPtr b
  have hphase : (memWrite s.imgPtr b s).cuPhase = s.cuPhase ∧ (memWrite s.imgPtr b s).hsState = s.hsState := by simp
  unfold imgByte
  rw [show (withDead d s).imgPtr = d.imgPtr from rfl, hstore]
  generalize memWrite s.imgPtr b s = u at hfields hphase
  obtain ⟨hp, hst⟩ := hphase
  have hcu : LiveCommand d u := by
    rw [hfields]
    exact ⟨fun he => hc.decoder (hp.symm.trans he), fun he => hc.session (hp.symm.trans he),
      fun he => hc.encoder (hp.symm.trans he)⟩
  have hregs : d.imgLen = u.imgLen ∧ d.imgRem = u.imgRem ∧ d.imgPtr = u.imgPtr ∧ d.loadAddr = u.loadAddr := by
    rw [hfields]
    exact ⟨hlen, hrem, hptr, hload⟩
  obtain ⟨hlen', hrem', hptr', hload'⟩ := hregs
  simp only [show (withDead d u).imgRem = u.imgRem from hrem', show (withDead d u).imgPtr = u.imgPtr from hptr']
  split
  · exact alike_enterImage (s := { u with imgPtr := addrPlus u.imgPtr 1, imgRem := u.imgRem - 1 })
      (d := { d with imgPtr := addrPlus u.imgPtr 1, imgRem := u.imgRem - 1 }) hlen' hload'
  · exact alike_withDead (s := { u with imgPtr := addrPlus u.imgPtr 1, imgRem := u.imgRem - 1 })
      (d := { d with imgPtr := addrPlus u.imgPtr 1, imgRem := u.imgRem - 1 })
      ⟨fun _ he => by simp [hst, hs] at he, fun _ _ => ⟨hlen', rfl, rfl, hload'⟩⟩
      ⟨hcu.decoder, hcu.session, hcu.encoder⟩

/-- A move of the handshake to a place whose registers it sets, or that has none. -/
theorem LiveCommand.alike_move (hc : LiveCommand d s) {x : HsState} (hx : x ≠ .waitAck) (hx' : x ≠ .imgData) :
    Alike { s with hsState := x } { withDead d s with hsState := x } :=
  alike_withDead (s := { s with hsState := x }) ⟨fun _ he => absurd he hx, fun _ he => absurd he hx'⟩
    ⟨hc.decoder, hc.session, hc.encoder⟩

theorem sameButDead_hsByte (ho : s.owner = .hs) (h : LiveHandshake d s) (hc : LiveCommand d s)
    (hs : s.hsState = .waitAck ∨ s.hsState = .imgLen ∨ s.hsState = .imgData) (b : Byte) :
    sameButDead (hsByte b s) (hsByte b (withDead d s)) := by
  rcases hs with hs | hs | hs
  · by_cases hb : b = s.cfg.ack
    · rw [hsByte_ack hs hb, hsByte_ack (s := withDead d s) hs hb]
      exact sameButDead_next (hc.alike_move nofun nofun)
    · rw [hsByte_discarded hs hb, hsByte_discarded (s := withDead d s) hs hb]
      exact sameButDead_next (alike_withDead h hc)
  · by_cases hb : b = 0
    · subst hb
      have hzero : ∀ u : State, u.hsState = .imgLen → hsByte 0 u = .refused .imageLengthZero := fun u hu => by
        simp [hsByte, hu, takeToken, decode, decodeImgLen]
      rw [hzero s hs, hzero (withDead d s) hs]
      rfl
    · rw [hsByte_length hs hb, hsByte_length (s := withDead d s) hs hb, execImgLen_eq hb, execImgLen_eq hb]
      exact sameButDead_next ⟨rfl, ⟨nofun, fun _ _ => ⟨rfl, rfl, rfl, rfl⟩⟩, ⟨hc.decoder, hc.session, hc.encoder⟩⟩
  · rw [hsByte_image hs, hsByte_image (s := withDead d s) hs]
    exact sameButDead_next (alike_imgByte ho hs h hc b)

theorem sameButDead_hsTxReady (hc : LiveCommand d s) (hs : s.hsState = .sendSync0 ∨ s.hsState = .sendSync1) :
    sameButDead (hsTxReady s) (hsTxReady (withDead d s)) := by
  rcases hs with hs | hs
  · rw [hsTxReady_first hs, hsTxReady_first (s := withDead d s) hs]
    exact sameButDead_next ⟨rfl, ⟨nofun, nofun⟩, ⟨hc.decoder, hc.session, hc.encoder⟩⟩
  · rw [hsTxReady_second hs, hsTxReady_second (s := withDead d s) hs]
    exact sameButDead_next ⟨rfl, ⟨fun _ _ => rfl, nofun⟩, ⟨hc.decoder, hc.session, hc.encoder⟩⟩

/-- A tick (R247, R248). -/
theorem alike_tick (ho : s.owner = .hs) (hs : s.hsState = .waitAck) (h : LiveHandshake d s) (hc : LiveCommand d s) :
    Alike (tick s) (tick (withDead d s)) := by
  have htimer : (withDead d s).hsTimer = s.hsTimer := h.timer ho hs
  by_cases hlast : s.hsTimer - 1 = 0
  · rw [tick_expired hlast, tick_expired (s := withDead d s) (htimer ▸ hlast)]
    exact ⟨rfl, liveHandshake_of_owner nofun, ⟨hc.decoder, hc.session, hc.encoder⟩⟩
  · rw [tick_running hlast, tick_running (s := withDead d s) (htimer ▸ hlast), htimer]
    exact ⟨rfl, ⟨fun _ _ => rfl, fun _ he => by simp [hs] at he⟩, ⟨hc.decoder, hc.session, hc.encoder⟩⟩

/-! ## One step -/

theorem waitPoint_withDead (d s : State) : waitPoint (withDead d s) = waitPoint s := rfl

/-- Results that are alike where a condition holds, and refused alike where it does not. -/
theorem sameButDead_ite {c : Prop} [Decidable c] {r r' : Result} {x : Refusal} (h : c → sameButDead r r') :
    sameButDead (if c then r else .refused x) (if c then r' else .refused x) := by
  split
  · exact h ‹c›
  · rfl

/-- One event at its wait point, or refused alike. -/
theorem sameButDead_takeEvent (h : LiveHandshake d s) (hc : LiveCommand d s) (e : Event) :
    sameButDead (takeEvent e s) (takeEvent e (withDead d s)) := by
  cases e with
  | reset w => rfl
  | memData v => rfl
  | rxByte b =>
    simp only [takeEvent, waitPoint_withDead]
    split
    · rename_i hw
      obtain ⟨ho, hs⟩ := waitPoint_wAck.mp hw
      exact sameButDead_hsByte ho h hc (.inl hs) b
    · rename_i hw
      rw [show (withDead d s).owner = s.owner from rfl]
      rcases waitPoint_wRx.mp hw with ⟨ho, hs⟩ | ⟨ho, hp⟩
      · rw [if_pos ho, if_pos ho]
        exact sameButDead_hsByte ho h hc (.inr hs) b
      · rw [if_neg (by simp [ho]), if_neg (by simp [ho])]
        exact sameButDead_receiveByte (by simp [ho]) hp hc b
    · rfl
  | txReady =>
    refine sameButDead_ite (c := waitPoint s = some .wTx) fun hw => ?_
    rw [show (withDead d s).owner = s.owner from rfl]
    rcases waitPoint_wTx.mp hw with ⟨ho, hs⟩ | ⟨ho, hp⟩
    · rw [if_pos ho, if_pos ho]
      exact sameButDead_hsTxReady hc hs
    · rw [if_neg (by simp [ho]), if_neg (by simp [ho])]
      exact sameButDead_next (alike_encodeNextByte (by simp [ho]) hp hc)
  | nvmStatus ans =>
    refine sameButDead_ite (c := waitPoint s = some .wNvm) fun hw => ?_
    obtain ⟨ho, hp, -⟩ := waitPoint_wNvm.mp hw
    exact sameButDead_next (alike_pollAnswer ho hp hc ans)
  | tick =>
    refine sameButDead_ite (c := waitPoint s = some .wAck) fun hw => ?_
    obtain ⟨ho, hs⟩ := waitPoint_wAck.mp hw
    exact sameButDead_next (alike_tick ho hs h hc)
  | execReturn w =>
    refine sameButDead_ite (c := waitPoint s = some .wExec) fun _ => ?_
    have howner : (applyWorld w { s with owner := .cu }).owner = .cu := by rw [applyWorld_eq]
    rw [execReturn, execReturn, show { withDead d s with owner := .cu } = withDead d { s with owner := .cu } from rfl,
      applyWorld_withDead]
    exact sameButDead_next (alike_sendStatus (by simp [howner]) _)

/-- The event next on the list, the cold start, or nothing. -/
theorem sameButDead_advance (h : LiveHandshake d s) (hc : LiveCommand d s) :
    sameButDead (advance s) (advance (withDead d s)) := by
  have hevent : ∀ e rest, sameButDead (takeEvent e { s with inputs := rest })
      (takeEvent e { withDead d s with inputs := rest }) := fun e rest =>
    sameButDead_takeEvent (s := { s with inputs := rest }) ⟨h.timer, h.image⟩ ⟨hc.decoder, hc.session, hc.encoder⟩ e
  have hcold : Alike (coldStart s) (coldStart (withDead d s)) :=
    ⟨rfl, ⟨nofun, nofun⟩, ⟨hc.decoder, hc.session, hc.encoder⟩⟩
  simp only [advance, show (withDead d s).inputs = s.inputs from rfl,
    show atColdStart (withDead d s) = atColdStart s from rfl]
  split
  · exact hevent _ _
  · split
    · exact sameButDead_next hcold
    · split
      · exact sameButDead_next (alike_withDead h hc)
      · exact hevent _ _

end

theorem sameButDead_step {s t : State} (h : scrub s = scrub t) : sameButDead (step s) (step t) := by
  obtain ⟨hfixed, hhs, hcu⟩ := alike_of_scrub_eq h
  rw [hfixed]
  unfold step
  rw [show (withDead t s).cfg = s.cfg from rfl]
  split
  · exact sameButDead_advance hhs hcu
  · rfl

/-- Settles O12, by induction on the steps. -/
theorem deadRegistersAreNeverRead : Obligations.DeadRegistersAreNeverRead := by
  intro k
  induction k with
  | zero => exact fun s t h => h
  | succ k ih =>
    intro s t h
    have hstep := sameButDead_step h
    cases hs : step s with
    | next u =>
      cases ht : step t with
      | next v =>
        rw [hs, ht] at hstep
        rw [run_next hs, run_next ht]
        exact ih u v hstep
      | fault r => cases r
      | refused r => simp [hs, ht, sameButDead] at hstep
    | fault r => cases r
    | refused r =>
      cases ht : step t with
      | next v => simp [hs, ht, sameButDead] at hstep
      | fault r' => cases r'
      | refused r' =>
        rw [hs, ht] at hstep
        rw [run_refused hs, run_refused ht]
        exact hstep

end Sys2Proof.Machine
end

section
/-!
PROOFS. Steps (00_scope.md R14, 70_reset_and_hazards.md): what waits, what is refused, who gets execution back, which
meaning a step runs, what an access of the address space does, and the claims O2, O3, O8, O9, O10, O11, O13, O21, O25,
O26 and O27.
-/

namespace Sys2Proof.Machine

/-! ## Waiting and refusing (R14, R304, R341) -/

/-- Settles O8. -/
theorem waitGoesOnWithoutEvent : Obligations.WaitGoesOnWithoutEvent := by
  intro s k hl hi hc
  induction k with
  | zero => rfl
  | succ k ih => rw [run_next (step_idle hl hi hc), ih]

/-- Settles O9: each event's line of the wait points' table. -/
theorem unawaitedEventHasNoStep : Obligations.UnawaitedEventHasNoStep := by
  intro s e rest hl hc hi
  have hstep := step_event hl hc hi
  have hw : waitPoint { s with inputs := rest } = waitPoint s := rfl
  rw [hstep]
  refine ⟨?_, ?_, ?_, ?_, ?_, ?_⟩
  · rintro b rfl hrx hack
    simp only [takeEvent, hw]
  · rintro rfl h
    simp only [takeEvent, hw, if_neg h]
  · rintro a rfl h
    simp only [takeEvent, hw, if_neg h]
  · rintro rfl h
    simp only [takeEvent, hw, if_neg h]
  · rintro w rfl h
    simp only [takeEvent, hw, if_neg h]
  · rintro v rfl
    rfl

/-- While outside code owns execution, only the return of an EXEC call is awaited (R21). -/
theorem waitPoint_ext {s : State} (ho : s.owner = .ext) (hp : s.cuPhase ≠ .execWait) : waitPoint s = none := by
  simp [waitPoint, ho, hp]

/-- Settles O10: at no wait point every event but `Reset` is refused. -/
theorem deafAfterRelease : Obligations.DeafAfterRelease := by
  intro s e rest h ho hp hi hreset
  have hw := waitPoint_ext ho hp
  obtain ⟨hbyte, htx, hnvm, htick, hret, hmem⟩ :=
    unawaitedEventHasNoStep s e rest h.legal (atColdStart_ext ho) hi
  cases e with
  | reset w => exact absurd rfl (hreset w)
  | rxByte b => exact .inl (hbyte b rfl (by simp [hw]) (by simp [hw]))
  | txReady => exact .inr (htx rfl (by simp [hw]))
  | nvmStatus a => exact .inr (hnvm a rfl (by simp [hw]))
  | tick => exact .inr (htick rfl (by simp [hw]))
  | execReturn w => exact .inr (hret w rfl (by simp [hw]))
  | memData v => exact .inr (hmem v rfl)

/-- Settles O11. -/
theorem onlyResetAndReturnTakeExecutionBack : Obligations.OnlyResetAndReturnTakeExecutionBack := by
  intro s t h ho hstep hback
  rcases step_cases hstep with ⟨w, rest, hi, rfl⟩ | ⟨hc, -⟩ | ⟨-, -, rfl⟩ | ⟨e, rest, -, -, hi, ht⟩
  · obtain ⟨howner, -⟩ := resetEvent_fields w { s with inputs := rest }
    exact .inl ⟨w, rest, hi, howner⟩
  · simp [atColdStart_ext ho] at hc
  · exact absurd ho hback
  · rcases takeEvent_cases ht with ⟨w, rfl, rfl⟩ | ⟨b, -, he, -⟩ | ⟨b, -, he, -⟩ | ⟨-, he, -⟩ | ⟨-, he, -⟩ |
      ⟨ans, -, he, -⟩ | ⟨-, he, -⟩ | ⟨w, rfl, -, hp, ht⟩
    · obtain ⟨howner, -⟩ := resetEvent_fields w { s with inputs := rest }
      exact .inl ⟨w, rest, hi, howner⟩
    · exact absurd (ho.symm.trans he) nofun
    · exact absurd (ho.symm.trans he) nofun
    · exact absurd (ho.symm.trans he) nofun
    · exact absurd (ho.symm.trans he) nofun
    · exact absurd (ho.symm.trans he) nofun
    · exact absurd (ho.symm.trans he) nofun
    · refine .inr ⟨w, rest, hi, hp, ?_⟩
      cases ht
      rw [applyWorld_eq]
      rfl

/-- Settles O21, by induction on the noise. -/
theorem noiseIsDiscarded : Obligations.NoiseIsDiscarded := by
  intro s noise rest hl ho hp hx hnoise hi
  induction noise generalizing s with
  | nil =>
    obtain rfl : s.inputs = rest := hi
    rfl
  | cons b noise ih =>
    have hb : b ≠ s.cfg.cmdHeader := hnoise b (by simp)
    have hstep : step s = .next { s with inputs := noise.map .rxByte ++ rest } := by
      rw [step_serialByte hl ho hp hi, receiveByte_of_not_cksum (by simp [hx]), decodeNextByte_inputs,
        decodeNextByte_noise hx hb]
      rfl
    rw [List.length_cons, run_next hstep]
    exact ih { s with inputs := noise.map .rxByte ++ rest } hl ho hp hx (fun c hc => hnoise c (by simp [hc])) rfl

/-! ## Which meaning a step runs -/

/-- The step of the checksum byte sorts and executes the frame in the registers (R128, R165, R166). -/
theorem step_checksumByte {s : State} {b : Byte} {rest : List Event} (hl : s.cfg.Legal) (ho : s.owner = .cu)
    (hp : s.cuPhase = .receive) (hx : s.rxState = .cksum) (hi : s.inputs = .rxByte b :: rest) :
    step s = exec (frameInstr s.cfg (heldFrame s) b (b == s.cks))
      { s with inputs := rest, cksOk := b == s.cks, cuPhase := .execute } := by
  rw [step_serialByte hl ho hp hi, receiveByte, decodeNextByte_inputs, decodeNextByte_cksum b hx]

/-- Settles O25: the running checksum is the frame's, so the two decoders agree. -/
theorem stepRunsDecodedFrame : Obligations.StepRunsDecodedFrame := by
  intro s b rest i h ho hp hx hi hdecode
  obtain ⟨hcks, -, hcksum⟩ := h.decoder hp
  obtain ⟨hidx, hfits⟩ := hcksum hx
  have hpayload : (heldFrame s).payload.length = wireN s.cfg s.cmd s.len := by
    have hle := (wireN_le s.cfg s.cmd s.len).trans (hfits.trans Params.Legal.maxPayload_le_bufSize)
    rw [← h.bufLength] at hle
    simp [heldFrame, hle]
  have hsofar : frameSoFar s = framePrefix s.cfg s.cmd s.addr s.len ++ (heldFrame s).payload := by
    simp [frameSoFar, hx, heldFrame, hidx]
  have hsum : s.cks = frameChecksum s.cfg s.cmd s.addr s.len (heldFrame s).payload := by
    rw [hcks (by simp [hx]), hsofar, frameChecksum]
  have hcommand := decodeCommand_complete s.cfg s.cmd s.addr s.len (heldFrame s).payload b [] hfits hpayload
  rw [List.append_nil, ← hsofar, ← hsum] at hcommand
  have hinstr : frameInstr s.cfg (heldFrame s) b (b == s.cks) = i := by
    rw [decode, hcommand] at hdecode
    cases hdecode
    rfl
  rw [step_checksumByte h.legal ho hp hx hi, hinstr]

theorem decode_ack_eq_ok {p : Params} {b : Byte} {i : Instr} {rest : List Byte}
    (h : decode p .ack [b] = .ok (i, rest)) : b = p.ack ∧ i = .ack := by
  by_cases hb : b = p.ack
  · simp [decode, decodeToken, hb] at h
    exact ⟨hb, h.1.symm⟩
  · simp [decode, decodeToken, hb] at h

theorem decode_imgLen_eq_ok {p : Params} {b : Byte} {i : Instr} {rest : List Byte}
    (h : decode p .imgLen [b] = .ok (i, rest)) : b ≠ 0 ∧ i = .imgLen b := by
  by_cases hb : b = 0
  · simp [decode, decodeImgLen, hb] at h
  · have hb' : ¬ b = 0#8 := hb
    simp [decode, decodeImgLen, hb'] at h
    exact ⟨hb, h.1.symm⟩

/-- An image length 0 is refused (R252). -/
theorem hsByte_lengthZero {s : State} (hs : s.hsState = .imgLen) : hsByte 0 s = .refused .imageLengthZero := by
  simp [hsByte, hs, takeToken, decode, decodeImgLen]

/-- Settles O26. -/
theorem stepRunsHandshakeTokens : Obligations.StepRunsHandshakeTokens := by
  intro s rest hl ho
  refine ⟨step_sendSync0 hl ho, step_sendSync1 hl ho, ?_, ?_, ?_, ?_⟩
  · intro b i hs hi hdecode
    obtain ⟨hb, rfl⟩ := decode_ack_eq_ok hdecode
    rw [step_hsByte hl ho (.inl hs) hi, hsByte_ack (s := { s with inputs := rest }) hs hb]
  · intro b hs hi hb
    exact step_wrongByte hl ho hs hb hi
  · intro b i hs hi hdecode
    obtain ⟨hb, rfl⟩ := decode_imgLen_eq_ok hdecode
    rw [step_hsByte hl ho (.inr (.inl hs)) hi, hsByte_length (s := { s with inputs := rest }) hs hb]
  · intro hs hi
    rw [step_hsByte hl ho (.inr (.inl hs)) hi, hsByte_lengthZero (s := { s with inputs := rest }) hs]

/-- Settles O27. -/
theorem stepRunsStatusReplies : Obligations.StepRunsStatusReplies := by
  intro s rest hl
  refine ⟨?_, ?_, ?_⟩
  · intro b ho hp hx hi hb
    rw [step_checksumByte hl ho hp hx hi, beq_false_of_ne hb]
    rfl
  · rintro b ho hp hx hi rfl hassigned
    simp only [assigned, Bool.or_eq_false_iff, beq_eq_false_iff_ne] at hassigned
    obtain ⟨⟨⟨hread, hwrite⟩, hgo⟩, hexec⟩ := hassigned
    have hinstr : frameInstr s.cfg (heldFrame s) s.cks true = .invalid s.cmd s.addr (heldFrame s).payload := by
      simp [frameInstr, heldFrame, hread, hwrite, hgo, hexec]
    rw [step_checksumByte hl ho hp hx hi, beq_self_eq_true, hinstr]
    rfl
  · intro w ho hp hi
    rw [step_execReturn hl ho hp hi]
    rfl

/-! ## Reset (R241, R320 to R323) -/

/-- Settles O3. -/
theorem coldStartRunsFirst : Obligations.ColdStartRunsFirst := by
  intro p es hp hreset
  exact step_cold (s := { State.resetWith p with inputs := es }) hp hreset rfl

/-- What a reset leaves to be read is what the surroundings left (U24, U26). -/
theorem peek_resetEvent (w : World) (s : State) (x : Addr) :
    peek (resetEvent w s) x = peek (applyWorld w (resetRegisters s)) x := rfl

theorem heldAfterCycle_resetRegisters {s : State} {x : Addr} (h : inBuf s.cfg x = false) :
    heldAfterCycle (resetRegisters s) x = heldAfterCycle s x := by
  have hpeek : peek (resetRegisters s) x = peek s x := by simp [peek, resetRegisters, State.resetWith, h]
  rw [heldAfterCycle, heldAfterCycle, hpeek]
  rfl

/-- Settles O2: the registers' reset moves nothing outside, and then the event's stores are made. -/
theorem resetLeavesSurroundingsToTheEvent : Obligations.ResetLeavesSurroundingsToTheEvent := by
  intro s w rest hl hm hi
  have hbuf : (resetRegisters { s with inputs := rest }).buf.length = s.cfg.bufSize :=
    (handshaking_resetWith hl).bufLength
  have hread : ∀ x, peek (resetEvent w { s with inputs := rest }) x =
      (lastStore w.stores x).getD (heldAfterCycle (resetRegisters { s with inputs := rest }) x) := fun x =>
    (peek_resetEvent ..).trans (peek_applyWorld (s := resetRegisters { s with inputs := rest }) hbuf hm w x)
  refine ⟨_, step_reset hl hi, ?_, fun x hx => ?_, fun x v _ hv => ?_, fun hw hc => ?_⟩
  · rw [resetEvent, applyWorld_eq]
    rfl
  · rw [hread, heldAfterCycle_resetRegisters (s := { s with inputs := rest }) hx]
    rfl
  · rw [hread, hv]
    rfl
  · simp only [resetEvent, coldStart, relocateSelf, serialConfig_fields, applyWorld, hw, List.foldl_nil]
    rw [abandonCycle_none (s := resetRegisters { s with inputs := rest }) hc]
    rfl

/-! ## One address space (R69, R71, R80) -/

/-- A store that reaches `buf` or RAM is made there, as one by code outside the block would be. -/
theorem memWrite_eq_rawStore {s : State} {a : Addr} (v : Byte) (hc : s.nvm.cycle = none)
    (hr : classify s.cfg a = .ram) : memWrite a v s = rawStore (emit (.memWrite a v) s) (a, v) := by
  cases hb : inBuf s.cfg a with
  | true => rw [memWrite_inBuf v hc hb, rawStore, if_pos (by simpa using hb)]; rfl
  | false => rw [memWrite_ram v hc hb hr, rawStore, if_neg (by simp [hb])]; rfl

/-- Settles O13. -/
theorem storeThenLoad : Obligations.StoreThenLoad := by
  intro s a x v hl hb hc hm
  refine ⟨fun hr => ?_, fun hr he => ?_⟩
  · rw [memWrite_eq_rawStore v hc hr, peek_rawStore (s := emit (.memWrite a v) s) hb hm]
    rfl
  · rw [memWrite_locked v hc (not_inBuf hl hr) hr (by simp [takesStore, he])]
    rfl

end Sys2Proof.Machine
end

section
/-!
PROOFS. Responses (41_response_encoder.md): a response byte by byte, how each response starts the encoder, and the
claims O29, O30, O31 and O32.
-/

namespace Sys2Proof.Machine

/-! ## The encoder's states (R151 to R154) -/

section
variable {k : Nat} {s : State} {es : List Event} {r : Result} (hl : s.cfg.Legal) (ho : s.owner = .cu)
  (hp : s.cuPhase = .respond) (hi : s.inputs = .txReady :: es)
include hl ho hp hi

theorem run_txHdr (hx : s.txState = .hdr) (hrest : run k (txHdr { s with inputs := es }) = r) : run (k + 1) s = r :=
  run_txReady hl ho hp hi (by rwa [show encodeNextByte { s with inputs := es } = txHdr { s with inputs := es } by
    simp [encodeNextByte, hx]])

theorem run_txLen (hx : s.txState = .len) (hrest : run k (txLenByte { s with inputs := es }) = r) :
    run (k + 1) s = r :=
  run_txReady hl ho hp hi (by rwa [show encodeNextByte { s with inputs := es } = txLenByte { s with inputs := es } by
    simp [encodeNextByte, hx]])

theorem run_txPayload (hx : s.txState = .payload) (hrest : run k (txPayloadByte { s with inputs := es }) = r) :
    run (k + 1) s = r :=
  run_txReady hl ho hp hi (by
    rwa [show encodeNextByte { s with inputs := es } = txPayloadByte { s with inputs := es } by
      simp [encodeNextByte, hx]])

theorem run_txCks (hx : s.txState = .cks) (hrest : run k (txCksByte { s with inputs := es }) = r) :
    run (k + 1) s = r :=
  run_txReady hl ho hp hi (by rwa [show encodeNextByte { s with inputs := es } = txCksByte { s with inputs := es } by
    simp [encodeNextByte, hx]])

end

/-- The encoder's state between the length byte and the checksum byte: the payload, as long as some of it is left. -/
def txPlace (idx len : Nat) : TxState := if idx = len then .cks else .payload

/-- The payload bytes `l` that are left, and then the checksum byte, are sent (R153, R154, R157). -/
theorem run_payloadLeft {rest : List Event} (l : List Byte) {s : State} (hlegal : s.cfg.Legal) (ho : s.owner = .cu)
    (hp : s.cuPhase = .respond) (hx : s.txState = txPlace s.txIdx s.txLen.toNat)
    (hn : s.txIdx + l.length = s.txLen.toNat) (hl : l <+: s.buf.drop s.txIdx)
    (hi : s.inputs = List.replicate (l.length + 1) .txReady ++ rest) :
    run (l.length + 1) s = .next { s with
      inputs := rest
      txState := .cks
      txIdx := s.txLen.toNat
      txCks := s.txCks ^^^ xorBytes l
      rxState := .hunt
      cuPhase := .receive
      trace := s.trace ++ (l ++ [s.txCks ^^^ xorBytes l]).map .txByte } := by
  induction l generalizing s with
  | nil =>
    have hcks : s.txState = .cks := by rw [hx, txPlace, if_pos (by simpa using hn)]
    refine run_txCks hlegal ho hp hi hcks ?_
    rw [List.length_nil, run_zero, ← hn]
    simp [txCksByte, backToHunt, emit, hcks]
  | cons b l ih =>
    have hmore : s.txState = .payload := by rw [hx, txPlace, if_neg (by simp at hn; omega)]
    have hbyte : s.buf[s.txIdx]? = some b := by
      obtain ⟨d, hd⟩ := hl
      rw [← List.head?_drop, ← hd]
      rfl
    rw [List.length_cons, List.replicate_succ] at hi
    refine run_txPayload hlegal ho hp hi hmore ?_
    have hleft : l <+: s.buf.drop (s.txIdx + 1) := by
      obtain ⟨d, hd⟩ := hl
      exact ⟨d, by rw [← List.tail_drop, ← hd]; rfl⟩
    refine (ih (s := txPayloadByte { s with inputs := List.replicate (l.length + 1) .txReady ++ rest }) hlegal ho hp rfl
      (by simpa [txPayloadByte, emit, Nat.add_assoc, Nat.add_comm 1] using hn) hleft rfl).trans ?_
    simp [txPayloadByte, emit, hbyte, BitVec.xor_assoc]

/-- From the length byte on (R152). -/
theorem run_fromLenByte {rest : List Event} {l : List Byte} {s : State} (hlegal : s.cfg.Legal) (ho : s.owner = .cu)
    (hp : s.cuPhase = .respond) (hx : s.txState = .len) (hidx : s.txIdx = 0) (hn : l.length = s.txLen.toNat)
    (hl : l <+: s.buf) (hi : s.inputs = List.replicate (l.length + 2) .txReady ++ rest) :
    run (l.length + 2) s = .next { s with
      inputs := rest
      txState := .cks
      txIdx := s.txLen.toNat
      txCks := s.txCks ^^^ xorBytes (s.txLen :: l)
      rxState := .hunt
      cuPhase := .receive
      trace := s.trace ++ (s.txLen :: l ++ [s.txCks ^^^ xorBytes (s.txLen :: l)]).map .txByte } := by
  have hplace : (if s.txLen = 0 then TxState.cks else .payload) = txPlace s.txIdx s.txLen.toNat := by
    simp [txPlace, hidx, ← BitVec.toNat_inj, eq_comm]
  refine run_txLen hlegal ho hp hi hx ?_
  refine (run_payloadLeft l (s := txLenByte { s with inputs := List.replicate (l.length + 1) .txReady ++ rest })
    hlegal ho hp hplace ?_ ?_ rfl).trans ?_
  · simpa [txLenByte, emit, hidx] using hn
  · simpa [txLenByte, emit, hidx] using hl
  · simp [txLenByte, emit, BitVec.xor_assoc]

/-- A whole response of the payload `l` (R151). -/
theorem run_response {rest : List Event} {l : List Byte} {s : State} (hlegal : s.cfg.Legal) (ho : s.owner = .cu)
    (hp : s.cuPhase = .respond) (hx : s.txState = .hdr) (hidx : s.txIdx = 0) (hn : l.length = s.txLen.toNat)
    (hl : l <+: s.buf) (hi : s.inputs = List.replicate (l.length + 3) .txReady ++ rest) :
    run (l.length + 3) s = .next { s with
      inputs := rest
      txState := .cks
      txIdx := s.txLen.toNat
      txCks := xorBytes (s.cfg.respHeader :: s.txLen :: l)
      rxState := .hunt
      cuPhase := .receive
      trace := s.trace ++ (s.cfg.respHeader :: s.txLen :: l ++
        [xorBytes (s.cfg.respHeader :: s.txLen :: l)]).map .txByte } := by
  refine run_txHdr hlegal ho hp hi hx ?_
  refine (run_fromLenByte (s := txHdr { s with inputs := List.replicate (l.length + 2) .txReady ++ rest })
    hlegal ho hp rfl hidx hn hl rfl).trans ?_
  simp [txHdr, emit]

/-- Settles O30. -/
theorem responseFrameIsSent : Obligations.ResponseFrameIsSent := by
  intro s rest hlegal ho hp hx hidx hle hi
  have hlen : (s.buf.take s.txLen.toNat).length = s.txLen.toNat := by simpa using hle
  have hbyte : lenByte (s.buf.take s.txLen.toNat) = s.txLen := by simp [lenByte, hle]
  rw [responseActions, encodeResponse, hbyte]
  have hsent := run_response (rest := rest) hlegal ho hp hx hidx hlen (List.take_prefix ..)
  rw [hlen, Nat.add_comm _ 3] at hsent
  exact hsent hi

/-! ## What starts the encoder (R150, R155) -/

/-- Settles O29. -/
theorem dataReplyStartsTheEncoder : Obligations.DataReplyStartsTheEncoder := by
  intro s l hlegal hbuf hw
  have hfits : l.length ≤ s.cfg.maxPayload := by simpa [wellFormed, lengthFits] using hw
  have hroom : l.length ≤ s.buf.length := hbuf ▸ hfits.trans Params.Legal.maxPayload_le_bufSize
  have hexec : exec (.data l) s =
      .next (sendResponse (lenByte l) { s with buf := l ++ s.buf.drop l.length }) := by
    rw [← loadPayload_eq hroom]
    rfl
  exact ⟨_, hexec, lenByte_toNat (hfits.trans hlegal.maxPayload_le), List.take_left, rfl⟩

/-- A status response is `send_status` of its code, and its encoding carries that code (R100, R155). -/
theorem statusReply_code {i : Instr} (h : streamOf i = .statusReply) (s : State) :
    ∃ st, exec i s = .next (sendStatus st s) ∧ encode s.cfg i = encodeResponse s.cfg [st] := by
  cases i with
  | statusSuccess => exact ⟨_, exec_statusSuccess s, rfl⟩
  | statusChecksumError => exact ⟨_, exec_statusChecksumError s, rfl⟩
  | statusInvalidCommand => exact ⟨_, exec_statusInvalidCommand s, rfl⟩
  | statusProgrammingProtected => exact ⟨_, exec_statusProgrammingProtected s, rfl⟩
  | _ => exact absurd h nofun

/-- Settles O31. -/
theorem statusBytesOnTheLink : Obligations.StatusBytesOnTheLink := by
  intro s i rest hlegal hbuf ho hstream hi
  obtain ⟨st, hexec, hencode⟩ := statusReply_code hstream s
  have hpos : 0 < s.buf.length := hbuf ▸ hlegal.bufSize_pos
  have hsend := run_statusResponse (s := setBuf 0 st { s with status := st }) hlegal ho
    (st := st) (by simp [hpos]) hi
  exact ⟨_, _, hexec, hsend, by simp [hencode, responseActions], rfl, rfl, rfl⟩

/-- Settles O32: both are `send_status` of their code. -/
theorem errorAnswersChangeNothingElse : Obligations.ErrorAnswersChangeNothingElse := by
  intro s
  exact ⟨fun c a n l k => congrArg Host.Outcome.next (sendStatus_eq s.cfg.stChecksumError s),
    fun c a l => congrArg Host.Outcome.next (sendStatus_eq s.cfg.stInvalidCommand s)⟩

end Sys2Proof.Machine
end

section
/-!
PROOFS. The commands (42_command_dispatch.md): READ in every form, WRITE on the RAM path, GO, EXEC and its return, and
the claims O33, O34, O35, O36, O44, O45, O46, O47 and O53.
-/

namespace Sys2Proof.Machine

/-! ## What an address reads as, and the status byte (R69, R155) -/

theorem peek_congr {s t : State} (hcfg : s.cfg = t.cfg) (hbuf : s.buf = t.buf) (hmem : s.mem = t.mem) (x : Addr) :
    peek s x = peek t x := by
  simp only [peek, hcfg, hbuf, hmem]

/-- `send_status` moves one byte of the address space: the status byte lies at `BUF_BASE`. -/
theorem peek_sendStatus {s : State} (hl : s.cfg.Legal) (hb : s.buf.length = s.cfg.bufSize)
    (hm : Memory.wf s.mem = true) (st : Byte) (x : Addr) :
    peek (sendStatus st s) x = if x = s.cfg.bufBase then st else peek s x := by
  obtain ⟨hin, hidx⟩ := inBuf_bufBase hl (k := 0) hl.bufSize_pos
  rw [addrPlus_zero] at hin hidx
  have hstore : rawStore s (s.cfg.bufBase, st) = setBuf 0 st s := by simp [rawStore, hin, hidx]
  rw [← peek_rawStore hb hm (s.cfg.bufBase, st), hstore]
  exact peek_congr rfl rfl rfl x

/-! ## GO and EXEC (R172 to R174) -/

/-- Settles O44. -/
theorem goRelinquishes : Obligations.GoRelinquishes := fun _ _ _ => rfl

/-- Settles O45: the payload is laid at the front of `buf`, and the return sequence after it. -/
theorem execCallsThePayload : Obligations.ExecCallsThePayload := by
  intro s a l _ hbuf hl
  have hroom : l.length + s.cfg.retSeq.length ≤ s.buf.length := by
    rw [hbuf, Params.bufSize, Params.retLen]
    omega
  have hafter := appendSeq_after s.cfg.retSeq l (s.buf.drop l.length) { s with buf := l ++ s.buf.drop l.length } rfl
    (by rw [List.length_drop]; omega)
  rw [exec, execExecPayload, loadPayload_eq (by omega), appendSeq_eq, hafter, List.drop_drop]
  rfl

/-- Settles O46: what the code outside left, and then the status byte at `BUF_BASE`. -/
theorem execReturnAnswersSuccess : Obligations.ExecReturnAnswersSuccess := by
  intro s w rest hl ho hp hi
  have hlen : (applyWorld w { s with inputs := rest, owner := .cu }).buf.length = s.buf.length :=
    applyWorld_bufLength ..
  have hcfg : (applyWorld w { s with inputs := rest, owner := .cu }).cfg = s.cfg := by rw [applyWorld_eq]
  have hexec : execReturn w { s with inputs := rest } =
      .next (sendStatus s.cfg.stSuccess (applyWorld w { s with inputs := rest, owner := .cu })) :=
    (exec_statusSuccess _).trans (by rw [hcfg])
  have hfree : (abandonCycle { s with inputs := rest, owner := .cu }).freeCount = (abandonCycle s).freeCount := by
    simp only [abandonCycle]
    cases s.nvm.cycle <;> rfl
  refine ⟨_, (step_execReturn hl ho hp hi).trans hexec, ?_, fun hne => ?_, ?_, fun hbuf hm => ?_⟩
  · rw [sendStatus_eq, applyWorld_eq, hfree]
  · obtain ⟨b, d, hd⟩ := List.exists_cons_of_length_pos (hlen ▸ List.length_pos_iff.mpr hne)
    simp [hd]
  · simpa using hlen
  · have hread := peek_sendStatus (s := applyWorld w { s with inputs := rest, owner := .cu }) (by rwa [hcfg])
      (by rw [hlen, hcfg, hbuf]) (applyWorld_wf (s := { s with inputs := rest, owner := .cu }) hm w)
      s.cfg.stSuccess
    rw [hcfg] at hread
    refine ⟨by rw [hread, if_pos rfl], fun x hx => ?_⟩
    rw [hread, if_neg hx, peek_applyWorld (s := { s with inputs := rest, owner := .cu }) hbuf hm]
    rfl

/-! ## READ (R169) -/

/-- The state READ leaves once its loop has run. -/
theorem exec_read (a : Addr) (n : Byte) (s : State) :
    exec (.read a n) s = .next (sendResponse n (copyIn a n.toNat 0 s)) := rfl

theorem readActions_eq (a : Addr) (n : Nat) :
    readActions a n = (List.range' 0 n).map fun k => .memRead (addrPlus a k) := by
  rw [readActions, List.range_eq_range']

/-- Settles O53. -/
theorem readEveryForm : Obligations.ReadEveryForm := by
  intro s a n vs rest hl hbuf hn hc hi hrest
  obtain ⟨b, heq, hlen, hframe, hout, hcopied, hold⟩ := copyIn_spec a vs rest hrest n.toNat 0 s hbuf
    (by rw [Nat.zero_add]; exact hn.trans Params.Legal.maxPayload_le_bufSize) hc hi
  simp only [Nat.zero_add] at heq hframe hout hcopied hold
  refine ⟨_, (exec_read a n s).trans (by rw [heq]), ?_, hlen, fun k => hout k k.zero_le,
    fun k => hcopied k k.zero_le, fun k => hold k k.zero_le, fun k hk => hframe k (.inr hk)⟩
  rw [readActions_eq]
  rfl

/-- Settles O33: READ in every form, with no answer pending. -/
theorem readCopiesAndAnswers : Obligations.ReadCopiesAndAnswers := by
  intro s a n hl hbuf hn hc hi
  have hevery := readEveryForm s a n [] s.inputs hl hbuf hn hc rfl hi
  simpa using hevery

/-- Settles O34. -/
theorem readTakesTheSurroundingsAnswers : Obligations.ReadTakesTheSurroundingsAnswers := by
  intro s a n vs rest hl hbuf hn hc hclear hvs hi
  have hroom : vs.length ≤ s.buf.length := by
    rw [hvs, hbuf]
    exact hn.trans Params.Legal.maxPayload_le_bufSize
  have hcopy := copyIn_answered a vs [] s.buf s rest hc
    (fun j _ hj => hclear j (by simpa [hvs] using hj)) rfl hroom hi
  rw [exec_read, readActions_eq, ← hvs]
  exact congrArg (fun t => Host.Outcome.next (sendResponse n t)) hcopy

/-! ## WRITE on the RAM path (R170) -/

theorem exec_writeRam_eq {s : State} {a : Addr} {l : List Byte} (h : l.length ≤ s.buf.length) :
    exec (.writeRam a l) s = .next (sendStatus s.cfg.stSuccess
      (copyOut a l.length 0 { s with region := classify s.cfg a, buf := l ++ s.buf.drop l.length })) := by
  have hcfg := (copyOut_fields a l.length 0 (loadPayload l { s with region := classify s.cfg a })).1
  rw [exec, execWriteRam, ← loadPayload_eq (s := { s with region := classify s.cfg a }) h, hcfg]
  rfl

/-- Settles O35. -/
theorem writeToRamStoresThePayload : Obligations.WriteToRamStoresThePayload := by
  intro s a l hl hbuf hlen hc hm hr hall hclear
  have hfits := hl.maxPayload_le
  have hroom : l.length ≤ s.buf.length := hbuf ▸ hlen.trans Params.Legal.maxPayload_le_bufSize
  obtain ⟨m, hcopy, hstored, hframe⟩ := copyOut_ram a l 0
    { s with region := classify s.cfg a, buf := l ++ s.buf.drop l.length } hc hm (by omega) (by simp)
    (fun j _ hj => ⟨hclear j (by omega), hall j (by omega)⟩)
  simp only [Nat.zero_add] at hstored hframe
  refine ⟨_, (exec_writeRam_eq hroom).trans (by rw [hcopy, hr]), rfl, fun k hk => ?_, fun x hx hxb => ?_⟩
  · simpa [peek, hclear k hk] using hstored k hk
  · simpa [peek, hxb] using hframe x hx

/-! ## The plain copy, every form (R170 (c), (d), R344 (c)) -/

/-- Both non-volatile regions are locked and no program cycle goes on: a store reaches `buf` and RAM, and nothing
else (R71). -/
structure NvmShut (s : State) : Prop where
  legal : s.cfg.Legal
  bufLength : s.buf.length = s.cfg.bufSize
  memory : Memory.wf s.mem = true
  cycle : s.nvm.cycle = none
  config : s.nvm.config.enabled = false
  main : s.nvm.main.enabled = false

section
variable {s : State}

theorem NvmShut.memWrite_eq (h : NvmShut s) (a : Addr) (v : Byte) :
    memWrite a v s = { s with
      buf := (memWrite a v s).buf
      mem := (memWrite a v s).mem
      trace := s.trace ++ [.memWrite a v] } :=
  memWrite_allLocked v h.cycle h.config h.main

theorem NvmShut.memWrite (h : NvmShut s) (a : Addr) (v : Byte) : NvmShut (memWrite a v s) := by
  have hnvm : (Machine.memWrite a v s).nvm = s.nvm := by rw [h.memWrite_eq]
  have hcfg : (Machine.memWrite a v s).cfg = s.cfg := (memWrite_fields a v s).1
  exact {
    legal := hcfg ▸ h.legal
    bufLength := by rw [memWrite_bufLength, hcfg, h.bufLength]
    memory := memWrite_wf h.memory a v
    cycle := hnvm ▸ h.cycle
    config := hnvm ▸ h.config
    main := hnvm ▸ h.main }

theorem NvmShut.peek_memWrite_ram (h : NvmShut s) {a : Addr} (hr : classify s.cfg a = .ram) (v : Byte) (x : Addr) :
    peek (Machine.memWrite a v s) x = if x = a then v else peek s x := by
  obtain ⟨hstore, -⟩ := storeThenLoad s a x v h.legal h.bufLength h.cycle h.memory
  exact hstore hr

theorem NvmShut.peek_memWrite_other (h : NvmShut s) {a x : Addr} (hx : x ≠ a ∨ classify s.cfg x ≠ .ram) (v : Byte) :
    peek (Machine.memWrite a v s) x = peek s x := by
  by_cases hr : classify s.cfg a = .ram
  · have hne : x ≠ a := hx.elim id fun hn he => hn (he ▸ hr)
    rw [h.peek_memWrite_ram hr, if_neg hne]
  · obtain ⟨-, hrefused⟩ := storeThenLoad s a x v h.legal h.bufLength h.cycle h.memory
    refine hrefused hr ?_
    cases hclass : classify s.cfg a with
    | ram => exact absurd hclass hr
    | configNonvolatile => exact h.config
    | mainNonvolatile => exact h.main

/-- The byte the copy takes is what its place in `buf` reads as. -/
theorem NvmShut.peek_bufPlace (h : NvmShut s) {k : Nat} (hk : k < s.cfg.bufSize) :
    peek s (addrPlus s.cfg.bufBase k) = s.buf.getD k 0 := by
  obtain ⟨hin, hidx⟩ := inBuf_bufBase h.legal hk
  rw [peek, if_pos hin, hidx]

end

/-- The plain copy of `n` bytes from byte number `k` on, in every form, stores the bytes `v`: each is what its place in
`buf` reads as when its turn comes, and each is read at its address afterwards, unless a locked region refuses it. -/
structure CopiedOut (a : Addr) (n k : Nat) (s t : State) (v : List Byte) : Prop where
  length : v.length = n
  state : t = { s with buf := t.buf, mem := t.mem, trace := s.trace ++ storeActions a k v }
  again : ∀ i j, i < j → j < n → addrPlus a (k + i) = addrPlus s.cfg.bufBase (k + j) → v.getD j 0 = v.getD i 0
  fresh : ∀ j, j < n → (∀ i, i < j → addrPlus s.cfg.bufBase (k + j) ≠ addrPlus a (k + i)) →
    v.getD j 0 = peek s (addrPlus s.cfg.bufBase (k + j))
  stored : ∀ j, j < n → classify s.cfg (addrPlus a (k + j)) = .ram → peek t (addrPlus a (k + j)) = v.getD j 0
  kept : ∀ x, (∀ j, j < n → x ≠ addrPlus a (k + j)) ∨ classify s.cfg x ≠ .ram → peek t x = peek s x

theorem copiedOut_copyOut (a : Addr) (n : Nat) {k : Nat} {s : State} (h : NvmShut s) (hk : k + n ≤ s.cfg.bufSize) :
    ∃ v, CopiedOut a n k s (copyOut a n k s) v := by
  induction n generalizing k s with
  | zero =>
    exact ⟨[], rfl, by simp [copyOut, storeActions], by omega, by omega, by omega, fun _ _ => rfl⟩
  | succ n ih =>
    have hsize := h.legal.bufSize_lt
    have hshift : ∀ j, k + 1 + j = k + (j + 1) := by omega
    have hlater : ∀ j, j < n → addrPlus a k ≠ addrPlus a (k + (j + 1)) := fun j hj he => by
      have := addrPlus_inj (by omega) (by omega) he
      omega
    obtain ⟨b, hb⟩ : ∃ b, b = s.buf.getD k 0 := ⟨_, rfl⟩
    have hcfg : (memWrite (addrPlus a k) b s).cfg = s.cfg := (memWrite_fields ..).1
    obtain ⟨v, hlength, hstate, hagain, hfresh, hstored, hkept⟩ :=
      ih (k := k + 1) (h.memWrite (addrPlus a k) b) (by rw [hcfg]; omega)
    simp only [hcfg, hshift] at hagain hfresh hstored hkept
    refine ⟨b :: v, by simp [hlength], ?_, ?_, ?_, ?_, ?_⟩
    · rw [copyOut, ← hb, hstate, h.memWrite_eq]
      simp [storeActions]
    · rintro (_ | i) (_ | j) hij hj he
      · omega
      · have hin : classify s.cfg (addrPlus s.cfg.bufBase (k + (j + 1))) = .ram :=
          classify_of_inBuf h.legal (inBuf_bufBase h.legal (by omega)).1
        rw [Nat.add_zero] at he
        rw [List.getD_cons_succ, hfresh j (by omega) fun i hi => he ▸ hlater i (by omega), ← he,
          h.peek_memWrite_ram (he ▸ hin), if_pos rfl]
        rfl
      · omega
      · exact hagain i j (by omega) (by omega) he
    · rintro (_ | j) hj hbefore
      · exact hb.trans (h.peek_bufPlace (by omega)).symm
      · have hnot : addrPlus s.cfg.bufBase (k + (j + 1)) ≠ addrPlus a k := by simpa using hbefore 0 (by omega)
        rw [List.getD_cons_succ, hfresh j (by omega) fun i hi => hbefore (i + 1) (by omega),
          h.peek_memWrite_other (.inl hnot)]
    · rintro (_ | j) hj hr
      · simp only [Nat.add_zero] at hr ⊢
        rw [copyOut, ← hb, hkept _ (.inl hlater), h.peek_memWrite_ram hr, if_pos rfl]
        rfl
      · rw [copyOut, ← hb]
        exact hstored j (by omega) hr
    · intro x hx
      have hfirst : x ≠ addrPlus a k ∨ classify s.cfg x ≠ .ram := hx.imp_left fun hout => hout 0 (by omega)
      have hrest : (∀ j, j < n → x ≠ addrPlus a (k + (j + 1))) ∨ classify s.cfg x ≠ .ram :=
        hx.imp_left fun hout j hj => hout (j + 1) (by omega)
      rw [copyOut, ← hb, hkept x hrest, h.peek_memWrite_other hfirst]

/-- Away from the first byte of `buf` the status byte changes nothing (R155). -/
theorem peek_sendStatus_other {s : State} (hl : s.cfg.Legal) (hb : s.buf.length = s.cfg.bufSize)
    (hm : Memory.wf s.mem = true) (st : Byte) {x : Addr} (hx : inBuf s.cfg x = false ∨ bufIndex s.cfg x ≠ 0) :
    peek (sendStatus st s) x = peek s x := by
  have hbase := inBuf_bufBase hl (k := 0) hl.bufSize_pos
  rw [addrPlus_zero] at hbase
  have hne : x ≠ s.cfg.bufBase := by
    rintro rfl
    simp [hbase] at hx
  rw [peek_sendStatus hl hb hm, if_neg hne]

/-- Settles O36: the copy in every form, and then the status byte at `BUF_BASE`. -/
theorem writeOnTheRamPathEveryForm : Obligations.WriteOnTheRamPathEveryForm := by
  intro s a l hl hbuf hlen hc hm hconfig hmain
  have hfits : l.length ≤ s.cfg.bufSize := hlen.trans Params.Legal.maxPayload_le_bufSize
  have hexec := exec_writeRam_eq (a := a) (l := l) (hbuf ▸ hfits)
  have hshut : NvmShut { s with region := classify s.cfg a, buf := l ++ s.buf.drop l.length } :=
    ⟨hl, by simp [hbuf, hfits], hm, hc, hconfig, hmain⟩
  have hubuf := (copyOut_bufLength a l.length 0 _).trans hshut.bufLength
  have humem := copyOut_wf a l.length 0 hshut.memory
  obtain ⟨v, hlength, hstate, hagain, hfresh, hstored, hkept⟩ :=
    copiedOut_copyOut a l.length hshut (k := 0) (by simpa using hfits)
  simp only [Nat.zero_add] at hagain hfresh hstored hkept
  generalize copyOut a l.length 0 _ = u at *
  have hcfg : u.cfg = s.cfg := by rw [hstate]
  replace hubuf : u.buf.length = s.cfg.bufSize := hubuf
  have hpos : 0 < u.buf.length := hubuf ▸ hl.bufSize_pos
  have hread : ∀ x, inBuf s.cfg x = false ∨ bufIndex s.cfg x ≠ 0 →
      peek (sendStatus s.cfg.stSuccess u) x = peek u x := fun x hx =>
    peek_sendStatus_other (hcfg ▸ hl) (hcfg ▸ hubuf) humem _ (by rwa [hcfg])
  refine ⟨_, v, hexec, ?_, hlength, by simp [hubuf, hbuf], fun k j hk hj => hagain j k hj hk, fun k hk hout => ?_,
    fun k hk hin hr => ?_, fun k hk hin hpos => ?_, fun x hin hx => ?_, fun x hin hpos hx => ?_, ?_⟩
  · rw [sendStatus_eq, hstate]
  · have hbyte : (l ++ s.buf.drop l.length).getD k 0 = l.getD k 0 := by
      simp [List.getD_eq_getElem?_getD, List.getElem?_append_left hk]
    rw [hfresh k hk hout, ← hbyte]
    exact hshut.peek_bufPlace (hk.trans_le hfits)
  · rw [hread _ (.inl hin), hstored k hk hr]
  · rw [hread _ (.inr hpos), hstored k hk (classify_of_inBuf hl hin)]
  · rw [hread _ (.inl hin), hkept x hx]
    simp [peek, hin]
  · rw [hread _ (.inr hpos), hkept x (.inl hx)]
    simp [peek, hin]
  · simp [hpos]

/-! ## READ, WRITE, READ (R180) -/

/-- A plain copy to RAM of the bytes it already holds moves no memory. -/
theorem copyOut_same (a : Addr) (n : Nat) {k : Nat} {s : State} (hc : s.nvm.cycle = none) (hm : Memory.wf s.mem = true)
    (hram : ∀ j, k ≤ j → j < k + n → inBuf s.cfg (addrPlus a j) = false ∧ classify s.cfg (addrPlus a j) = .ram)
    (hsame : ∀ j, k ≤ j → j < k + n → s.buf.getD j 0 = Memory.read s.mem (addrPlus a j).toNat) :
    copyOut a n k s = { s with trace := (copyOut a n k s).trace } := by
  induction n generalizing k s with
  | zero => rfl
  | succ n ih =>
    obtain ⟨hin, hr⟩ := hram k le_rfl (by omega)
    have hfrom : Memory.wfFrom 0 s.mem = true := by
      simp only [Memory.wf, Bool.and_eq_true] at hm
      exact hm.1
    have hstore : memWrite (addrPlus a k) (s.buf.getD k 0) s = emit (.memWrite (addrPlus a k) (s.buf.getD k 0)) s := by
      rw [memWrite_ram _ hc hin hr, hsame k le_rfl (by omega), Memory.write_read hfrom]
      rfl
    rw [copyOut, hstore]
    exact ih (s := emit _ s) hc hm (fun j hj hj' => hram j (by omega) (by omega))
      (fun j hj hj' => hsame j (by omega) (by omega))

theorem take_eq_take_of_getD {l m : List Byte} {n : Nat} (hl : n ≤ l.length) (hm : n ≤ m.length)
    (h : ∀ k, k < n → l.getD k 0 = m.getD k 0) : l.take n = m.take n := by
  refine List.ext_getElem (by simp [hl, hm]) fun k hk hk' => ?_
  have hkn : k < n := by simp at hk; omega
  have hbyte := h k hkn
  rw [List.getD_eq_getElem _ _ (by omega), List.getD_eq_getElem _ _ (by omega)] at hbyte
  simpa using hbyte

/-- A WRITE to RAM of the bytes it already holds moves no memory. -/
theorem exec_writeRam_same {s : State} {a : Addr} {l : List Byte} (hroom : l.length ≤ s.buf.length)
    (hc : s.nvm.cycle = none) (hm : Memory.wf s.mem = true) (hram : AllIn s.cfg .ram a l.length)
    (hclear : ClearOfBuf s.cfg a l.length)
    (hsame : ∀ k, k < l.length → l.getD k 0 = Memory.read s.mem (addrPlus a k).toNat) :
    ∃ tr, exec (.writeRam a l) s = .next (sendStatus s.cfg.stSuccess
      { s with region := classify s.cfg a, buf := l ++ s.buf.drop l.length, trace := tr }) := by
  have hcopy := copyOut_same a l.length (k := 0)
    (s := { s with region := classify s.cfg a, buf := l ++ s.buf.drop l.length }) hc hm
    (fun j _ hj => ⟨hclear j (by omega), hram j (by omega)⟩) fun j _ hj => by
      rw [List.getD_append _ _ _ _ (by omega)]
      exact hsame j (by omega)
  rw [exec_writeRam_eq hroom, hcopy]
  exact ⟨_, rfl⟩

/-- Settles O47: the first READ leaves in `buf` what memory holds, so the WRITE moves no memory. -/
theorem readWriteReadGivesTheSame : Obligations.ReadWriteReadGivesTheSame := by
  intro s t1 t2 t3 a n hinv hn hc hi _ hram hclear h1 h2 h3
  have hsize : n.toNat ≤ s.cfg.bufSize := hn.trans Params.Legal.maxPayload_le_bufSize
  obtain ⟨t, ht, heq, hlen, hheld, -⟩ := readCopiesAndAnswers s a n hinv.legal hinv.bufLength hn hc hi
  obtain rfl : t = t1 := Host.Outcome.next.inj (ht.symm.trans h1)
  have hroom : n.toNat ≤ t.buf.length := by rwa [hlen, hinv.bufLength]
  have htake : (t.buf.take n.toNat).length = n.toNat := by simpa using hroom
  have hcfg : t.cfg = s.cfg := by rw [heq]
  have hmem : t.mem = s.mem := by rw [heq]
  have hlength : t.txLen = n := by rw [heq]
  obtain ⟨tr, hwrite⟩ := exec_writeRam_same (s := t) (a := a) (l := t.buf.take n.toNat) (by rw [htake]; exact hroom)
    (by rw [heq]; exact hc) (hmem ▸ hinv.memory) (by rwa [htake, hcfg]) (by rwa [htake, hcfg]) fun k hk => by
      rw [htake] at hk
      rw [hmem, ← hheld k hk (hclear k hk)]
      simp [List.getD_eq_getElem?_getD, hk]
  have ht2 := Host.Outcome.next.inj (hwrite.symm.trans h2)
  have hcfg2 : t2.cfg = s.cfg := by rw [← ht2]; exact hcfg
  have hmem2 : t2.mem = s.mem := by rw [← ht2]; exact hmem
  have hbuf2 : t2.buf.length = s.cfg.bufSize := by
    rw [← ht2, ← hinv.bufLength, ← hlen]
    simp
  obtain ⟨u, hu, hueq, hulen, huheld, -⟩ := readCopiesAndAnswers t2 a n (hcfg2 ▸ hinv.legal) (hcfg2 ▸ hbuf2)
    (hcfg2 ▸ hn) (by rw [← ht2, heq]; exact hc) (by rw [← ht2, heq]; exact hi)
  obtain rfl : u = t3 := Host.Outcome.next.inj (hu.symm.trans h3)
  refine ⟨take_eq_take_of_getD (by rwa [hulen, hbuf2]) hroom fun k hk => ?_, ?_, ?_, ?_⟩
  · rw [huheld k hk (hcfg2 ▸ hclear k hk), hheld k hk (hclear k hk), hmem2]
  · rw [hlength, hueq]
  · rw [← ht2, ← hcfg]
    rfl
  · rw [hueq, ← hmem2]

end Sys2Proof.Machine
end

section
/-!
PROOFS. The handshake (44_handshake_timer.md): the acknowledgement, the image length, the image, the timeout, and the
claims O49, O51 and O52.
-/

namespace Sys2Proof.Machine

/-- The image begins at or above the seed window's end (R259). -/
theorem seedHi_le_loadAddrOf {p : Params} (hp : p.Legal) (n : Byte) : p.seedHi.toNat ≤ (loadAddrOf p n).toNat := by
  have hflush := loadAddrOf_toNat hp n
  have hroom := hp.image_room
  omega

/-- Settles O49. -/
theorem acknowledgeAndImageLength : Obligations.AcknowledgeAndImageLength := by
  intro s hl
  refine ⟨rfl, rfl, fun n hn => ⟨_, execImgLen_eq hn s, rfl, loadAddrOf_toNat hl n, seedHi_le_loadAddrOf hl n⟩⟩

/-- The length byte starts the load (R251). -/
theorem step_imageLength {s : State} {n : Byte} {rest : List Event} (hl : s.cfg.Legal) (ho : s.owner = .hs)
    (hs : s.hsState = .imgLen) (hn : n ≠ 0) (hi : s.inputs = .rxByte n :: rest) :
    step s = .next { s with
      inputs := rest
      imgLen := n
      imgRem := n.toNat
      loadAddr := loadAddrOf s.cfg n
      imgPtr := loadAddrOf s.cfg n
      hsState := .imgData } := by
  rw [step_hsByte hl ho (.inr (.inl hs)) hi, hsByte_length (s := { s with inputs := rest }) hs hn, execImgLen_eq hn]

/-! ## The timeout (R246 to R248) -/

/-- The last tick of the wait hands control to the application (R247, R248). -/
theorem step_lastTick {s : State} {rest : List Event} (hl : s.cfg.Legal) (ho : s.owner = .hs)
    (hs : s.hsState = .waitAck) (ht : s.hsTimer = 1) (hi : s.inputs = .tick :: rest) :
    step s = .next { s with
      inputs := rest
      hsTimer := 0
      hsState := .fellThrough
      owner := .ext
      trace := s.trace ++ [.relinquish .app s.cfg.appEntry] } := by
  have hexpired : s.hsTimer - 1 = 0 := by simp [ht]
  exact (step_tick hl ho hs hi).trans
    (congrArg Host.Outcome.next (tick_expired (s := { s with inputs := rest }) hexpired))

/-- As many ticks as the timer holds hand control to the application, once. -/
theorem run_ticksOut (n : Nat) {s : State} {rest : List Event} (hl : s.cfg.Legal) (ho : s.owner = .hs)
    (hs : s.hsState = .waitAck) (ht : s.hsTimer = n + 1) (hi : s.inputs = List.replicate (n + 1) .tick ++ rest) :
    run (n + 1) s = .next { s with
      inputs := rest
      hsTimer := 0
      hsState := .fellThrough
      owner := .ext
      trace := s.trace ++ [.relinquish .app s.cfg.appEntry] } := by
  induction n generalizing s with
  | zero => exact (run_one s).trans (step_lastTick hl ho hs ht hi)
  | succ n ih =>
    rw [run_next (step_tickRunning hl ho hs (by omega) hi)]
    exact ih (s := { s with inputs := List.replicate (n + 1) .tick ++ rest, hsTimer := s.hsTimer - 1 }) hl ho hs
      (by simp [ht]) rfl

/-- Settles O51: the second sync byte loads the timer, which then runs out. -/
theorem timeoutBootsTheApplication : Obligations.TimeoutBootsTheApplication := by
  intro s rest hl ho hs hi
  obtain ⟨n, hn⟩ := Nat.exists_eq_add_of_le' hl.tHs_pos
  rw [Nat.add_comm, run_next ((step_sendSync1 hl ho hs hi).trans (exec_sync1 _)), hn]
  refine (run_ticksOut n
    (s := { s with inputs := List.replicate (n + 1) .tick ++ rest, hsState := _, hsTimer := _, trace := _ })
    hl ho rfl rfl rfl).trans ?_
  simp

/-! ## The image (R253 to R255) -/

/-- A store that reaches `buf` or RAM changes nothing but the byte and the trace (R69, R71). -/
theorem memWrite_ram_eq {s : State} {a : Addr} (v : Byte) (hc : s.nvm.cycle = none) (hr : classify s.cfg a = .ram) :
    memWrite a v s = { s with
      buf := (memWrite a v s).buf
      mem := (memWrite a v s).mem
      trace := s.trace ++ [.memWrite a v] } := by
  rw [memWrite_eq_rawStore v hc hr, rawStore]
  split <;> rfl

/-- An image byte on its way, before the test for the last one (R253). -/
def storeImageByte (b : Byte) (s : State) : State :=
  { memWrite s.imgPtr b s with imgPtr := addrPlus s.imgPtr 1, imgRem := s.imgRem - 1 }

theorem imgByte_eq (b : Byte) (s : State) :
    imgByte b s = if s.imgRem - 1 = 0 then enterImage (storeImageByte b s) else storeImageByte b s := by
  simp [imgByte, storeImageByte]

theorem step_imageByte {s : State} {b : Byte} {rest : List Event} (hl : s.cfg.Legal) (ho : s.owner = .hs)
    (hs : s.hsState = .imgData) (hi : s.inputs = .rxByte b :: rest) :
    step s = .next (imgByte b { s with inputs := rest }) :=
  (step_hsByte hl ho (.inr (.inr hs)) hi).trans (hsByte_image hs)

/-- The image load stands before byte `k` of an image at `a`, with the bytes `l` still to come; they fall in RAM. -/
structure AtImageByte (a : Addr) (k : Nat) (l : List Byte) (s : State) : Prop where
  legal : s.cfg.Legal
  memory : Memory.wf s.mem = true
  bufLength : s.buf.length = s.cfg.bufSize
  cycle : s.nvm.cycle = none
  owner : s.owner = .hs
  hsState : s.hsState = .imgData
  rem : s.imgRem = l.length
  ptr : s.imgPtr = addrPlus a k
  ram : ∀ j, j < l.length → classify s.cfg (addrPlus a (k + j)) = .ram

section
variable {a : Addr} {k : Nat} {b : Byte} {l : List Byte} {s : State}

theorem AtImageByte.store_ram (h : AtImageByte a k (b :: l) s) : classify s.cfg s.imgPtr = .ram := by
  rw [h.ptr]
  exact h.ram 0 (by simp)

theorem AtImageByte.storeImageByte_eq (h : AtImageByte a k (b :: l) s) :
    storeImageByte b s = { s with
      buf := (storeImageByte b s).buf
      mem := (storeImageByte b s).mem
      imgPtr := addrPlus a (k + 1)
      imgRem := l.length
      trace := s.trace ++ [.memWrite (addrPlus a k) b] } := by
  rw [storeImageByte, memWrite_ram_eq b h.cycle h.store_ram, h.ptr, addrPlus_add, h.rem]
  rfl

theorem AtImageByte.with_inputs (h : AtImageByte a k l s) (es : List Event) :
    AtImageByte a k l { s with inputs := es } := { h with }

theorem storeImageByte_inputs (b : Byte) (s : State) : (storeImageByte b s).inputs = s.inputs := by
  simp [storeImageByte]

theorem AtImageByte.next (h : AtImageByte a k (b :: l) s) : AtImageByte a (k + 1) l (storeImageByte b s) := by
  have hshift : ∀ j, k + 1 + j = k + (j + 1) := by omega
  have hlength : (storeImageByte b s).buf.length = s.buf.length := memWrite_bufLength ..
  have hmem : Memory.wf (storeImageByte b s).mem = true := memWrite_wf h.memory ..
  rw [h.storeImageByte_eq]
  exact ⟨h.legal, hmem, hlength.trans h.bufLength, h.cycle, h.owner, h.hsState, rfl, rfl, fun j hj => by
    rw [hshift]
    exact h.ram (j + 1) (by simpa using hj)⟩

theorem AtImageByte.peek_storeImageByte (h : AtImageByte a k (b :: l) s) (x : Addr) :
    peek (storeImageByte b s) x = if x = addrPlus a k then b else peek s x := by
  obtain ⟨hstore, -⟩ := storeThenLoad s s.imgPtr x b h.legal h.bufLength h.cycle h.memory
  rw [← h.ptr]
  exact hstore h.store_ram

theorem AtImageByte.step_last (h : AtImageByte a k [b] s) {es : List Event} (hi : s.inputs = .rxByte b :: es) :
    step s = .next (enterImage (storeImageByte b { s with inputs := es })) := by
  rw [step_imageByte h.legal h.owner h.hsState hi, imgByte_eq, if_pos (by simp [h.rem])]

theorem AtImageByte.step_more {c : Byte} (h : AtImageByte a k (b :: c :: l) s) {es : List Event}
    (hi : s.inputs = .rxByte b :: es) : step s = .next (storeImageByte b { s with inputs := es }) := by
  rw [step_imageByte h.legal h.owner h.hsState hi, imgByte_eq, if_neg (by simp [h.rem])]

end

theorem enterImage_eq (s : State) :
    enterImage s = { s with
      hsState := .enteredImage
      owner := .cu
      cuPhase := .receive
      rxState := .hunt
      serialRate := s.cfg.baudFull
      trace := s.trace ++ [.relinquish .image (imageTarget s.cfg s.loadAddr s.imgLen),
        .serialConfig s.cfg.baudFull] } := by
  simp [enterImage, enableCommandUnit, backToHunt, serialConfig, emit]

/-- The rest `l` of an image, from byte number `k` on, is stored, and then the image is entered. -/
structure ImageLoaded (a : Addr) (k : Nat) (l : List Byte) (rest : List Event) (s t : State) : Prop where
  state : t = { s with
    buf := t.buf
    mem := t.mem
    imgPtr := addrPlus a (k + l.length)
    imgRem := 0
    hsState := .enteredImage
    owner := .cu
    cuPhase := .receive
    rxState := .hunt
    serialRate := s.cfg.baudFull
    inputs := rest
    trace := s.trace ++ storeActions a k l ++
      [.relinquish .image (imageTarget s.cfg s.loadAddr s.imgLen), .serialConfig s.cfg.baudFull] }
  stored : ∀ j, j < l.length → peek t (addrPlus a (k + j)) = l.getD j 0
  kept : ∀ x, (∀ j, j < l.length → x ≠ addrPlus a (k + j)) → peek t x = peek s x

theorem imageLoaded_enterImage {a : Addr} {k : Nat} {rest : List Event} {s : State} (h : AtImageByte a k [] s)
    (hi : s.inputs = rest) : ImageLoaded a k [] rest s (enterImage s) where
  state := by
    simp [enterImage_eq, storeActions, h.ptr, h.rem, hi]
  stored := nofun
  kept x _ := by
    rw [enterImage_eq]
    rfl

theorem ImageLoaded.cons {a : Addr} {k : Nat} {b : Byte} {l : List Byte} {rest es : List Event} {s t : State}
    (ht : ImageLoaded a (k + 1) l rest (storeImageByte b { s with inputs := es }) t) (h : AtImageByte a k (b :: l) s)
    (hk : k + l.length < 65536) : ImageLoaded a k (b :: l) rest s t := by
  obtain ⟨hstate, hstored, hkept⟩ := ht
  have hshift : ∀ j, k + 1 + j = k + (j + 1) := by omega
  have hread := (h.with_inputs es).peek_storeImageByte
  simp only [hshift] at hstate hstored hkept
  refine ⟨?_, ?_, fun x hx => ?_⟩
  · rw [hstate, (h.with_inputs es).storeImageByte_eq]
    simp [storeActions]
  · rintro (_ | j) hj
    · rw [Nat.add_zero, hkept, hread, if_pos rfl]
      · rfl
      · intro j hj he
        have := addrPlus_inj (by omega) (by omega) he
        omega
    · exact hstored j (by simpa using hj)
  · rw [hkept x fun j hj => hx (j + 1) (by simpa using hj), hread, if_neg (by simpa using hx 0 (by simp))]
    rfl

/-- The bytes that are left, from one on, are stored, and the image is entered. -/
theorem run_imageBytes {a : Addr} {rest : List Event} (l : List Byte) {b : Byte} {k : Nat} {s : State}
    (h : AtImageByte a k (b :: l) s) (hk : k + l.length < 65536)
    (hi : s.inputs = (b :: l).map .rxByte ++ rest) :
    ∃ t, run (l.length + 1) s = .next t ∧ ImageLoaded a k (b :: l) rest s t := by
  induction l generalizing b k s with
  | nil =>
    have henter := imageLoaded_enterImage (h.with_inputs rest).next (storeImageByte_inputs ..)
    exact ⟨_, (run_one s).trans (h.step_last hi), henter.cons h hk⟩
  | cons c l ih =>
    have hroom : k + 1 + l.length < 65536 := by simpa [Nat.add_assoc, Nat.add_comm 1] using hk
    obtain ⟨t, hrun, ht⟩ := ih (h.with_inputs ((c :: l).map .rxByte ++ rest)).next hroom (storeImageByte_inputs ..)
    exact ⟨t, (run_next (h.step_more hi)).trans hrun, ht.cons h hk⟩

/-- An image that ends at `RAM_TOP` falls in RAM (R9, R259). -/
theorem atImageByte_first {bytes : List Byte} {s : State} (hl : s.cfg.Legal) (hm : Memory.wf s.mem = true)
    (hbuf : s.buf.length = s.cfg.bufSize) (hc : s.nvm.cycle = none) (ho : s.owner = .hs) (hs : s.hsState = .imgData)
    (hrem : s.imgRem = bytes.length) (hflush : s.imgPtr.toNat + bytes.length = s.cfg.ramTop.toNat) :
    AtImageByte s.imgPtr 0 bytes s :=
  ⟨hl, hm, hbuf, hc, ho, hs, hrem, (addrPlus_zero _).symm, fun j hj => classify_ram.mpr (by
    have htop := hl.ramTop_le
    have hspace := s.cfg.ramTop.isLt
    rw [addrPlus_toNat, Nat.zero_add, Nat.mod_eq_of_lt (by omega)]
    omega)⟩

/-- Settles O52: the length byte anchors the image under `RAM_TOP`, and its bytes follow. -/
theorem imageIsLoadedAndEntered : Obligations.ImageIsLoadedAndEntered := by
  intro s bytes rest hl hm hbuf hc ho hs hpos hmax hi
  have hlen : (lenByte bytes).toNat = bytes.length := lenByte_toNat hmax
  have hn : lenByte bytes ≠ 0 := fun h0 => by
    rw [h0] at hlen
    exact absurd (hlen ▸ hpos) (by decide)
  have hflush : (loadAddrOf s.cfg (lenByte bytes)).toNat + bytes.length = s.cfg.ramTop.toNat :=
    hlen ▸ loadAddrOf_toNat hl (lenByte bytes)
  have hstart := atImageByte_first (bytes := bytes) (s := { s with
    inputs := bytes.map .rxByte ++ rest
    imgLen := lenByte bytes
    imgRem := (lenByte bytes).toNat
    loadAddr := loadAddrOf s.cfg (lenByte bytes)
    imgPtr := loadAddrOf s.cfg (lenByte bytes)
    hsState := .imgData }) hl hm hbuf hc ho rfl hlen hflush
  have hend : addrPlus (loadAddrOf s.cfg (lenByte bytes)) bytes.length = s.cfg.ramTop :=
    BitVec.eq_of_toNat_eq (by rw [addrPlus_toNat, hflush, Nat.mod_eq_of_lt s.cfg.ramTop.isLt])
  obtain ⟨b, l, rfl⟩ := List.exists_cons_of_length_pos hpos
  obtain ⟨t, hrun, hstate, hstored, hkept⟩ := run_imageBytes (rest := rest) l hstart (by simp at hmax; omega) rfl
  simp only [Nat.zero_add] at hstate hstored hkept
  have hload : t.loadAddr = loadAddrOf s.cfg (lenByte (b :: l)) := by rw [hstate]
  refine ⟨t, ?_, ?_, hload ▸ hflush, hload ▸ hstored, hload ▸ hkept⟩
  · rw [Nat.add_comm, run_next (step_imageLength hl ho hs hn hi)]
    exact hrun
  · rw [hload, hstate, hend]

end Sys2Proof.Machine
end

section
/-!
PROOFS. The write engine (43_region_write_engine.md): how a non-volatile WRITE begins, the empty one, what an answered
session leaves in memory, and the claims O37, O38, O41 and O42.
-/

namespace Sys2Proof.Machine

/-! ## The controller's registers (R204, R211) -/

/-- The keys touch the register of their own region only (R204). -/
theorem keyedNvm_sides (p : Params) (r : Region) (c : NvmController) :
    (r = .configNonvolatile → (keyedNvm p r c).config.unlock = p.key2Config ∧ (keyedNvm p r c).main = c.main) ∧
    (r = .mainNonvolatile → (keyedNvm p r c).main.unlock = p.key2Main ∧ (keyedNvm p r c).config = c.config) := by
  cases r with
  | ram => exact ⟨nofun, nofun⟩
  | configNonvolatile => exact ⟨fun _ => ⟨rfl, rfl⟩, nofun⟩
  | mainNonvolatile => exact ⟨nofun, fun _ => ⟨rfl, rfl⟩⟩

/-- The lock leaves the unlock registers and the other region alone (R211). -/
theorem lockedNvm_sides (p : Params) (r : Region) (c : NvmController) :
    (r = .configNonvolatile → (lockedNvm p r c).config.unlock = c.config.unlock ∧ (lockedNvm p r c).main = c.main) ∧
    (r = .mainNonvolatile → (lockedNvm p r c).main.unlock = c.main.unlock ∧ (lockedNvm p r c).config = c.config) := by
  cases r with
  | ram => exact ⟨nofun, nofun⟩
  | configNonvolatile => exact ⟨fun _ => ⟨rfl, rfl⟩, nofun⟩
  | mainNonvolatile => exact ⟨nofun, fun _ => ⟨rfl, rfl⟩⟩

/-- The lock ends the programming mode where the region uses it (R211, R47). -/
theorem lockedNvm_progMode (p : Params) (r : Region) (c : NvmController) :
    (lockedNvm p r c).progMode = (c.progMode && !needsArm p r) := by
  cases r <;> simp [lockedNvm, needsArm]

/-- Settles O37: the unlock, and then the first store with its poll. -/
theorem writeToNvmOpensTheSession : Obligations.WriteToNvmOpensTheSession := by
  intro s a b l hl hbuf hlen hc hr
  have hroom : (b :: l).length ≤ s.buf.length := hbuf ▸ hlen.trans Params.Legal.maxPayload_le_bufSize
  obtain ⟨hconfig, hmain⟩ := keyedNvm_sides s.cfg (classify s.cfg a) s.nvm
  have hcycle : (opened a (b :: l) s).nvm.cycle = none := (keyedNvm_cycle ..).trans hc
  have hstore := programNext_store (s := opened a (b :: l) s) (by simp [opened]) hcycle (not_inBuf hl hr) hr
    (takesStore_opened (b :: l) hr)
  exact ⟨_, (exec_writeNvm_eq hroom).trans (congrArg _ hstore), rfl, rfl, keyedNvm_enabled _ _ _ hr, rfl, hconfig,
    hmain⟩

/-- Settles O38: with nothing to store the unlock is followed by the lock. -/
theorem emptyWriteToNvmUnlocksAndLocks : Obligations.EmptyWriteToNvmUnlocksAndLocks := by
  intro s a hl hbuf hr
  obtain ⟨hkeyConfig, hkeyMain⟩ := keyedNvm_sides s.cfg (classify s.cfg a) s.nvm
  obtain ⟨hlockConfig, hlockMain⟩ := lockedNvm_sides s.cfg (classify s.cfg a) (opened a [] s).nvm
  have hmode := lockedNvm_progMode s.cfg (classify s.cfg a) (opened a [] s).nvm
  have hlock := (programNext_done rfl).trans (lock_eq (s := opened a [] s) hr)
  refine ⟨_, (exec_writeNvm_eq (Nat.zero_le _)).trans (congrArg _ hlock), ?_, lockedNvm_enabled .., ?_,
    fun harm => ?_, fun harm => ?_, fun hc => ?_, fun hm => ?_⟩
  · simp [opened, unlockActions, lockActions]
  · exact (lockedNvm_cycle ..).trans (keyedNvm_cycle ..)
  · exact hmode.trans (by simp [harm])
  · exact hmode.trans (by simp [opened, harm])
  · obtain ⟨hunlock, hother⟩ := hlockConfig hc
    obtain ⟨hkey, hmain⟩ := hkeyConfig hc
    exact ⟨hunlock.trans hkey, hother.trans hmain⟩
  · obtain ⟨hunlock, hother⟩ := hlockMain hm
    obtain ⟨hkey, hconfig⟩ := hkeyMain hm
    exact ⟨hunlock.trans hkey, hother.trans hconfig⟩

/-! ## What an answered session leaves in memory (R74, R80) -/

/-- `AtByte` for a session whose remaining bytes fall in its own region, which takes stores, with no program cycle in
progress. -/
structure Ready (a : Addr) (k : Nat) (l : List Byte) (s : State) : Prop where
  atByte : AtByte a k l s
  memory : Memory.wf s.mem = true
  cycle : s.nvm.cycle = none
  region : s.region ≠ .ram
  inRegion : ∀ j, j < l.length → classify s.cfg (addrPlus a (k + j)) = s.region
  takes : takesStore s s.region = true

section
variable {a : Addr} {k : Nat} {b : Byte} {l : List Byte} {s : State}

theorem Ready.class_dst (h : Ready a k (b :: l) s) : classify s.cfg s.dst = s.region := by
  rw [h.atByte.dst]
  exact h.inRegion 0 (by simp)

/-- The store starts the program cycle of its byte (R74). -/
theorem Ready.programNext_eq (h : Ready a k (b :: l) s) :
    programNext s = { s with
      weState := .poll
      nvm := { s.nvm with cycle := some (addrPlus a k, b) }
      trace := s.trace ++ [.memWrite (addrPlus a k) b, .nvmPoll s.region] } := by
  have hclass := h.class_dst
  have hram : classify s.cfg s.dst ≠ .ram := hclass ▸ h.region
  have hbyte : s.buf.getD s.src 0 = b := by rw [List.getD_eq_getElem?_getD, h.atByte.next_byte]; rfl
  rw [programNext_store h.atByte.rem_ne_zero h.cycle (not_inBuf h.atByte.legal hram) hram (hclass ▸ h.takes), hbyte,
    h.atByte.dst]

/-- The answer `EOP` ends the cycle: the byte is in memory (R74, R206). -/
theorem Ready.byteDone_eq (h : Ready a k (b :: l) s) (es : List Event) :
    byteDone { programNext s with inputs := es } = { s with
      weState := .poll
      inputs := es
      mem := Memory.write s.mem (addrPlus a k).toNat b
      dst := addrPlus a (k + 1)
      src := s.src + 1
      rem := l.length
      trace := s.trace ++ [.memWrite (addrPlus a k) b, .nvmPoll s.region] } := by
  have hnvm : { s.nvm with cycle := none } = s.nvm := by rw [← h.cycle]
  rw [h.programNext_eq, byteDone, commitCycle]
  simp [hnvm, h.atByte.dst, h.atByte.rem, addrPlus_add]

theorem Ready.next (h : Ready a k (b :: l) s) (es : List Event) :
    Ready a (k + 1) l (byteDone { programNext s with inputs := es }) := by
  have hnext := h.atByte.next es
  have hshift : ∀ j, k + 1 + j = k + (j + 1) := by omega
  rw [h.byteDone_eq] at hnext ⊢
  exact ⟨hnext, Memory.wf_write h.memory _ _, h.cycle, h.region, fun j hj => by
    rw [hshift]
    exact h.inRegion (j + 1) (by simpa using hj), h.takes⟩

end

/-- The bytes `l`, from byte number `k` on, have been programmed between `s` and `u`. -/
structure Programmed (a : Addr) (k : Nat) (l : List Byte) (rest : List Event) (s u : State) : Prop where
  state : u = { s with
    weState := u.weState
    inputs := rest
    mem := u.mem
    dst := u.dst
    src := u.src
    rem := u.rem
    trace := s.trace ++ programActions s.region a k l }
  stored : ∀ j, j < l.length → Memory.read u.mem (addrPlus a (k + j)).toNat = l.getD j 0
  kept : ∀ x : Addr, (∀ j, j < l.length → x ≠ addrPlus a (k + j)) →
    Memory.read u.mem x.toNat = Memory.read s.mem x.toNat

theorem Programmed.cons {a : Addr} {k : Nat} {b : Byte} {l m : List Byte} {rest es : List Event} {s u : State}
    (hu : Programmed a (k + 1) l rest (byteDone { programNext s with inputs := es }) u)
    (h : Ready a k (b :: m) s) (hk : k + l.length < 65536) : Programmed a k (b :: l) rest s u := by
  obtain ⟨hstate, hstored, hkept⟩ := hu
  have hshift : ∀ j, k + 1 + j = k + (j + 1) := by omega
  simp only [h.byteDone_eq, hshift, Memory.read_write_addr h.memory] at hstate hstored hkept
  refine ⟨?_, ?_, fun x hx => ?_⟩
  · rw [hstate]
    simp [programActions]
  · rintro (_ | j) hj
    · rw [Nat.add_zero, hkept, if_pos rfl]
      · rfl
      · intro j hj he
        have := addrPlus_inj (by omega) (by omega) he
        omega
    · exact hstored j (by simpa using hj)
  · rw [hkept x fun j hj => hx (j + 1) (by simpa using hj), if_neg (by simpa using hx 0 (by simp))]

/-- One `EOP` for each byte of `l` brings the session to the first byte of `m`. -/
theorem run_programmed {a : Addr} {m : List Byte} {rest : List Event} (l : List Byte) (answers : List NvmAnswer)
    {k : Nat} {s : State} (h : Ready a k (l ++ m) s) (hk : k + l.length < 65536) (hlen : answers.length = l.length)
    (heop : ∀ x, x ∈ answers → isEop x = true) (hi : s.inputs = answers.map .nvmStatus ++ rest) :
    ∃ u, run l.length (programNext s) = .next (programNext u) ∧ Ready a (k + l.length) m u ∧
      Programmed a k l rest s u := by
  induction l generalizing answers k s with
  | nil =>
    obtain rfl := List.length_eq_zero_iff.mp hlen
    obtain rfl : s.inputs = rest := hi
    exact ⟨s, rfl, h, by simp [programActions], nofun, fun _ _ => rfl⟩
  | cons b l ih =>
    obtain ⟨x, xs, rfl⟩ := List.exists_cons_of_length_eq_add_one hlen
    have hnext : Ready a (k + 1) (l ++ m) _ := Ready.next h (xs.map .nvmStatus ++ rest)
    obtain ⟨u, hrun, hready, hu⟩ := ih xs hnext (by simpa [Nat.add_assoc, Nat.add_comm 1] using hk)
      (by simpa using hlen) (fun y hy => heop y (by simp [hy])) (by rw [Ready.byteDone_eq h])
    refine ⟨u, (run_next (AtByte.step_programNext h.atByte (heop x (by simp)) hi)).trans hrun, ?_, hu.cons h ?_⟩
    · rwa [List.length_cons, Nat.add_comm l.length, ← Nat.add_assoc]
    · exact (Nat.add_le_add_left (Nat.le_succ _) k).trans_lt hk

/-- A WRITE whose bytes fall in one non-volatile region stands, once unlocked, at its first byte (R204). -/
theorem ready_opened {s : State} {a : Addr} {l : List Byte} (hl : s.cfg.Legal) (hc : s.nvm.cycle = none)
    (hm : Memory.wf s.mem = true) (ho : s.owner = .cu) (hp : s.cuPhase = .execute) (hr : classify s.cfg a ≠ .ram)
    (hall : AllIn s.cfg (classify s.cfg a) a l.length) : Ready a 0 l (opened a l s) where
  atByte := ⟨hl, ho, hp, rfl, (addrPlus_zero a).symm, ⟨_, rfl⟩, fun k hk => not_inBuf hl (hall k hk ▸ hr)⟩
  memory := hm
  cycle := (keyedNvm_cycle ..).trans hc
  region := hr
  inRegion j hj := by
    rw [Nat.zero_add]
    exact hall j hj
  takes := takesStore_opened l hr

/-- Outside `buf` the lock leaves memory as it is. -/
theorem peek_lock {s : State} {x : Addr} (hx : inBuf s.cfg x = false) :
    peek (lock s) x = Memory.read s.mem x.toNat := by
  simp [peek, hx]

/-- A WRITE of `l ++ m` runs, with one `EOP` for each byte of `l`, to the first byte of `m`. -/
theorem run_writeNvm {s : State} {a : Addr} {l : List Byte} (m : List Byte) {answers : List NvmAnswer}
    {rest : List Event} (hroom : (l ++ m).length ≤ s.buf.length) (hfits : (l ++ m).length ≤ 255)
    (hready : Ready a 0 (l ++ m) (opened a (l ++ m) s)) (hlen : answers.length = l.length)
    (heop : ∀ x, x ∈ answers → isEop x = true) (hi : s.inputs = answers.map .nvmStatus ++ rest) :
    ∃ t u, exec (.writeNvm a (l ++ m)) s = .next t ∧ run l.length t = .next (programNext u) ∧
      Ready a l.length m u ∧ Programmed a 0 l rest (opened a (l ++ m) s) u := by
  rw [List.length_append] at hfits
  obtain ⟨u, hrun, hu⟩ := run_programmed l answers hready (by omega) hlen heop hi
  rw [Nat.zero_add] at hu
  exact ⟨_, u, exec_writeNvm_eq hroom, hrun, hu⟩

/-- Settles O41: one `EOP` for each byte, and then the lock. -/
theorem nvmWriteProgramsEveryByte : Obligations.NvmWriteProgramsEveryByte := by
  intro s a l answers rest hl hbuf hlen hc hm ho hp hr hall hans heop hi
  rw [← List.append_nil l] at hlen
  have hroom : (l ++ []).length ≤ s.buf.length := hbuf ▸ hlen.trans Params.Legal.maxPayload_le_bufSize
  have hready : Ready a 0 (l ++ []) (opened a (l ++ []) s) :=
    ready_opened hl hc hm ho hp hr (by rwa [List.append_nil])
  obtain ⟨t, u, hexec, hrun, hend, hstate, hstored, hkept⟩ :=
    run_writeNvm [] hroom (hlen.trans hl.maxPayload_le) hready hans heop hi
  rw [List.append_nil] at hexec
  rw [programNext_done hend.atByte.rem] at hrun
  simp only [Nat.zero_add] at hstored hkept
  have hcfg : u.cfg = s.cfg := by rw [hstate]; rfl
  have hregion : u.region = classify s.cfg a := by rw [hstate]; rfl
  have hstatus : u.status = s.cfg.stSuccess := by rw [hstate]; rfl
  have hin : u.inputs = rest := by rw [hstate]
  refine ⟨t, lock u, hexec, hrun, by simp [hstatus], by simp, by simp, by simp [hin], lock_enabled hregion hr,
    ?_, fun k hk => ?_, fun x hx hxb => ?_⟩
  · rw [lock_eq hend.region]
    exact (lockedNvm_cycle ..).trans hend.cycle
  · rw [peek_lock (hcfg ▸ not_inBuf hl (hall k hk ▸ hr)), hstored k hk]
  · rw [peek_lock (hcfg ▸ hxb), hkept x hx, peek, if_neg (by simp [hxb])]
    rfl

theorem programActions_append (r : Region) (a : Addr) (l m : List Byte) (k : Nat) :
    programActions r a k (l ++ m) = programActions r a k l ++ programActions r a (k + l.length) m := by
  induction l generalizing k with
  | nil => rfl
  | cons b l ih =>
    have hshift : k + 1 + l.length = k + (l.length + 1) := by omega
    simp [programActions, ih, hshift]

/-- `ERR` at the poll of byte number `k` leaves that byte unknown and every other as it was, and locks (R207). -/
theorem Ready.step_err {a : Addr} {k : Nat} {b : Byte} {l : List Byte} {s : State} (h : Ready a k (b :: l) s)
    {bad : NvmAnswer} {rest : List Event} (herr : bad.err = true) (hi : s.inputs = .nvmStatus bad :: rest) :
    step (programNext s) = .next (lock { s with
      weState := .poll
      inputs := rest
      status := s.cfg.stProgrammingProtected
      mem := Memory.write s.mem (addrPlus a k).toNat (Config.spoiledByte s.freeCount)
      freeCount := s.freeCount + 1
      trace := s.trace ++ [.memWrite (addrPlus a k) b, .nvmPoll s.region] }) := by
  have hnvm : { s.nvm with cycle := none } = s.nvm := by rw [← h.cycle]
  obtain ⟨ho, hp, hw, -, -, -, -, -, -, hin, -⟩ := programNext_fields h.atByte.rem_ne_zero
  rw [step_nvmStatus (programNext_cfg s ▸ h.atByte.legal) (ho.trans h.atByte.owner) (hp.trans h.atByte.phase) hw
    (hin.trans hi), pollAnswer_err herr, h.programNext_eq]
  simp [abandonCycle, hnvm]

/-- Settles O42. -/
theorem nvmWriteAbortsOnError : Obligations.NvmWriteAbortsOnError := by
  intro s a l m b answers bad rest hl hbuf hlen hc hm ho hp hr hall hans heop herr hi
  have hroom : (l ++ b :: m).length ≤ s.buf.length := hbuf ▸ hlen.trans Params.Legal.maxPayload_le_bufSize
  obtain ⟨t, u, hexec, hrun, hend, hstate, hstored, hkept⟩ := run_writeNvm (b :: m) hroom (hlen.trans hl.maxPayload_le)
    (ready_opened hl hc hm ho hp hr hall) hans heop hi
  simp only [Nat.zero_add] at hstored hkept
  have hmax := hl.maxPayload_le
  have hlength : l.length < (l ++ b :: m).length := by simp
  have hcfg : u.cfg = s.cfg := by rw [hstate]; rfl
  have hregion : u.region = classify s.cfg a := by rw [hstate]; rfl
  have htrace : u.trace = s.trace ++ unlockActions s.cfg (classify s.cfg a) ++
      programActions (classify s.cfg a) a 0 l := by rw [hstate]; rfl
  have hin : u.inputs = .nvmStatus bad :: rest := by rw [hstate]
  refine ⟨t, _, hexec, (run_add hrun).trans ((run_one _).trans (hend.step_err herr hin)), ?_, by simp [hcfg], by simp,
    by simp, by simp, lock_enabled hregion hr, fun k hk => ?_, fun x hx hxb => ?_⟩
  · rw [lock_trace (hregion ▸ hr)]
    simp [programActions_append, programActions, htrace, hregion, hcfg]
  · have hnext : addrPlus a k ≠ addrPlus a l.length := fun he => by
      have := addrPlus_inj (by omega) (by omega) he
      omega
    rw [peek_lock (hcfg ▸ not_inBuf hl (hall k (by simp; omega) ▸ hr)), Memory.read_write_addr hend.memory,
      if_neg hnext, hstored k hk]
  · rw [peek_lock (hcfg ▸ hxb), Memory.read_write_addr hend.memory, if_neg (hx l.length (by omega)),
      hkept x fun j hj => hx j (by omega), peek, if_neg (by simp [hxb])]
    rfl

end Sys2Proof.Machine
end
